-- ==== Sys2Proof/Word.lean ====
section
/-! DEFINITION. The value types of the spec's notation (00_scope.md R11): a byte and a finite sequence of bytes. -/

namespace Sys2Proof

/-- `Byte` of R11: 8 bits, numbered 7 (most significant) down to 0. -/
abbrev Byte := BitVec 8

/-- `Bytes` of R11: a finite sequence of bytes, index 0 first. -/
abbrev Bytes := List Byte

end Sys2Proof
end

