-- ==== Sys2Proof/Machine/ByteString.lean ====
section
/-! DEFINITION. Operations on byte strings used by every engine: exclusive or, `OS2IP`, `I2OSP` (00_scope.md R11,
44_public_key.md R172, R173), the cutting into blocks, and hexadecimal notation. -/

namespace Sys2Proof.Machine

/-- `a xor b` on two `Bytes` of equal length (R11). -/
def xorBytes (a b : Bytes) : Bytes := List.zipWith (fun x y => x ^^^ y) a b

/-- `rep(v, n)` (R11). -/
def rep (v : Byte) (n : Nat) : Bytes := List.replicate n v

/-- `b[i..j)` (R11). -/
def slice (b : Bytes) (i j : Nat) : Bytes := (b.drop i).take (j - i)

/-- `ceil(a/b)` (R11). -/
def ceilDiv (a b : Nat) : Nat := (a + b - 1) / b

/-- `OS2IP(b)` (R172): big-endian, index 0 most significant. -/
def os2ip (b : Bytes) : Nat := b.foldl (fun acc x => acc * 256 + x.toNat) 0

/-- `I2OSP(x, len)` (R173). Defined by the spec for `x < 256^len` only; on a larger `x` this gives the `len` low-order
digits (log 13). -/
def i2osp (x len : Nat) : Bytes :=
  (List.range len).map fun i => BitVec.ofNat 8 (x / 256 ^ (len - 1 - i) % 256)

/-- The `j`-th group of `n` bytes of `b`, for each whole group, in order. -/
def blocks (n : Nat) (b : Bytes) : List Bytes :=
  (List.range (b.length / n)).map fun j => slice b (j * n) (j * n + n)

/-- A hex string of R11 written as a numeral of `n` bytes: the leftmost pair is index 0. -/
def hex (n x : Nat) : Bytes := i2osp x n

end Sys2Proof.Machine
end

