-- ==== Sys2Proof/Machine/Des.lean ====
section
/-! DEFINITION. The DES block function (43_des.md R150 to R159). A bit string of `n` bits is a `BitVec n` whose bit 1
in the numbering of R150 is its most significant bit. -/

namespace Sys2Proof.Machine

/-- Bit `i` of a bit string, numbered from 1 (R150). -/
def bitAt {n : Nat} (x : BitVec n) (i : Nat) : Bool := x.getMsbD (i - 1)

/-- A bit string of `m` bits given as a list of bits, bit 1 first. -/
def ofBits (m : Nat) (bs : List Bool) : BitVec m :=
  BitVec.ofNat m (bs.foldl (fun acc b => 2 * acc + b.toNat) 0)

/-- A permutation table applied to a bit string (R150): bit `i` of the result is bit `T[i]` of `x`. -/
def permute {n : Nat} (m : Nat) (T : List Nat) (x : BitVec n) : BitVec m := ofBits m (T.map (bitAt x))

/-- `IP` (R151). -/
def tableIP : List Nat :=
  [58, 50, 42, 34, 26, 18, 10, 2,
   60, 52, 44, 36, 28, 20, 12, 4,
   62, 54, 46, 38, 30, 22, 14, 6,
   64, 56, 48, 40, 32, 24, 16, 8,
   57, 49, 41, 33, 25, 17, 9, 1,
   59, 51, 43, 35, 27, 19, 11, 3,
   61, 53, 45, 37, 29, 21, 13, 5,
   63, 55, 47, 39, 31, 23, 15, 7]

/-- `FP` (R151). -/
def tableFP : List Nat :=
  [40, 8, 48, 16, 56, 24, 64, 32,
   39, 7, 47, 15, 55, 23, 63, 31,
   38, 6, 46, 14, 54, 22, 62, 30,
   37, 5, 45, 13, 53, 21, 61, 29,
   36, 4, 44, 12, 52, 20, 60, 28,
   35, 3, 43, 11, 51, 19, 59, 27,
   34, 2, 42, 10, 50, 18, 58, 26,
   33, 1, 41, 9, 49, 17, 57, 25]

/-- `E` (R152). -/
def tableE : List Nat :=
  [32, 1, 2, 3, 4, 5,
   4, 5, 6, 7, 8, 9,
   8, 9, 10, 11, 12, 13,
   12, 13, 14, 15, 16, 17,
   16, 17, 18, 19, 20, 21,
   20, 21, 22, 23, 24, 25,
   24, 25, 26, 27, 28, 29,
   28, 29, 30, 31, 32, 1]

/-- `P` (R152). -/
def tableP : List Nat :=
  [16, 7, 20, 21, 29, 12, 28, 17,
   1, 15, 23, 26, 5, 18, 31, 10,
   2, 8, 24, 14, 32, 27, 3, 9,
   19, 13, 30, 6, 22, 11, 4, 25]

/-- `PC1` (R153). It selects no bit whose number is a multiple of 8. -/
def tablePC1 : List Nat :=
  [57, 49, 41, 33, 25, 17, 9,
   1, 58, 50, 42, 34, 26, 18,
   10, 2, 59, 51, 43, 35, 27,
   19, 11, 3, 60, 52, 44, 36,
   63, 55, 47, 39, 31, 23, 15,
   7, 62, 54, 46, 38, 30, 22,
   14, 6, 61, 53, 45, 37, 29,
   21, 13, 5, 28, 20, 12, 4]

/-- `PC2` (R153). -/
def tablePC2 : List Nat :=
  [14, 17, 11, 24, 1, 5,
   3, 28, 15, 6, 21, 10,
   23, 19, 12, 4, 26, 8,
   16, 7, 27, 20, 13, 2,
   41, 52, 31, 37, 47, 55,
   30, 40, 51, 45, 33, 48,
   44, 49, 39, 56, 34, 53,
   46, 42, 50, 36, 29, 32]

/-- `SHIFTS[1..16]` (R154). -/
def desShifts : List Nat := [1, 1, 2, 2, 2, 2, 2, 2, 1, 2, 2, 2, 2, 2, 2, 1]

/-- `S1` to `S8` (R155), each as its four rows. -/
def desBoxes : List (List (List Nat)) := [
  [[14, 4, 13, 1, 2, 15, 11, 8, 3, 10, 6, 12, 5, 9, 0, 7],
   [0, 15, 7, 4, 14, 2, 13, 1, 10, 6, 12, 11, 9, 5, 3, 8],
   [4, 1, 14, 8, 13, 6, 2, 11, 15, 12, 9, 7, 3, 10, 5, 0],
   [15, 12, 8, 2, 4, 9, 1, 7, 5, 11, 3, 14, 10, 0, 6, 13]],
  [[15, 1, 8, 14, 6, 11, 3, 4, 9, 7, 2, 13, 12, 0, 5, 10],
   [3, 13, 4, 7, 15, 2, 8, 14, 12, 0, 1, 10, 6, 9, 11, 5],
   [0, 14, 7, 11, 10, 4, 13, 1, 5, 8, 12, 6, 9, 3, 2, 15],
   [13, 8, 10, 1, 3, 15, 4, 2, 11, 6, 7, 12, 0, 5, 14, 9]],
  [[10, 0, 9, 14, 6, 3, 15, 5, 1, 13, 12, 7, 11, 4, 2, 8],
   [13, 7, 0, 9, 3, 4, 6, 10, 2, 8, 5, 14, 12, 11, 15, 1],
   [13, 6, 4, 9, 8, 15, 3, 0, 11, 1, 2, 12, 5, 10, 14, 7],
   [1, 10, 13, 0, 6, 9, 8, 7, 4, 15, 14, 3, 11, 5, 2, 12]],
  [[7, 13, 14, 3, 0, 6, 9, 10, 1, 2, 8, 5, 11, 12, 4, 15],
   [13, 8, 11, 5, 6, 15, 0, 3, 4, 7, 2, 12, 1, 10, 14, 9],
   [10, 6, 9, 0, 12, 11, 7, 13, 15, 1, 3, 14, 5, 2, 8, 4],
   [3, 15, 0, 6, 10, 1, 13, 8, 9, 4, 5, 11, 12, 7, 2, 14]]] ++
[
  [[2, 12, 4, 1, 7, 10, 11, 6, 8, 5, 3, 15, 13, 0, 14, 9],
   [14, 11, 2, 12, 4, 7, 13, 1, 5, 0, 15, 10, 3, 9, 8, 6],
   [4, 2, 1, 11, 10, 13, 7, 8, 15, 9, 12, 5, 6, 3, 0, 14],
   [11, 8, 12, 7, 1, 14, 2, 13, 6, 15, 0, 9, 10, 4, 5, 3]],
  [[12, 1, 10, 15, 9, 2, 6, 8, 0, 13, 3, 4, 14, 7, 5, 11],
   [10, 15, 4, 2, 7, 12, 9, 5, 6, 1, 13, 14, 0, 11, 3, 8],
   [9, 14, 15, 5, 2, 8, 12, 3, 7, 0, 4, 10, 1, 13, 11, 6],
   [4, 3, 2, 12, 9, 5, 15, 10, 11, 14, 1, 7, 6, 0, 8, 13]],
  [[4, 11, 2, 14, 15, 0, 8, 13, 3, 12, 9, 7, 5, 10, 6, 1],
   [13, 0, 11, 7, 4, 9, 1, 10, 14, 3, 5, 12, 2, 15, 8, 6],
   [1, 4, 11, 13, 12, 3, 7, 14, 10, 15, 6, 8, 0, 5, 9, 2],
   [6, 11, 13, 8, 1, 4, 10, 7, 9, 5, 0, 15, 14, 2, 3, 12]],
  [[13, 2, 8, 4, 6, 15, 11, 1, 10, 9, 3, 14, 5, 0, 12, 7],
   [1, 15, 13, 8, 10, 3, 7, 4, 12, 5, 6, 11, 0, 14, 9, 2],
   [7, 11, 4, 1, 9, 12, 14, 2, 0, 6, 10, 13, 15, 3, 5, 8],
   [2, 1, 14, 7, 4, 10, 8, 13, 15, 12, 9, 0, 3, 5, 6, 11]]]

/-- The 64 bits of 8 bytes (R150). -/
def bitsOfBytes (b : Bytes) : BitVec 64 := BitVec.ofNat 64 (os2ip b)

/-- The 8 bytes of 64 bits (R150). -/
def bytesOfBits (x : BitVec 64) : Bytes := i2osp x.toNat 8

/-- The loop of `DES_SUBKEYS` (R154) over the remaining shifts. -/
def subkeyLoop : List Nat → BitVec 28 → BitVec 28 → List (BitVec 48)
  | [], _, _ => []
  | s :: rest, c, d =>
    permute 48 tablePC2 (c.rotateLeft s ++ d.rotateLeft s) :: subkeyLoop rest (c.rotateLeft s) (d.rotateLeft s)

/-- `DES_SUBKEYS(k)` (R154). -/
def desSubkeys (k : Bytes) : List (BitVec 48) :=
  let cd : BitVec 56 := permute 56 tablePC1 (bitsOfBytes k)
  subkeyLoop desShifts (cd.extractLsb' 28 28) (cd.extractLsb' 0 28)

/-- `S_j[row][col]` (R155), `j` from 0. -/
def boxEntry (j row col : Nat) : BitVec 4 := BitVec.ofNat 4 (((desBoxes.getD j []).getD row []).getD col 0)

/-- `y_j` of R156 from `x`, `j` from 0. -/
def boxOutput (x : BitVec 48) (j : Nat) : BitVec 4 :=
  let b (i : Nat) : Nat := (bitAt x (6 * j + i)).toNat
  boxEntry j (2 * b 1 + b 6) (8 * b 2 + 4 * b 3 + 2 * b 4 + b 5)

/-- The round function `f(R, K)` (R156). -/
def desRound (r : BitVec 32) (k : BitVec 48) : BitVec 32 :=
  let x : BitVec 48 := permute 48 tableE r ^^^ k
  permute 32 tableP
    (boxOutput x 0 ++ boxOutput x 1 ++ boxOutput x 2 ++ boxOutput x 3 ++
      boxOutput x 4 ++ boxOutput x 5 ++ boxOutput x 6 ++ boxOutput x 7)

/-- The rounds of `DES_CORE` (R157): from `(L_0, R_0)` to `(L_16, R_16)`. -/
def desRounds : List (BitVec 48) → BitVec 32 × BitVec 32 → BitVec 32 × BitVec 32
  | [], lr => lr
  | k :: ks, (l, r) => desRounds ks (r, l ^^^ desRound r k)

/-- `DES_CORE(keys, x)` (R157), on 64 bits: the halves are swapped before `FP`. -/
def desCore (keys : List (BitVec 48)) (x : BitVec 64) : BitVec 64 :=
  let lr : BitVec 64 := permute 64 tableIP x
  let out := desRounds keys (lr.extractLsb' 32 32, lr.extractLsb' 0 32)
  permute 64 tableFP (out.2 ++ out.1)

/-- `DES_ENC(k, x)` (R158). -/
def desEnc (k x : Bytes) : Bytes := bytesOfBits (desCore (desSubkeys k) (bitsOfBytes x))

/-- `DES_DEC(k, y)` (R159): the round keys in reverse order. -/
def desDec (k y : Bytes) : Bytes := bytesOfBits (desCore (desSubkeys k).reverse (bitsOfBytes y))

end Sys2Proof.Machine
end

