-- ==== Sys2Proof/Machine/KeyMaterial.lean ====
section
/-! DEFINITION. The RSA keypair (44_public_key.md R170, R171) and modular exponentiation (R174, R175). -/

namespace Sys2Proof.Machine

/-- `ValidRsaKey(n, e, d, k)` (R170), clauses (a) to (d) in order. -/
def ValidRsaKey (n e d k : Nat) : Prop :=
  ∃ p q : Nat,
    (Nat.Prime p ∧ Nat.Prime q ∧ p ≠ q ∧ p % 2 = 1 ∧ q % 2 = 1 ∧ n = p * q) ∧
    (2 ^ (8 * k - 1) ≤ n ∧ n < 2 ^ (8 * k)) ∧
    (e % 2 = 1 ∧ 3 ≤ e ∧ e < n ∧ Nat.gcd e (Nat.lcm (p - 1) (q - 1)) = 1) ∧
    (0 < d ∧ d < n ∧ e * d % Nat.lcm (p - 1) (q - 1) = 1)

/-- The width conditions of R170, (b) and the bounds of (d): what the `8*RSA_K`-bit registers show of a valid pair. -/
def keyDrawFits (n d k : Nat) : Bool :=
  decide (2 ^ (8 * k - 1) ≤ n) && decide (n < 2 ^ (8 * k)) && decide (0 < d) && decide (d < n)

/-- Square and multiply over the binary digits of `e`, least significant first; `fuel` bounds their number. -/
def modPowLoop (n : Nat) : (fuel base e acc : Nat) → Nat
  | 0, _, _, acc => acc
  | fuel + 1, base, e, acc =>
    if e = 0 then acc
    else modPowLoop n fuel (base * base % n) (e / 2) (if e % 2 = 1 then acc * base % n else acc)

/-- `b^e mod n` (R11). R175: only the number is specified, any method may be used; that this is the number is
`modPow_eq_pow_mod`. -/
def modPow (b e n : Nat) : Nat := modPowLoop n (Nat.log2 e + 1) (b % n) e (1 % n)

end Sys2Proof.Machine
end

