-- ==== Sys2Proof/Machine/KeyWitness.lean ====
section
/-! DEFINITION. A keypair that satisfies `ValidRsaKey` for the default parameters, with its proof: what shows that the
type of drawn keypairs has an element. It is no keypair of the device. -/

namespace Sys2Proof.Machine

theorem modPowLoop_eq (n fuel base e acc : Nat) (h : e < 2 ^ fuel) :
    modPowLoop n fuel base e acc % n = acc * base ^ e % n := by
  induction fuel generalizing base e acc with
  | zero => have : e = 0 := by simpa using h
            subst this; simp [modPowLoop]
  | succ f ih =>
    unfold modPowLoop
    split
    · next h0 => subst h0; simp
    · have he : e / 2 < 2 ^ f := by omega
      rw [ih _ _ _ he]
      have key : acc * base ^ e =
          (if e % 2 = 1 then acc * base else acc) * (base * base) ^ (e / 2) := by
        conv_lhs => rw [← Nat.div_add_mod e 2, pow_add, pow_mul, pow_two]
        split <;> rename_i h2
        · rw [h2]; ring
        · have : e % 2 = 0 := by omega
          rw [this]; ring
      rw [key]
      apply Nat.ModEq.mul
      · split
        · exact Nat.mod_modEq _ _
        · exact Nat.ModEq.rfl
      · exact (Nat.mod_modEq _ _).pow _

theorem modPowLoop_lt (n fuel base e acc : Nat) (h : acc < n) : modPowLoop n fuel base e acc < n := by
  induction fuel generalizing base e acc with
  | zero => simpa [modPowLoop]
  | succ f ih =>
    unfold modPowLoop
    split
    · exact h
    · apply ih
      split
      · exact Nat.mod_lt _ (by omega)
      · exact h

theorem modPow_eq_pow_mod (b e n : Nat) (hn : 1 < n) : modPow b e n = b ^ e % n := by
  have he : e < 2 ^ (Nat.log2 e + 1) := Nat.lt_log2_self
  have h := modPowLoop_eq n _ (b % n) e (1 % n) he
  rw [Nat.mod_eq_of_lt (modPowLoop_lt n _ _ _ _ (Nat.mod_lt _ (by omega)))] at h
  rw [modPow, h, Nat.mod_eq_of_lt hn, one_mul, ← Nat.pow_mod]

theorem zmod_pow_eq_one_iff (p a e : Nat) (hp : 1 < p) : (a : ZMod p) ^ e = 1 ↔ modPow a e p = 1 := by
  rw [modPow_eq_pow_mod a e p hp, ← Nat.cast_pow, ← Nat.cast_one, ZMod.natCast_eq_natCast_iff, Nat.ModEq,
    Nat.mod_eq_of_lt hp]

/-- Lucas: `p` is prime when some `a` has order `p - 1` modulo `p`. -/
theorem prime_of_lucas (p a : Nat) (hp : 1 < p) (h1 : modPow a (p - 1) p = 1)
    (h2 : ∀ q, Nat.Prime q → q ∣ p - 1 → modPow a ((p - 1) / q) p ≠ 1) : Nat.Prime p :=
  lucas_primality p (a : ZMod p) ((zmod_pow_eq_one_iff p a _ hp).2 h1) fun q hq hd he =>
    h2 q hq hd ((zmod_pow_eq_one_iff p a _ hp).1 he)

/-- The prime divisors of `r * s * 2^m` for primes `r` and `s`. -/
theorem prime_dvd_cases (q r s m : Nat) (hr : Nat.Prime r) (hs : Nat.Prime s) (hq : Nat.Prime q)
    (h : q ∣ r * s * 2 ^ m) : q = r ∨ q = s ∨ q = 2 := by
  rcases hq.dvd_mul.1 h with h | h
  · rcases hq.dvd_mul.1 h with h | h
    · exact .inl ((Nat.prime_dvd_prime_iff_eq hq hr).1 h)
    · exact .inr (.inl ((Nat.prime_dvd_prime_iff_eq hq hs).1 h))
  · exact .inr (.inr ((Nat.prime_dvd_prime_iff_eq hq Nat.prime_two).1 (hq.dvd_of_dvd_pow h)))

/-- The witness's first prime. -/
def witnessP : Nat := 17 * 3833 * 2 ^ 1008 + 1

/-- The witness's second prime. -/
def witnessQ : Nat := 11 * 5861 * 2 ^ 1008 + 1

theorem witnessP_sub_one : witnessP - 1 = 17 * 3833 * 2 ^ 1008 := by decide +kernel

theorem witnessP_prime : Nat.Prime witnessP := by
  refine prime_of_lucas witnessP 3 (by decide +kernel) (by decide +kernel) fun q hq hd => ?_
  have hd' : q ∣ 17 * 3833 * 2 ^ 1008 := witnessP_sub_one ▸ hd
  rcases prime_dvd_cases q 17 3833 1008 (by norm_num) (by norm_num) hq hd' with rfl | rfl | rfl <;> decide +kernel

theorem witnessQ_sub_one : witnessQ - 1 = 11 * 5861 * 2 ^ 1008 := by decide +kernel

theorem witnessQ_prime : Nat.Prime witnessQ := by
  refine prime_of_lucas witnessQ 3 (by decide +kernel) (by decide +kernel) fun q hq hd => ?_
  have hd' : q ∣ 11 * 5861 * 2 ^ 1008 := witnessQ_sub_one ▸ hd
  rcases prime_dvd_cases q 11 5861 1008 (by norm_num) (by norm_num) hq hd' with rfl | rfl | rfl <;> decide +kernel

/-- The witness's modulus. -/
def witnessN : Nat := witnessP * witnessQ

/-- The witness's private exponent. -/
def witnessD : Nat := 0x76bc94ea0000ffff0000ffff0000ffff0000ffff0000ffff0000ffff0000ffff0000ffff0000ffff0000ffff0000ffff0000ffff0000ffff0000ffff0000ffff0000ffff0000ffff0000ffff0000ffff0000ffff0000ffff0000ffff0000ffff0000ffff0000ffff0000ffff0000ffff0000ffff0000ffff0000ffff0000ffff0001

theorem witness_valid : ValidRsaKey witnessN 65537 witnessD 256 := by
  refine ⟨witnessP, witnessQ, ⟨witnessP_prime, witnessQ_prime, ?_, ?_, ?_, rfl⟩, ⟨?_, ?_⟩, ⟨?_, ?_, ?_, ?_⟩, ?_, ?_, ?_⟩ <;>
    decide +kernel

end Sys2Proof.Machine
end

