-- ==== Sys2Proof/Syntax.lean ====
section
/-! DEFINITION. The syntax of the hardware: the command set (30_encoding.md R74, R75), the fields of a command
byte (R70 to R72) and the steps a HOST program is made of (10_state.md R35, 30_encoding.md R78). -/

namespace Sys2Proof

/-- `KIND`, bit 3 of a command byte (R70): a bytes (file) operation or a text operation. -/
inductive Kind where
  | bytes
  | text
deriving DecidableEq, Repr

/-- `DIR`, bit 2 of a command byte (R70). -/
inductive Dir where
  | encrypt
  | decrypt
deriving DecidableEq, Repr

/-- `ALG`, bits 1:0 of a command byte (R70, R72); `other` is the unrecognised selector `11`. -/
inductive Alg where
  | aes
  | des
  | rsa
  | other
deriving DecidableEq, Repr

/-- The two instances of the block cipher engine (41_block_cipher.md R97). -/
inductive BlockAlg where
  | aes
  | des
deriving DecidableEq, Repr

/-- One constructor per row of spec/opcode_table.json. `unsup` and the four `rsvd` rows stand for more than one
command byte and carry the byte as issued, as their syntax does (R78); which bytes they may carry is
`Instr.wf`. -/
inductive Instr where
  | encbAes
  | encbDes
  | encbRsa
  | decbAes
  | decbDes
  | decbRsa
  | enctAes
  | enctDes
  | enctRsa
  | dectAes
  | dectDes
  | dectRsa
  | unsup (cmd : Byte)
  | rsvd7 (cmd : Byte)
  | rsvd6 (cmd : Byte)
  | rsvd5 (cmd : Byte)
  | rsvd4 (cmd : Byte)
deriving DecidableEq, Repr

/-- A keypair ENTROPY can answer at a reset (70_reset_and_hazards.md R290): `(n, d)` with the exponent `e` and the
modulus length `k` it is valid for. No other pair is a value of this type (log 6). -/
structure RsaKey where
  n : Nat
  e : Nat
  d : Nat
  k : Nat
  valid : Machine.ValidRsaKey n e d k
deriving DecidableEq, Repr

/-- One step of the world outside the ENGINE. A program of the spec is a list of these (R78). -/
inductive HostStep where
  /-- `HostWriteIn(b)` of R35. -/
  | writeIn (b : Bytes)
  /-- `IN <- OUT` of R78: a `HostWriteIn` of the bytes a `HostReadOut` returned. -/
  | writeInFromOut
  /-- `HostIssue(c)` of R35: the write of `CMD`. -/
  | issue (c : Byte)
  /-- `HostReadOut()` of R35. -/
  | readOut
  /-- A HOST read of the `n` bytes of `OUT` from index `a` (20_memory.md R56, 10_state.md R32; `n = 0`: log 23). -/
  | readOutAt (a n : Nat)
  /-- `HostReadIn()` of R35. -/
  | readIn
  /-- A HOST read of the `n` bytes of `IN` from index `a` (R56, R12; `n = 0`: log 23). -/
  | readInAt (a n : Nat)
  /-- `HostReadStatus()` of R35. -/
  | readStatus
  /-- A HOST read of `IN_LEN` (R21, R56). -/
  | readInLen
  /-- A HOST read of `OUT_LEN` (R21, R56). -/
  | readOutLen
  /-- `Reset` (70_reset_and_hazards.md R290), asserted by the platform, with the keypair that ENTROPY
  answers. -/
  | reset (key : RsaKey)
deriving DecidableEq, Repr

/-- What a HOST read returned (R35, R56). -/
inductive Reply where
  | outBytes (b : Bytes)
  | inBytes (b : Bytes)
  | status (v : BitVec 16)
  | inLen (v : Nat)
  | outLen (v : Nat)
deriving DecidableEq, Repr

end Sys2Proof
end

