-- ==== Sys2Proof/Config.lean ====
section
/-! DEFINITION. The parameters of the hardware (00_scope.md R8, R10), the values this instance is built with, and the
free values: what ENTROPY answers when no answer is given in the state. -/

namespace Sys2Proof

/-- The OAEP hash `H` with its `HLEN` (R8, 45_sha1_mgf1.md R206): the default SHA-1, or another hash of
`hLen` bytes, of which the spec gives no definition. -/
inductive HashAlg where
  | sha1
  | other (hLen : Nat)
deriving DecidableEq, Repr

/-- `HLEN` (R8). -/
def HashAlg.hLen : HashAlg → Nat
  | .sha1 => 20
  | .other n => n

/-- The named parameters of R8. `HLEN` is `hash.hLen`. -/
structure Config where
  kAes : BitVec 128
  kDes : BitVec 64
  rsaK : Nat
  rsaE : Nat
  hash : HashAlg
  bufCap : Nat
  lenW : Nat
deriving DecidableEq, Repr

/-- `RSA_MAX = RSA_K - 2*HLEN - 2` (R9). -/
def Config.rsaMax (c : Config) : Nat := c.rsaK - 2 * c.hash.hLen - 2

/-- A configuration of this hardware (R10). That `HLEN` is positive is DEDUCED from R205, which divides by it
(log 12); that `RSA_E` fits its register from R21. -/
abbrev Config.Valid (c : Config) : Prop :=
  2 * c.hash.hLen + 2 ≤ c.rsaK ∧
  c.bufCap < 2 ^ c.lenW ∧
  4 * ((c.rsaK + 2) / 3) ≤ c.bufCap ∧
  0 < c.hash.hLen ∧
  c.rsaE < 2 ^ (8 * c.rsaK)

/-- ENTROPY's `i`-th byte where the state holds no answer for it (00_scope.md R14: any value). -/
opaque Config.freeByte : Nat → Byte

/-- The value of a hash of `hLen` bytes that the spec does not define (R206). -/
opaque Config.otherHash : (hLen : Nat) → Bytes → BitVec (8 * hLen)

/-- `K_AES` of this instance (R8: OPEN, no default). -/
opaque Config.openKAes : BitVec 128

/-- `K_DES` of this instance (R8: OPEN, no default). -/
opaque Config.openKDes : BitVec 64

/-- What fixes `BUF_CAP` of this instance (R8: OPEN). -/
opaque Config.openCapacity : Nat

/-- The parameters of the instance that `State.reset` is the reset of: the spec's defaults where R8 gives one, open
values elsewhere. `BUF_CAP` runs over exactly the capacities R10 allows, from `4*ceil(256/3) = 344` to `2^32 - 1`. -/
def Config.device : Config where
  kAes := Config.openKAes
  kDes := Config.openKDes
  rsaK := 256
  rsaE := 65537
  hash := .sha1
  bufCap := Config.openCapacity % 4294966952 + 344
  lenW := 32

/-- A keypair drawn at reset for the device's parameters: any pair that satisfies `ValidRsaKey` (10_state.md R24,
R45). The defaults of its fields only show that such a pair exists; nothing reads them. -/
structure DrawnKey where
  n : Nat := Machine.witnessN
  d : Nat := Machine.witnessD
  valid : Machine.ValidRsaKey n 65537 d 256 := by exact Sys2Proof.Machine.witness_valid
deriving Inhabited

/-- The pair ENTROPY answers at the reset `State.reset` is (R24: a fresh draw, any value that is valid). -/
opaque Config.bootKey : DrawnKey

end Sys2Proof
end

