-- ==== Sys2Proof/WellFormed.lean ====
section
/-! DEFINITION. Which instruction terms, HOST steps and programs are well formed (30_encoding.md R75, R78; 10_state.md
R35; 70_reset_and_hazards.md R290). -/

namespace Sys2Proof

/-- A command byte matches a row of spec/opcode_table.json. -/
def matchesRow (mask pattern : Byte) (c : Byte) : Bool := c &&& mask == pattern

/-- The mask of an instruction's row of spec/opcode_table.json. -/
def Instr.rowMask : Instr → Byte
  | .unsup _ => 0xF3#8
  | .rsvd7 _ => 0x80#8
  | .rsvd6 _ => 0xC0#8
  | .rsvd5 _ => 0xE0#8
  | .rsvd4 _ => 0xF0#8
  | .encbAes | .encbDes | .encbRsa | .decbAes | .decbDes | .decbRsa
  | .enctAes | .enctDes | .enctRsa | .dectAes | .dectDes | .dectRsa => 0xFF#8

/-- The match of an instruction's row of spec/opcode_table.json. -/
def Instr.rowMatch : Instr → Byte
  | .encbAes => 0x00#8
  | .encbDes => 0x01#8
  | .encbRsa => 0x02#8
  | .decbAes => 0x04#8
  | .decbDes => 0x05#8
  | .decbRsa => 0x06#8
  | .enctAes => 0x08#8
  | .enctDes => 0x09#8
  | .enctRsa => 0x0A#8
  | .dectAes => 0x0C#8
  | .dectDes => 0x0D#8
  | .dectRsa => 0x0E#8
  | .unsup _ => 0x03#8
  | .rsvd7 _ => 0x80#8
  | .rsvd6 _ => 0x40#8
  | .rsvd5 _ => 0x20#8
  | .rsvd4 _ => 0x10#8

/-- An instruction carries a command byte its row matches (R75); only the rows that stand for more than one byte carry
one. -/
def Instr.wf : Instr → Bool
  | .unsup c => matchesRow (Instr.unsup c).rowMask (Instr.unsup c).rowMatch c
  | .rsvd7 c => matchesRow (Instr.rsvd7 c).rowMask (Instr.rsvd7 c).rowMatch c
  | .rsvd6 c => matchesRow (Instr.rsvd6 c).rowMask (Instr.rsvd6 c).rowMatch c
  | .rsvd5 c => matchesRow (Instr.rsvd5 c).rowMask (Instr.rsvd5 c).rowMatch c
  | .rsvd4 c => matchesRow (Instr.rsvd4 c).rowMask (Instr.rsvd4 c).rowMatch c
  | .encbAes | .encbDes | .encbRsa | .decbAes | .decbDes | .decbRsa
  | .enctAes | .enctDes | .enctRsa | .dectAes | .dectDes | .dectRsa => true

/-- A HOST step the hardware can be asked for whatever its state: an input that fits `IN` (R35), a keypair for the
parameters of this hardware (R290). -/
def HostStep.wf (cfg : Config) : HostStep → Bool
  | .writeIn b => decide (b.length ≤ cfg.bufCap)
  | .reset key => decide (key.e = cfg.rsaE ∧ key.k = cfg.rsaK)
  | .writeInFromOut | .issue _ | .readOut | .readOutAt _ _ | .readIn | .readInAt _ _
  | .readStatus | .readInLen | .readOutLen => true

/-- A program of R78: a list of well-formed HOST steps. -/
def programWf (cfg : Config) (p : List HostStep) : Bool := p.all (HostStep.wf cfg)

end Sys2Proof
end

