-- ==== Sys2Proof/Decode.lean ====
section
/-! DEFINITION. Decoding a command byte (30_encoding.md R70, R75), total on the 256 bytes, and the encoder, written
from the field layout of R70 and the opcode map of R74. -/

namespace Sys2Proof

/-- Field `RSV`, bits 7:4 (R70). -/
def fieldRsv (c : Byte) : BitVec 4 := c.extractLsb' 4 4

/-- Field `KIND`, bit 3 (R70, R71). -/
def fieldKind (c : Byte) : Kind := if c.getLsbD 3 then .text else .bytes

/-- Field `DIR`, bit 2 (R70, R71). -/
def fieldDir (c : Byte) : Dir := if c.getLsbD 2 then .decrypt else .encrypt

/-- Field `ALG`, bits 1:0 (R70, R72). -/
def fieldAlg (c : Byte) : Alg :=
  if c.extractLsb' 0 2 = 0#2 then .aes
  else if c.extractLsb' 0 2 = 1#2 then .des
  else if c.extractLsb' 0 2 = 2#2 then .rsa
  else .other

/-- `RSVD` split into the four rows of the table by the highest set bit of `RSV` (R75, R76). -/
def decodeReserved (c : Byte) : Instr :=
  if c.getLsbD 7 then .rsvd7 c
  else if c.getLsbD 6 then .rsvd6 c
  else if c.getLsbD 5 then .rsvd5 c
  else .rsvd4 c

/-- The twelve named commands and `UNSUP` (R74). -/
def decodeDefined (c : Byte) : Instr :=
  match fieldKind c, fieldDir c, fieldAlg c with
  | _, _, .other => .unsup c
  | .bytes, .encrypt, .aes => .encbAes
  | .bytes, .encrypt, .des => .encbDes
  | .bytes, .encrypt, .rsa => .encbRsa
  | .bytes, .decrypt, .aes => .decbAes
  | .bytes, .decrypt, .des => .decbDes
  | .bytes, .decrypt, .rsa => .decbRsa
  | .text, .encrypt, .aes => .enctAes
  | .text, .encrypt, .des => .enctDes
  | .text, .encrypt, .rsa => .enctRsa
  | .text, .decrypt, .aes => .dectAes
  | .text, .decrypt, .des => .dectDes
  | .text, .decrypt, .rsa => .dectRsa

/-- `DecodeCmd(c)` (R75). -/
def decodeCmd (c : Byte) : Instr := if fieldRsv c ≠ 0#4 then decodeReserved c else decodeDefined c

/-- Why a byte string holds no command. -/
inductive DecodeError where
  /-- There is no byte to decode: a command is exactly one byte (R77). -/
  | noCommandByte
deriving DecidableEq, Repr

/-- The command at the head of a byte string and the bytes after it (R77: one byte each, no prefix). -/
def decode : Bytes → Except DecodeError (Instr × Bytes)
  | [] => .error .noCommandByte
  | c :: rest => .ok (decodeCmd c, rest)

/-- The host's view of the decoder: the instruction whose bits, numbered as spec/opcode_table.json numbers them, are
`w`. A command has 8 bits, so a number that does not fit them is no command. -/
def decodeTableWord (nbits w : Nat) : Option Instr :=
  if nbits ≤ 8 ∧ w < 256 then some (decodeCmd (BitVec.ofNat 8 w)) else none

/-- The bit of `KIND` (R70). -/
def kindBit : Kind → BitVec 1
  | .bytes => 0#1
  | .text => 1#1

/-- The bit of `DIR` (R70). -/
def dirBit : Dir → BitVec 1
  | .encrypt => 0#1
  | .decrypt => 1#1

/-- The bits of `ALG` (R70). -/
def algBits : Alg → BitVec 2
  | .aes => 0b00#2
  | .des => 0b01#2
  | .rsa => 0b10#2
  | .other => 0b11#2

/-- Format `C8` (R70) with `RSV = 0000`. -/
def commandByte (k : Kind) (d : Dir) (a : Alg) : Byte := 0#4 ++ kindBit k ++ dirBit d ++ algBits a

/-- The command byte of an instruction (R74; R78 for the rows that carry their byte). -/
def encodeCmd : Instr → Byte
  | .encbAes => commandByte .bytes .encrypt .aes
  | .encbDes => commandByte .bytes .encrypt .des
  | .encbRsa => commandByte .bytes .encrypt .rsa
  | .decbAes => commandByte .bytes .decrypt .aes
  | .decbDes => commandByte .bytes .decrypt .des
  | .decbRsa => commandByte .bytes .decrypt .rsa
  | .enctAes => commandByte .text .encrypt .aes
  | .enctDes => commandByte .text .encrypt .des
  | .enctRsa => commandByte .text .encrypt .rsa
  | .dectAes => commandByte .text .decrypt .aes
  | .dectDes => commandByte .text .decrypt .des
  | .dectRsa => commandByte .text .decrypt .rsa
  | .unsup c => c
  | .rsvd7 c => c
  | .rsvd6 c => c
  | .rsvd5 c => c
  | .rsvd4 c => c

/-- The words of an instruction: one byte (R77). -/
def encode (i : Instr) : Bytes := [encodeCmd i]

end Sys2Proof
end

