-- ==== Sys2Proof/Machine/Flags.lean ====
section
/-! DEFINITION. The status register: the six errors with their codes and classes (10_state.md R29, 60_exceptions.md
R260), the layout of `STATUS` and its fields (R28). -/

namespace Sys2Proof.Machine

/-- The six errors (60_exceptions.md R260). -/
inductive EngineError where
  | unsupportedAlgorithm
  | payloadTooLarge
  | invalidEnvelope
  | padding
  | format
  | decryption
deriving DecidableEq, Repr

/-- `ERR` of an error (R29). -/
def errCode : EngineError → BitVec 3
  | .unsupportedAlgorithm => 1#3
  | .payloadTooLarge => 2#3
  | .invalidEnvelope => 3#3
  | .padding => 4#3
  | .format => 5#3
  | .decryption => 6#3

/-- `CLASS` of an error (R29, 60_exceptions.md R262). -/
def errClass : EngineError → BitVec 1
  | .unsupportedAlgorithm => 0#1
  | .payloadTooLarge => 0#1
  | .invalidEnvelope => 0#1
  | .padding => 1#1
  | .format => 0#1
  | .decryption => 1#1

/-- `STATUS` with its four fields (R28). -/
def statusWord (ctx : Byte) (cls : BitVec 1) (err : BitVec 3) : BitVec 16 := ctx ++ 0#4 ++ cls ++ err

/-- `STATUS` after a command that succeeded (60_exceptions.md R266). -/
def statusSuccess (ctx : Byte) : BitVec 16 := statusWord ctx 0#1 0#3

/-- `STATUS` after a command that failed with `e` (60_exceptions.md R266). -/
def statusFailure (ctx : Byte) (e : EngineError) : BitVec 16 := statusWord ctx (errClass e) (errCode e)

/-- Field `ERR`, bits 2:0 (R28). -/
def statusErr (w : BitVec 16) : BitVec 3 := w.extractLsb' 0 3

/-- Field `CLASS`, bit 3 (R28). -/
def statusClass (w : BitVec 16) : BitVec 1 := w.extractLsb' 3 1

/-- The reserved bits 7:4 (R28). -/
def statusReserved (w : BitVec 16) : BitVec 4 := w.extractLsb' 4 4

/-- Field `CTX`, bits 15:8 (R28). -/
def statusCtx (w : BitVec 16) : Byte := w.extractLsb' 8 8

/-- `CLASS` as a function of `ERR` (R28, R29). -/
def classOfErr (err : BitVec 3) : BitVec 1 := if err = 4#3 ∨ err = 6#3 then 1#1 else 0#1

/-- A value `STATUS` may hold (R28, R29): reserved bits 0, `ERR` not 7, `CLASS` the one of `ERR`. -/
def statusLegal (w : BitVec 16) : Bool :=
  statusReserved w == 0#4 && statusErr w != 7#3 && statusClass w == classOfErr (statusErr w)

end Sys2Proof.Machine
end

