-- ==== Sys2Proof/Machine/State.lean ====
section
/-! DEFINITION. The state of the machine (10_state.md R21), the reasons a step stops, and the state after reset
(R45, 70_reset_and_hazards.md R290). -/

namespace Sys2Proof.Machine

/-- A byte-addressed space as its bytes that hold a value, addresses strictly rising (`Memory.wf`). An address that is
not listed holds no value (10_state.md R32; log 7). -/
abbrev Memory := List Host.Cell

/-- The whole state. The fields from `kAes` to `status` are the table of R21. `cfg` holds the parameters of the step
relation (R34), which no step changes (log 3). The four last are the agents around the ENGINE: what ENTROPY has
answered in advance, how many bytes it has given, what HOST and platform are about to do, and what HOST reads
returned (logs 1, 2, 9). -/
structure State where
  cfg : Config
  kAes : BitVec 128
  kDes : BitVec 64
  rsaN : Nat
  rsaE : Nat
  rsaD : Nat
  cmd : Byte
  inLen : Nat
  inBuf : Memory
  outLen : Nat
  outBuf : Memory
  status : BitVec 16
  entropy : Bytes
  drawn : Nat
  host : List HostStep
  replies : List Reply
deriving DecidableEq, Repr

/-- The reasons a step ends in a fault. The hardware has none (00_scope.md R17): no state that `Inv` admits meets one. -/
inductive Fault where
  /-- Raised by a command that reads `IN` and by a HOST read of `IN`, where some index below `IN_LEN` holds no byte:
  `MemRead` is not defined there (R12). Safe: no run from reset reaches such a state. -/
  | inputNotValid
  /-- Raised by a HOST read of `OUT` where some index below `OUT_LEN` holds no byte. Safe, as above. -/
  | outputNotValid
deriving DecidableEq, Repr

/-- The requests the hardware gives no meaning to (00_scope.md R17). -/
inductive Refusal where
  /-- Raised by an arm of `exec` whose instruction has no meaning yet. Safe. No arm does. -/
  | notModelled (mnemonic : String)
  /-- Raised by `HostWriteIn(b)` with `len(b) > BUF_CAP` (10_state.md R35). Safe: the spec refuses it. -/
  | inputTooLong
  /-- Raised by a command whose output could exceed `BUF_CAP` (20_memory.md R58). Safe: the spec refuses it. -/
  | outputTooLong
  /-- Raised by a HOST read of `OUT` at or beyond `OUT_LEN` (10_state.md R32). Safe: the spec refuses it. -/
  | readBeyondOutput
  /-- Raised by a HOST read of `IN` at or beyond `IN_LEN`, where `MemRead` is not defined (00_scope.md R12). Safe. -/
  | readBeyondInput
  /-- Raised by a `Reset` whose keypair is valid for another exponent or modulus length than `RSA_E` and `RSA_K`: no
  such draw exists (70_reset_and_hazards.md R290). Safe. -/
  | keyOfOtherParameters
deriving DecidableEq, Repr

/-- The state `Reset` leaves (R45, R290), for parameters `cfg` and the drawn pair `(n, d)`, with no HOST step pending
and no ENTROPY answer given in advance (logs 1, 2). -/
def State.powerOn (cfg : Config) (n d : Nat) : State where
  cfg := cfg
  kAes := cfg.kAes
  kDes := cfg.kDes
  rsaN := n
  rsaE := cfg.rsaE
  rsaD := d
  cmd := 0x00#8
  inLen := 0
  inBuf := []
  outLen := 0
  outBuf := []
  status := 0x0000#16
  entropy := []
  drawn := 0
  host := []
  replies := []

/-- The machine right after reset (R45): the device's parameters, any valid keypair. -/
def State.reset : State := State.powerOn Config.device Config.bootKey.n Config.bootKey.d

end Sys2Proof.Machine
end

