-- ==== Sys2Proof/Machine/Ops.lean ====
section
/-! DEFINITION. The named operations over memory and registers: `MemRead`, `MemWrite`, the loading of `IN`, the
replacement of `OUT` (00_scope.md R12), `Draw` (R14), command completion (60_exceptions.md R266) and `Reset`
(70_reset_and_hazards.md R290). -/

namespace Sys2Proof.Machine

/-! ### Memory -/

/-- The canonical form: addresses strictly rising. An unlisted address holds no value, so no entry can equal what it
reads as. -/
def Memory.wf : Memory → Bool
  | [] => true
  | [_] => true
  | c :: c' :: m => decide (c.1 < c'.1) && Memory.wf (c' :: m)

/-- The byte at an address; none where the address holds no value. -/
def Memory.read : Memory → Nat → Option Byte
  | [], _ => none
  | c :: m, a => if c.1 = a then some c.2 else Memory.read m a

/-- The `n` bytes from address `a`, as `MemRead` takes them (R12). -/
def Memory.readBytes (m : Memory) : (a n : Nat) → Option Bytes
  | _, 0 => some []
  | a, n + 1 =>
    match Memory.read m a, Memory.readBytes m (a + 1) n with
    | some b, some bs => some (b :: bs)
    | _, _ => none

/-- The cells of a byte string laid down from address `a`. -/
def Memory.cellsFrom : Nat → Bytes → Memory
  | _, [] => []
  | a, b :: bs => (a, b) :: Memory.cellsFrom (a + 1) bs

/-- The bytes `v` written from address `a`, as `MemWrite` does (R12). -/
def Memory.writeBytes (m : Memory) (a : Nat) (v : Bytes) : Memory :=
  m.filter (fun c => c.1 < a) ++ Memory.cellsFrom a v ++ m.filter (fun c => a + v.length ≤ c.1)

/-- A space that holds exactly the bytes `v`, from index 0. -/
def Memory.ofBytes (v : Bytes) : Memory := Memory.writeBytes [] 0 v

/-! ### Registers and buffers -/

/-- `MemRead(IN, 0, IN_LEN)` (R12, 30_encoding.md R73): the operand of every command that reads one. -/
def State.input (s : State) : Option Bytes := s.inBuf.readBytes 0 s.inLen

/-- `OUT[0..OUT_LEN)` (10_state.md R32). -/
def State.output (s : State) : Option Bytes := s.outBuf.readBytes 0 s.outLen

/-- `IN[0..len(b)) <- b` and `IN_LEN <- len(b)` (10_state.md R35). Bytes of an earlier, longer input are no longer
valid content and are dropped (log 7). -/
def State.loadIn (s : State) (b : Bytes) : State :=
  { s with inBuf := Memory.ofBytes b, inLen := b.length }

/-- `OUT <- v` (R12): `OUT_LEN <- len(v)` and `MemWrite(OUT, 0, len(v), v)` together, the whole of `OUT` replaced
(10_state.md R32). -/
def State.setOut (s : State) (v : Bytes) : State :=
  { s with outBuf := Memory.ofBytes v, outLen := v.length }

/-- The bytes of a register of `n` bytes, byte 0 its most significant (10_state.md R22; log 11). -/
def regBytes {w : Nat} (r : BitVec w) (n : Nat) : Bytes := i2osp r.toNat n

/-- `K(alg)` (41_block_cipher.md R97). -/
def State.blockKey (s : State) : BlockAlg → Bytes
  | .aes => regBytes s.kAes 16
  | .des => regBytes s.kDes 8

/-! ### ENTROPY -/

/-- Byte `i` of what ENTROPY answers next: the answer the state holds, or any value (R14; log 2). -/
def State.entropyByte (s : State) (i : Nat) : Byte := s.entropy.getD i (Config.freeByte (s.drawn + i))

/-- The answer to `Draw(n)` (R14, 10_state.md R40). -/
def State.draw (s : State) (n : Nat) : Bytes := (List.range n).map s.entropyByte

/-- ENTROPY after it has answered `n` bytes. -/
def State.afterDraw (s : State) (n : Nat) : State :=
  { s with entropy := s.entropy.drop n, drawn := s.drawn + n }

/-! ### Command completion and reset -/

/-- Command completion (60_exceptions.md R266): on success the output bytes, on an error the empty output, and
`STATUS` with the command byte as its context. -/
def State.complete (s : State) (ctx : Byte) : Except EngineError Bytes → State
  | .ok v => { s.setOut v with status := statusSuccess ctx }
  | .error e => { s.setOut [] with status := statusFailure ctx e }

/-- `Reset` with the drawn pair `(n, d)` (70_reset_and_hazards.md R290). HOST and ENTROPY are no part of what it
resets (log 6). -/
def State.resetTo (s : State) (n d : Nat) : State :=
  { State.powerOn s.cfg n d with
    entropy := s.entropy, drawn := s.drawn, host := s.host, replies := s.replies }

/-- A HOST read has returned `r` (10_state.md R35). -/
def State.reply (s : State) (r : Reply) : State := { s with replies := s.replies ++ [r] }

end Sys2Proof.Machine
end

