-- ==== Sys2Proof/Machine/Operands.lean ====
section
/-! DEFINITION. The operands of a command (30_encoding.md R73): its input, the admission of its length
(20_memory.md R58), and the frame every command runs in (10_state.md R36). The HOST's own mappings: the selector
string (R72), the calls of the document as programs (R79) and the result record (10_state.md R30). -/

namespace Sys2Proof.Machine

/-- `OutLenMax(c, L)` (20_memory.md R58). -/
def outLenMax (cfg : Config) : Instr → Nat → Nat
  | .encbAes, len => 16 * (len / 16) + 32
  | .encbDes, len => 8 * (len / 8) + 16
  | .enctAes, len => 4 * ceilDiv (16 * (len / 16) + 32) 3
  | .enctDes, len => 4 * ceilDiv (8 * (len / 8) + 16) 3
  | .enctRsa, _ => 4 * ceilDiv cfg.rsaK 3
  | .encbRsa, len => len
  | .decbAes, len => len
  | .decbDes, len => len
  | .decbRsa, len => len
  | .dectAes, len => len
  | .dectDes, len => len
  | .dectRsa, len => len
  | .unsup _, len => len
  | .rsvd7 _, len => len
  | .rsvd6 _, len => len
  | .rsvd5 _, len => len
  | .rsvd4 _, len => len

/-- A command is admitted (R58). -/
def State.admits (s : State) (i : Instr) : Bool := decide (outLenMax s.cfg i s.inLen ≤ s.cfg.bufCap)

/-- What a command computes from its input: how many bytes it draws and its result. -/
structure Computed where
  draws : Nat
  result : Except EngineError Bytes

/-- The ENGINE step of a command that reads `IN` (R36, R266): admission, the whole input, the result, and completion
under the command's own byte. -/
def runCommand (i : Instr) (compute : Bytes → Computed) (s : State) : Host.Outcome State Fault Refusal :=
  if s.admits i then
    match s.input with
    | some b => .next ((s.afterDraw (compute b).draws).complete (encodeCmd i) (compute b).result)
    | none => .fault .inputNotValid
  else .refused .outputTooLong

/-- The ENGINE step of a command outside the capability matrix (47_dispatcher.md R241, R242): no byte of `IN` is read,
nothing is drawn. -/
def rejectCommand (i : Instr) (s : State) : Host.Outcome State Fault Refusal :=
  if s.admits i then .next (s.complete (encodeCmd i) (.error .unsupportedAlgorithm))
  else .refused .outputTooLong

/-! ### The HOST's mappings -/

/-- The selector string as the HOST maps it to `ALG` (30_encoding.md R72): exact and case-sensitive. -/
def algOfName (name : Bytes) : Alg :=
  if name = [0x41#8, 0x45#8, 0x53#8] then .aes
  else if name = [0x44#8, 0x45#8, 0x53#8] then .des
  else if name = [0x52#8, 0x53#8, 0x41#8] then .rsa
  else .other

/-- The expansion of a call of the document (30_encoding.md R79), with the reads that fetch its outcome in the order of
70_reset_and_hazards.md R296. -/
def callProgram (k : Kind) (d : Dir) (payload name : Bytes) : List HostStep :=
  [.writeIn payload, .issue (commandByte k d (algOfName name)), .readStatus, .readOut]

/-- The result record of the text path (10_state.md R30). -/
structure ResultRecord where
  encoded : Option Bytes
  algorithm : Alg
  originalLength : Nat
  encryptedLength : Nat
deriving DecidableEq, Repr

/-- The record as read from the state after a command (R30): a view, no state. R30 gives the two lengths after a
successful command; that the view has the same lengths after a failed command, before any command and once HOST has
written `IN` again is a DESIGN CHOICE (log 22). -/
def State.resultRecord (s : State) : ResultRecord where
  encoded := s.output
  algorithm := fieldAlg (statusCtx s.status)
  originalLength := if fieldDir (statusCtx s.status) = .encrypt then s.inLen else s.outLen
  encryptedLength := if fieldDir (statusCtx s.status) = .encrypt then s.outLen else s.inLen

end Sys2Proof.Machine
end

