-- ==== Sys2Proof/Machine/BlockEngine.lean ====
section
/-! DEFINITION. The padding codec (40_padding.md R91, R93) and the block cipher engine (41_block_cipher.md R97 to
R109): CBC chaining, the envelope, encryption and decryption. -/

namespace Sys2Proof.Machine

/-- `PAD(data, bs)` (R91). -/
def pad (data : Bytes) (bs : Nat) : Bytes :=
  let n := bs - data.length % bs
  data ++ rep (BitVec.ofNat 8 n) n

/-- `UNPAD(p, bs)` (R93, R96). -/
def unpad (p : Bytes) (bs : Nat) : Except EngineError Bytes :=
  match p.getLast? with
  | none => .error .padding
  | some last =>
    let n := last.toNat
    if n < 1 ∨ bs < n then .error .padding
    else if p.length < n then .error .padding
    else if (p.drop (p.length - n)).all (fun x => x == last) then .ok (p.take (p.length - n))
    else .error .padding

/-- `BS(alg)` (00_scope.md R7). -/
def blockSize : BlockAlg → Nat
  | .aes => 16
  | .des => 8

/-- `KS(alg)` (00_scope.md R7). -/
def keySize : BlockAlg → Nat
  | .aes => 16
  | .des => 8

/-- `E(alg)` (R97). -/
def blockEnc : BlockAlg → Bytes → Bytes → Bytes
  | .aes => aes128Enc
  | .des => desEnc

/-- `D(alg)` (R97). -/
def blockDec : BlockAlg → Bytes → Bytes → Bytes
  | .aes => aes128Dec
  | .des => desDec

/-- The blocks `C_1 .. C_m` of R101, from the chaining value and `P_1 .. P_m`. -/
def cbcEncBlocks (enc : Bytes → Bytes) : Bytes → List Bytes → List Bytes
  | _, [] => []
  | prev, p :: ps => enc (xorBytes p prev) :: cbcEncBlocks enc (enc (xorBytes p prev)) ps

/-- The blocks `P_1 .. P_m` of R102, from the chaining value and `C_1 .. C_m`. -/
def cbcDecBlocks (dec : Bytes → Bytes) : Bytes → List Bytes → List Bytes
  | _, [] => []
  | prev, c :: cs => xorBytes (dec c) prev :: cbcDecBlocks dec c cs

/-- `CBC_ENC(alg, k, iv, p)` (R101). -/
def cbcEnc (alg : BlockAlg) (k iv p : Bytes) : Bytes :=
  (cbcEncBlocks (blockEnc alg k) iv (blocks (blockSize alg) p)).flatten

/-- `CBC_DEC(alg, k, iv, c)` (R102). -/
def cbcDec (alg : BlockAlg) (k iv c : Bytes) : Bytes :=
  (cbcDecBlocks (blockDec alg k) iv (blocks (blockSize alg) c)).flatten

/-- `MARSHAL(iv, c)` (R103). -/
def marshal (iv c : Bytes) : Bytes := iv ++ c

/-- `UNMARSHAL(env, bs)` (R108). -/
def unmarshal (env : Bytes) (bs : Nat) : Except EngineError (Bytes × Bytes) :=
  if env.length ≤ bs then .error .invalidEnvelope
  else if env.length % bs ≠ 0 then .error .invalidEnvelope
  else .ok (env.take bs, env.drop bs)

/-- `ENC_BLOCK(alg, data)` (R104) with the IV that `IV_GEN` drew. -/
def encBlock (alg : BlockAlg) (k iv data : Bytes) : Bytes :=
  marshal iv (cbcEnc alg k iv (pad data (blockSize alg)))

/-- `DEC_BLOCK(alg, env)` (R109). -/
def decBlock (alg : BlockAlg) (k env : Bytes) : Except EngineError Bytes :=
  match unmarshal env (blockSize alg) with
  | .error e => .error e
  | .ok (iv, c) => unpad (cbcDec alg k iv c) (blockSize alg)

/-- The result of an engine's encryption on `data`: `IV_GEN` draws one block (R100), and the engine never fails
(R104). -/
def State.encBlock (s : State) (alg : BlockAlg) (data : Bytes) : Bytes :=
  Machine.encBlock alg (s.blockKey alg) (s.draw (blockSize alg)) data

/-- The result of an engine's decryption on `env`; no draw is taken (R109). -/
def State.decBlock (s : State) (alg : BlockAlg) (env : Bytes) : Except EngineError Bytes :=
  Machine.decBlock alg (s.blockKey alg) env

end Sys2Proof.Machine
end

