-- ==== Sys2Proof/Machine/BytesCommands.lean ====
section
/-! DEFINITION. The meanings of the bytes commands of the block ciphers (41_block_cipher.md R113 to R116). -/

namespace Sys2Proof.Machine

/-- `ENCB.AES` (R113). -/
def execEncbAes (s : State) : Host.Outcome State Fault Refusal :=
  runCommand .encbAes (fun b => { draws := 16, result := .ok (s.encBlock .aes b) }) s

/-- `DECB.AES` (R114). -/
def execDecbAes (s : State) : Host.Outcome State Fault Refusal :=
  runCommand .decbAes (fun b => { draws := 0, result := s.decBlock .aes b }) s

/-- `ENCB.DES` (R115). -/
def execEncbDes (s : State) : Host.Outcome State Fault Refusal :=
  runCommand .encbDes (fun b => { draws := 8, result := .ok (s.encBlock .des b) }) s

/-- `DECB.DES` (R116). -/
def execDecbDes (s : State) : Host.Outcome State Fault Refusal :=
  runCommand .decbDes (fun b => { draws := 0, result := s.decBlock .des b }) s

end Sys2Proof.Machine
end

