-- ==== Sys2Proof/Machine/RejectedCommands.lean ====
section
/-! DEFINITION. The meanings of the commands whose defined result is `UnsupportedAlgorithmError` (47_dispatcher.md
R244 to R247). -/

namespace Sys2Proof.Machine

/-- `ENCB.RSA` (R244). -/
def execEncbRsa (s : State) : Host.Outcome State Fault Refusal := rejectCommand .encbRsa s

/-- `DECB.RSA` (R245). -/
def execDecbRsa (s : State) : Host.Outcome State Fault Refusal := rejectCommand .decbRsa s

/-- `UNSUP` (R246). -/
def execUnsup (cmd : Byte) (s : State) : Host.Outcome State Fault Refusal := rejectCommand (.unsup cmd) s

/-- `RSVD` with bit 7 set (R247). -/
def execRsvd7 (cmd : Byte) (s : State) : Host.Outcome State Fault Refusal := rejectCommand (.rsvd7 cmd) s

/-- `RSVD` with bit 6 its highest (R247). -/
def execRsvd6 (cmd : Byte) (s : State) : Host.Outcome State Fault Refusal := rejectCommand (.rsvd6 cmd) s

/-- `RSVD` with bit 5 its highest (R247). -/
def execRsvd5 (cmd : Byte) (s : State) : Host.Outcome State Fault Refusal := rejectCommand (.rsvd5 cmd) s

/-- `RSVD` with bit 4 its highest (R247). -/
def execRsvd4 (cmd : Byte) (s : State) : Host.Outcome State Fault Refusal := rejectCommand (.rsvd4 cmd) s

end Sys2Proof.Machine
end

