-- ==== Sys2Proof/Machine/Sha1.lean ====
section
/-! DEFINITION. SHA-1 (45_sha1_mgf1.md R200), the hash parameter (R206) and MGF1 (R205). -/

namespace Sys2Proof.Machine

/-- A 32-bit word of R200. -/
abbrev Word32 := BitVec 32

/-- The padded message of R200. -/
def sha1Pad (msg : Bytes) : Bytes :=
  msg ++ [0x80#8] ++ rep 0#8 ((64 - (msg.length + 9) % 64) % 64) ++ i2osp (8 * msg.length) 8

/-- `W[t]` from the words before it, the latest first (R200, `t >= 16`). -/
def scheduleWord (ws : List Word32) : Word32 :=
  (ws.getD 2 0#32 ^^^ ws.getD 7 0#32 ^^^ ws.getD 13 0#32 ^^^ ws.getD 15 0#32).rotateLeft 1

/-- The `n` words of the schedule after those in `ws`, the latest first (R200). -/
def scheduleWords : Nat → List Word32 → List Word32
  | 0, ws => ws
  | n + 1, ws => scheduleWords n (scheduleWord ws :: ws)

/-- `W[0..79]` of a 64-byte block (R200). -/
def sha1Schedule (block : Bytes) : List Word32 :=
  (scheduleWords 64 ((blocks 4 block).map fun w => BitVec.ofNat 32 (os2ip w)).reverse).reverse

/-- The five words of the hash value (R200). -/
structure Sha1Value where
  a : Word32
  b : Word32
  c : Word32
  d : Word32
  e : Word32
deriving DecidableEq, Repr

/-- The initial `(h0, .., h4)` (R200). -/
def sha1Init : Sha1Value := ⟨0x67452301#32, 0xEFCDAB89#32, 0x98BADCFE#32, 0x10325476#32, 0xC3D2E1F0#32⟩

/-- `(f, K)` of step `t` (R200). -/
def sha1Mix (t : Nat) (b c d : Word32) : Word32 × Word32 :=
  if t ≤ 19 then ((b &&& c) ||| (~~~b &&& d), 0x5A827999#32)
  else if t ≤ 39 then (b ^^^ c ^^^ d, 0x6ED9EBA1#32)
  else if t ≤ 59 then ((b &&& c) ||| (b &&& d) ||| (c &&& d), 0x8F1BBCDC#32)
  else (b ^^^ c ^^^ d, 0xCA62C1D6#32)

/-- Step `t` of R200. -/
def sha1Step (v : Sha1Value) (t : Nat) (w : Word32) : Sha1Value :=
  let fk := sha1Mix t v.b v.c v.d
  ⟨v.a.rotateLeft 5 + fk.1 + v.e + fk.2 + w, v.a, v.b.rotateLeft 30, v.c, v.d⟩

/-- The steps of R200 from step `t` on, one for each word. -/
def sha1Steps : Nat → List Word32 → Sha1Value → Sha1Value
  | _, [], v => v
  | t, w :: ws, v => sha1Steps (t + 1) ws (sha1Step v t w)

/-- One block of R200. -/
def sha1Block (h : Sha1Value) (block : Bytes) : Sha1Value :=
  let v := sha1Steps 0 (sha1Schedule block) h
  ⟨h.a + v.a, h.b + v.b, h.c + v.c, h.d + v.d, h.e + v.e⟩

/-- `SHA1(msg)` (R200). -/
def sha1 (msg : Bytes) : Bytes :=
  let h := (blocks 64 (sha1Pad msg)).foldl sha1Block sha1Init
  i2osp h.a.toNat 4 ++ i2osp h.b.toNat 4 ++ i2osp h.c.toNat 4 ++ i2osp h.d.toNat 4 ++ i2osp h.e.toNat 4

/-- The OAEP hash `H` (R206): SHA-1, or the hash the configuration brings. -/
def hashBytes (h : HashAlg) (msg : Bytes) : Bytes :=
  match h with
  | .sha1 => sha1 msg
  | .other hLen => i2osp (Config.otherHash hLen msg).toNat hLen

/-- `MGF1(seed, len)` (R205). -/
def mgf1 (h : HashAlg) (seed : Bytes) (len : Nat) : Bytes :=
  ((List.range (ceilDiv len h.hLen)).flatMap fun counter => hashBytes h (seed ++ i2osp counter 4)).take len

end Sys2Proof.Machine
end

