-- ==== Sys2Proof/Machine/PublicKey.lean ====
section
/-! DEFINITION. The public-key engine (44_public_key.md R174 to R184): RSA primitives and OAEP. `k` is `RSA_K`. -/

namespace Sys2Proof.Machine

/-- `RSAEP(m)` (R174). -/
def rsaep (n e m : Nat) : Nat := modPow m e n

/-- `RSADP(c)` (R175). -/
def rsadp (n d c : Nat) : Nat := modPow c d n

/-- `lHash` (R177): the label is empty. -/
def labelHash (h : HashAlg) : Bytes := hashBytes h []

/-- `DB` of R178. -/
def oaepDataBlock (h : HashAlg) (k : Nat) (m : Bytes) : Bytes :=
  labelHash h ++ rep 0x00#8 (k - m.length - 2 * h.hLen - 2) ++ [0x01#8] ++ m

/-- `OAEP_ENCODE(m, seed)` (R178). -/
def oaepEncode (h : HashAlg) (k : Nat) (m seed : Bytes) : Bytes :=
  let maskedDB := xorBytes (oaepDataBlock h k m) (mgf1 h seed (k - h.hLen - 1))
  let maskedSeed := xorBytes seed (mgf1 h maskedDB h.hLen)
  0x00#8 :: (maskedSeed ++ maskedDB)

/-- `DB` of R179, recovered from `EM`. -/
def oaepUnmask (h : HashAlg) (k : Nat) (em : Bytes) : Bytes :=
  let maskedSeed := slice em 1 (1 + h.hLen)
  let maskedDB := slice em (1 + h.hLen) k
  let seed := xorBytes maskedSeed (mgf1 h maskedDB h.hLen)
  xorBytes maskedDB (mgf1 h seed (k - h.hLen - 1))

/-- `OAEP_DECODE(EM)` (R179): the four conditions are not told apart. -/
def oaepDecode (h : HashAlg) (k : Nat) (em : Bytes) : Except EngineError Bytes :=
  let db := oaepUnmask h k em
  if em.head? ≠ some 0x00#8 ∨ db.take h.hLen ≠ labelHash h then .error .decryption
  else
    match (db.drop h.hLen).dropWhile (fun x => x == 0x00#8) with
    | [] => .error .decryption
    | b :: m => if b = 0x01#8 then .ok m else .error .decryption

/-- `RSA_ENCRYPT(m)` past its length test (R182), with the seed drawn. -/
def rsaEncryptSeeded (h : HashAlg) (k n e : Nat) (m seed : Bytes) : Bytes :=
  i2osp (rsaep n e (os2ip (oaepEncode h k m seed))) k

/-- `RSA_DECRYPT(c)` (R184). -/
def rsaDecrypt (h : HashAlg) (k n d : Nat) (c : Bytes) : Except EngineError Bytes :=
  if c.length ≠ k then .error .decryption
  else if n ≤ os2ip c then .error .decryption
  else oaepDecode h k (i2osp (rsadp n d (os2ip c)) k)

/-- The engine's encryption (R182): the length test comes first, and only then is a seed drawn (R180). -/
def State.rsaEncrypt (s : State) (m : Bytes) : Computed :=
  if s.cfg.rsaMax < m.length then { draws := 0, result := .error .payloadTooLarge }
  else
    { draws := s.cfg.hash.hLen
      result := .ok (rsaEncryptSeeded s.cfg.hash s.cfg.rsaK s.rsaN s.rsaE m (s.draw s.cfg.hash.hLen)) }

/-- The engine's decryption (R184); no draw is taken. -/
def State.rsaDecrypt (s : State) (c : Bytes) : Except EngineError Bytes :=
  Machine.rsaDecrypt s.cfg.hash s.cfg.rsaK s.rsaN s.rsaD c

end Sys2Proof.Machine
end

