-- ==== Sys2Proof/Machine/Transport.lean ====
section
/-! DEFINITION. The radix-64 transport codec (46_transport_text.md R210 to R212). -/

namespace Sys2Proof.Machine

/-- The pad byte `=` (R210). -/
def padByte : Byte := 0x3D#8

/-- `B64CHAR(v)` (R210), for a digit value below 64. -/
def b64Char (v : Nat) : Byte :=
  if v < 26 then BitVec.ofNat 8 (0x41 + v)
  else if v < 52 then BitVec.ofNat 8 (0x61 + (v - 26))
  else if v < 62 then BitVec.ofNat 8 (0x30 + (v - 52))
  else if v = 62 then 0x2B#8
  else 0x2F#8

/-- `B64VAL(ch)` (R210); none outside the alphabet. -/
def b64Val (ch : Byte) : Option Nat :=
  if 0x41 ≤ ch.toNat ∧ ch.toNat ≤ 0x5A then some (ch.toNat - 0x41)
  else if 0x61 ≤ ch.toNat ∧ ch.toNat ≤ 0x7A then some (ch.toNat - 0x61 + 26)
  else if 0x30 ≤ ch.toNat ∧ ch.toNat ≤ 0x39 then some (ch.toNat - 0x30 + 52)
  else if ch = 0x2B#8 then some 62
  else if ch = 0x2F#8 then some 63
  else none

/-- Digit `i` of a 24-bit number (R211), `i = 0` the most significant. -/
def b64Digit (v i : Nat) : Byte := b64Char (v / 64 ^ (3 - i) % 64)

/-- `B64ENC(b)` (R211). -/
def b64Enc : Bytes → Bytes
  | [] => []
  | [a] => let v := os2ip [a, 0#8, 0#8]; [b64Digit v 0, b64Digit v 1, padByte, padByte]
  | [a, b] => let v := os2ip [a, b, 0#8]; [b64Digit v 0, b64Digit v 1, b64Digit v 2, padByte]
  | a :: b :: c :: rest =>
    let v := os2ip [a, b, c]
    b64Digit v 0 :: b64Digit v 1 :: b64Digit v 2 :: b64Digit v 3 :: b64Enc rest

/-- `np` of R212 for a group. -/
def padCount (last : Bool) (q2 q3 : Byte) : Nat :=
  if last ∧ q3 = padByte then (if q2 = padByte then 2 else 1) else 0

/-- The digit values of the bytes, none if one is outside the alphabet. -/
def b64Vals : Bytes → Option (List Nat)
  | [] => some []
  | ch :: rest =>
    match b64Val ch, b64Vals rest with
    | some v, some vs => some (v :: vs)
    | _, _ => none

/-- One group of R212. -/
def b64DecGroup (last : Bool) (q0 q1 q2 q3 : Byte) : Except EngineError Bytes :=
  let np := padCount last q2 q3
  match b64Vals (([q0, q1, q2, q3] : Bytes).take (4 - np)) with
  | none => .error .format
  | some ds =>
    let v := (ds ++ List.replicate np 0).foldl (fun acc d => acc * 64 + d) 0
    if np = 1 ∧ v % 2 ^ 8 ≠ 0 then .error .format
    else if np = 2 ∧ v % 2 ^ 16 ≠ 0 then .error .format
    else .ok ((i2osp v 3).take (3 - np))

/-- `B64DEC(t)` (R212). A length that is no multiple of 4 leaves one to three bytes at the end; every failure is the
same error, so it does not matter that they are met last. -/
def b64Dec : Bytes → Except EngineError Bytes
  | [] => .ok []
  | q0 :: q1 :: q2 :: q3 :: rest =>
    match b64DecGroup rest.isEmpty q0 q1 q2 q3, b64Dec rest with
    | .ok g, .ok b => .ok (g ++ b)
    | .error e, _ => .error e
    | _, .error e => .error e
  | _ => .error .format

end Sys2Proof.Machine
end

