-- ==== Sys2Proof/Machine/TextCommands.lean ====
section
/-! DEFINITION. The text pipeline and the meanings of the text commands (46_transport_text.md R217, R220 to R225). -/

namespace Sys2Proof.Machine

/-- The transport encoding of an engine's result (R217): an error passes through. -/
def encodeText (c : Computed) : Computed where
  draws := c.draws
  result :=
    match c.result with
    | .ok raw => .ok (b64Enc raw)
    | .error e => .error e

/-- The transport decoding before an engine's decryption (R217): `FormatError` comes first. -/
def decodeText (decrypt : Bytes → Except EngineError Bytes) (text : Bytes) : Except EngineError Bytes :=
  match b64Dec text with
  | .ok raw => decrypt raw
  | .error e => .error e

/-- `ENCT.AES` (R220). -/
def execEnctAes (s : State) : Host.Outcome State Fault Refusal :=
  runCommand .enctAes (fun b => encodeText { draws := 16, result := .ok (s.encBlock .aes b) }) s

/-- `DECT.AES` (R221). -/
def execDectAes (s : State) : Host.Outcome State Fault Refusal :=
  runCommand .dectAes (fun b => { draws := 0, result := decodeText (s.decBlock .aes) b }) s

/-- `ENCT.DES` (R222). -/
def execEnctDes (s : State) : Host.Outcome State Fault Refusal :=
  runCommand .enctDes (fun b => encodeText { draws := 8, result := .ok (s.encBlock .des b) }) s

/-- `DECT.DES` (R223). -/
def execDectDes (s : State) : Host.Outcome State Fault Refusal :=
  runCommand .dectDes (fun b => { draws := 0, result := decodeText (s.decBlock .des) b }) s

/-- `ENCT.RSA` (R224). -/
def execEnctRsa (s : State) : Host.Outcome State Fault Refusal :=
  runCommand .enctRsa (fun b => encodeText (s.rsaEncrypt b)) s

/-- `DECT.RSA` (R225). -/
def execDectRsa (s : State) : Host.Outcome State Fault Refusal :=
  runCommand .dectRsa (fun b => { draws := 0, result := decodeText s.rsaDecrypt b }) s

end Sys2Proof.Machine
end

