-- ==== Sys2Proof/Machine/Dispatch.lean ====
section
/-! DEFINITION. The dispatch of a decoded command to its meaning (47_dispatcher.md R240). -/

namespace Sys2Proof.Machine

def exec (i : Instr) (s : State) : Host.Outcome State Fault Refusal :=
  match i with
  | .encbAes => Sys2Proof.Machine.execEncbAes s
  | .encbDes => Sys2Proof.Machine.execEncbDes s
  | .encbRsa => Sys2Proof.Machine.execEncbRsa s
  | .decbAes => Sys2Proof.Machine.execDecbAes s
  | .decbDes => Sys2Proof.Machine.execDecbDes s
  | .decbRsa => Sys2Proof.Machine.execDecbRsa s
  | .enctAes => Sys2Proof.Machine.execEnctAes s
  | .enctDes => Sys2Proof.Machine.execEnctDes s
  | .enctRsa => Sys2Proof.Machine.execEnctRsa s
  | .dectAes => Sys2Proof.Machine.execDectAes s
  | .dectDes => Sys2Proof.Machine.execDectDes s
  | .dectRsa => Sys2Proof.Machine.execDectRsa s
  | .unsup cmd => Sys2Proof.Machine.execUnsup cmd s
  | .rsvd7 cmd => Sys2Proof.Machine.execRsvd7 cmd s
  | .rsvd6 cmd => Sys2Proof.Machine.execRsvd6 cmd s
  | .rsvd5 cmd => Sys2Proof.Machine.execRsvd5 cmd s
  | .rsvd4 cmd => Sys2Proof.Machine.execRsvd4 cmd s

end Sys2Proof.Machine
end

