-- ==== Sys2Proof/Machine/HostPort.lean ====
section
/-! DEFINITION. The steps of HOST and platform (10_state.md R35, R36; 20_memory.md R56; 70_reset_and_hazards.md R290):
the only events that change the state. -/

namespace Sys2Proof.Machine

/-- `HostWriteIn(b)` (R35). -/
def hostWriteIn (b : Bytes) (s : State) : Host.Outcome State Fault Refusal :=
  if b.length ≤ s.cfg.bufCap then .next (s.loadIn b) else .refused .inputTooLong

/-- `IN <- OUT` (30_encoding.md R78). -/
def hostWriteInFromOut (s : State) : Host.Outcome State Fault Refusal :=
  match s.output with
  | some b => hostWriteIn b s
  | none => .fault .outputNotValid

/-- `HostIssue(c)` (R35): `CMD <- c`, then exactly one ENGINE step (R36). -/
def hostIssue (c : Byte) (s : State) : Host.Outcome State Fault Refusal :=
  exec (decodeCmd c) { s with cmd := c }

/-- A HOST read of the `n` bytes of `OUT` from index `a`: refused at or beyond `OUT_LEN` (R32). For `n = 0`, which R56
does not speak of, an empty reply up to `OUT_LEN` and a refusal beyond it are a DESIGN CHOICE (log 23). -/
def hostReadOutAt (a n : Nat) (s : State) : Host.Outcome State Fault Refusal :=
  if a + n ≤ s.outLen then
    match s.outBuf.readBytes a n with
    | some b => .next (s.reply (.outBytes b))
    | none => .fault .outputNotValid
  else .refused .readBeyondOutput

/-- A HOST read of the `n` bytes of `IN` from index `a`, defined below `IN_LEN` only (00_scope.md R12). That HOST may ask
for `n = 0`, with the same condition, is a DESIGN CHOICE (log 23). -/
def hostReadInAt (a n : Nat) (s : State) : Host.Outcome State Fault Refusal :=
  if a + n ≤ s.inLen then
    match s.inBuf.readBytes a n with
    | some b => .next (s.reply (.inBytes b))
    | none => .fault .inputNotValid
  else .refused .readBeyondInput

/-- `Reset` with the keypair ENTROPY answered (70_reset_and_hazards.md R290): `ValidRsaKey(RSA_N, RSA_E, RSA_D, RSA_K)`
holds of it, by its type and by the parameters it is for (log 6). -/
def platformReset (key : RsaKey) (s : State) : Host.Outcome State Fault Refusal :=
  if key.e = s.cfg.rsaE ∧ key.k = s.cfg.rsaK then .next (s.resetTo key.n key.d) else .refused .keyOfOtherParameters

/-- One step of the world outside the ENGINE, with the ENGINE step it causes. -/
def hostStep (h : HostStep) (s : State) : Host.Outcome State Fault Refusal :=
  match h with
  | .writeIn b => hostWriteIn b s
  | .writeInFromOut => hostWriteInFromOut s
  | .issue c => hostIssue c s
  | .readOut => hostReadOutAt 0 s.outLen s
  | .readOutAt a n => hostReadOutAt a n s
  | .readIn => hostReadInAt 0 s.inLen s
  | .readInAt a n => hostReadInAt a n s
  | .readStatus => .next (s.reply (.status s.status))
  | .readInLen => .next (s.reply (.inLen s.inLen))
  | .readOutLen => .next (s.reply (.outLen s.outLen))
  | .reset key => platformReset key s

end Sys2Proof.Machine
end

