-- ==== Sys2Proof/Machine/Step.lean ====
section
/-! DEFINITION. One step of the machine. There is no program counter and no fetch (10_state.md R27): the next event is
the next pending step of HOST or platform, and HOST and ENGINE steps form one total order (20_memory.md R60). -/

namespace Sys2Proof.Machine

/-- One step: the pending HOST step at the head of `host` is taken. With none pending nothing happens
(20_memory.md R60 (c); log 10). -/
def step (s : State) : Host.Outcome State Fault Refusal :=
  match s.host with
  | [] => .next s
  | h :: rest => hostStep h { s with host := rest }

/-- The state in which the command whose bits are `w` is the one HOST issues next. -/
def State.withFetchWord (s : State) (_nbits w : Nat) : State :=
  { s with host := .issue (BitVec.ofNat 8 w) :: s.host }

end Sys2Proof.Machine
end

