-- ==== Sys2Proof/Safety.lean ====
section
/-! DEFINITION. What claims about the machine are stated in: the invariant of every reachable state, what a command may
change, and the premise RNG_FRESH on ENTROPY (10_state.md R41). -/

namespace Sys2Proof.Machine

/-- A buffer holds exactly the bytes `0 .. len-1`, and no more than its capacity (10_state.md R26, R31, R32). -/
def holdsLength (m : Memory) (len cap : Nat) : Prop :=
  ∃ v : Bytes, m = Memory.ofBytes v ∧ len = v.length ∧ v.length ≤ cap

/-- What holds of every reachable state: the parameters are a configuration of the hardware (00_scope.md R10), the
symmetric keys and `RSA_E` are the parameters (10_state.md R22 to R24), the drawn pair fits its registers (R170 (b)),
the buffers hold exactly their valid bytes (R31, R32), the length registers hold `LEN_W` bits (R21), and `STATUS` is
legal and belongs to the command in `CMD` (R28, R29). -/
structure State.Inv (s : State) : Prop where
  config : s.cfg.Valid
  aesKey : s.kAes = s.cfg.kAes
  desKey : s.kDes = s.cfg.kDes
  exponent : s.rsaE = s.cfg.rsaE
  keyPair : keyDrawFits s.rsaN s.rsaD s.cfg.rsaK = true
  input : holdsLength s.inBuf s.inLen s.cfg.bufCap
  output : holdsLength s.outBuf s.outLen s.cfg.bufCap
  inLenWidth : s.inLen < 2 ^ s.cfg.lenW
  outLenWidth : s.outLen < 2 ^ s.cfg.lenW
  status : statusLegal s.status = true
  context : statusCtx s.status = s.cmd

/-- The keypair registers satisfy `ValidRsaKey` (10_state.md R24, 44_public_key.md R170). -/
def State.KeyValid (s : State) : Prop := ValidRsaKey s.rsaN s.rsaE s.rsaD s.cfg.rsaK

/-- The five key registers and the parameters are the same in both states. -/
def SameKeys (s t : State) : Prop :=
  t.cfg = s.cfg ∧ t.kAes = s.kAes ∧ t.kDes = s.kDes ∧ t.rsaN = s.rsaN ∧ t.rsaE = s.rsaE ∧ t.rsaD = s.rsaD

/-- `OUT` and `OUT_LEN` hold exactly the bytes `v`: as a whole, and byte by byte at every index. -/
def OutputIs (t : State) (v : Bytes) : Prop :=
  t.output = some v ∧ t.outLen = v.length ∧ ∀ a : Nat, t.outBuf.read a = v[a]?

/-- What a command leaves as it was (60_exceptions.md R266): everything but `OUT`, `OUT_LEN` and `STATUS`; ENTROPY has
answered `draws` bytes. -/
def CommandFrame (s t : State) (draws : Nat) : Prop :=
  SameKeys s t ∧ t.cmd = s.cmd ∧ t.inLen = s.inLen ∧ (∀ a : Nat, t.inBuf.read a = s.inBuf.read a) ∧
  t.host = s.host ∧ t.replies = s.replies ∧ t.entropy = s.entropy.drop draws ∧ t.drawn = s.drawn + draws

/-- The pairs of the capability matrix answered `yes` (47_dispatcher.md R241). -/
def supportedPair (k : Kind) (a : Alg) : Bool :=
  match k, a with
  | _, .aes => true
  | _, .des => true
  | .text, .rsa => true
  | .bytes, .rsa => false
  | _, .other => false

/-- A command byte names a supported pair (R241, 30_encoding.md R76). -/
def supportedByte (c : Byte) : Bool := fieldRsv c == 0#4 && supportedPair (fieldKind c) (fieldAlg c)

/-- The bytes of the IV an encryption command draws (41_block_cipher.md R100); 0 for a command that draws none. -/
def ivLength : Instr → Nat
  | .encbAes | .enctAes => 16
  | .encbDes | .enctDes => 8
  | .encbRsa | .decbAes | .decbDes | .decbRsa | .enctRsa | .dectAes | .dectDes | .dectRsa
  | .unsup _ | .rsvd7 _ | .rsvd6 _ | .rsvd5 _ | .rsvd4 _ => 0

/-- The IVs drawn in the first `k` steps from `s`, up to the end of the power cycle. -/
def ivDraws : Nat → State → List Bytes
  | 0, _ => []
  | k + 1, s =>
    match step s with
    | .next t =>
      match s.host with
      | .reset _ :: _ => []
      | .issue c :: _ =>
        if ivLength (decodeCmd c) = 0 then ivDraws k t else s.draw (ivLength (decodeCmd c)) :: ivDraws k t
      | _ => ivDraws k t
    | .fault _ => []
    | .refused _ => []

/-- RNG_FRESH (10_state.md R41): within one power cycle no two IV draws of the same length return the same bytes. A
premise on ENTROPY, never a property of the machine. -/
def RngFresh (s : State) : Prop :=
  ∀ k : Nat, (ivDraws k s).Pairwise fun x y => x.length = y.length → x ≠ y

/-- The encryption and decryption commands of a block cipher, by kind (30_encoding.md R74). -/
def encCommand : Kind → BlockAlg → Instr
  | .bytes, .aes => .encbAes
  | .bytes, .des => .encbDes
  | .text, .aes => .enctAes
  | .text, .des => .enctDes

/-- See `encCommand`. -/
def decCommand : Kind → BlockAlg → Instr
  | .bytes, .aes => .decbAes
  | .bytes, .des => .decbDes
  | .text, .aes => .dectAes
  | .text, .des => .dectDes

/-- The errors a command can end with (60_exceptions.md R260). -/
def possibleErrors : Instr → List EngineError
  | .encbAes | .encbDes | .enctAes | .enctDes => []
  | .encbRsa | .decbRsa | .unsup _ | .rsvd7 _ | .rsvd6 _ | .rsvd5 _ | .rsvd4 _ => [.unsupportedAlgorithm]
  | .enctRsa => [.payloadTooLarge]
  | .decbAes | .decbDes => [.invalidEnvelope, .padding]
  | .dectAes | .dectDes => [.format, .invalidEnvelope, .padding]
  | .dectRsa => [.format, .decryption]

end Sys2Proof.Machine
end

