-- ==== Sys2Proof/Certificates/Slice0/Obligations.lean ====
section
/-! DEFINITION. What is claimed of the machine. Each docstring names the rule of the spec a statement formalises;
OBLIGATIONS.json holds its tier, basis and quotation. -/

open Sys2Proof Sys2Proof.Machine

/-! ### Encoding -/

/-- 30_encoding.md sections 3 and 5: decoding and encoding agree in both directions, with every operand at every value its
row admits. -/
def Obligations.EncodeDecodeAgree : Prop :=
  (∀ i : Instr, i.wf = true → decode (encode i) = .ok (i, [])) ∧
  (∀ (c : Byte) (rest : Bytes), decode (c :: rest) = .ok (decodeCmd c, rest) ∧
    (decodeCmd c).wf = true ∧ encodeCmd (decodeCmd c) = c ∧ decodeTableWord 8 c.toNat = some (decodeCmd c))

/-- R75: every byte matches the mask and match of exactly one row, the row of the command it decodes to; the split of
`DecodeCmd` into reserved, unsupported and named commands; the masks and matches of the five rows of several bytes. -/
def Obligations.EveryByteMatchesExactlyItsRow : Prop :=
  ∀ c : Byte,
    (matchesRow (decodeCmd c).rowMask (decodeCmd c).rowMatch c = true) ∧
    (∀ i : Instr, matchesRow i.rowMask i.rowMatch c = true →
      i.rowMask = (decodeCmd c).rowMask ∧ i.rowMatch = (decodeCmd c).rowMatch) ∧
    (fieldRsv c ≠ 0#4 → decodeCmd c = .rsvd7 c ∨ decodeCmd c = .rsvd6 c ∨ decodeCmd c = .rsvd5 c ∨ decodeCmd c = .rsvd4 c) ∧
    (fieldRsv c = 0#4 → c.extractLsb' 0 2 = 3#2 → decodeCmd c = .unsup c) ∧
    (fieldRsv c = 0#4 → c.extractLsb' 0 2 ≠ 3#2 →
      encodeCmd (decodeCmd c) = commandByte (fieldKind c) (fieldDir c) (fieldAlg c) ∧ (decodeCmd c).rowMask = 0xFF#8) ∧
    (decodeCmd c = .rsvd7 c ↔ c &&& 0x80#8 = 0x80#8) ∧ (decodeCmd c = .rsvd6 c ↔ c &&& 0xC0#8 = 0x40#8) ∧
    (decodeCmd c = .rsvd5 c ↔ c &&& 0xE0#8 = 0x20#8) ∧ (decodeCmd c = .rsvd4 c ↔ c &&& 0xF0#8 = 0x10#8) ∧
    (decodeCmd c = .unsup c ↔ c &&& 0xF3#8 = 0x03#8)

/-- R74: the sixteen encodings with `RSV = 0000`, each written out. -/
def Obligations.OpcodeMapOfDefinedCommands : Prop :=
  decodeCmd 0b00000000#8 = .encbAes ∧ decodeCmd 0b00000001#8 = .encbDes ∧ decodeCmd 0b00000010#8 = .encbRsa ∧
  decodeCmd 0b00000011#8 = .unsup 0x03#8 ∧ decodeCmd 0b00000100#8 = .decbAes ∧ decodeCmd 0b00000101#8 = .decbDes ∧
  decodeCmd 0b00000110#8 = .decbRsa ∧ decodeCmd 0b00000111#8 = .unsup 0x07#8 ∧ decodeCmd 0b00001000#8 = .enctAes ∧
  decodeCmd 0b00001001#8 = .enctDes ∧ decodeCmd 0b00001010#8 = .enctRsa ∧ decodeCmd 0b00001011#8 = .unsup 0x0B#8 ∧
  decodeCmd 0b00001100#8 = .dectAes ∧ decodeCmd 0b00001101#8 = .dectDes ∧ decodeCmd 0b00001110#8 = .dectRsa ∧
  decodeCmd 0b00001111#8 = .unsup 0x0F#8

/-- R72: exactly three strings name an algorithm; every other string maps to `11`, reaches the core as `UNSUP`, and the
command fails there. -/
def Obligations.SelectorNamesMapExactly : Prop :=
  algBits (algOfName [0x41#8, 0x45#8, 0x53#8]) = 0b00#2 ∧
  algBits (algOfName [0x44#8, 0x45#8, 0x53#8]) = 0b01#2 ∧
  algBits (algOfName [0x52#8, 0x53#8, 0x41#8]) = 0b10#2 ∧
  ∀ name : Bytes, name ≠ [0x41#8, 0x45#8, 0x53#8] → name ≠ [0x44#8, 0x45#8, 0x53#8] → name ≠ [0x52#8, 0x53#8, 0x41#8] →
    algBits (algOfName name) = 0b11#2 ∧
    ∀ (k : Kind) (d : Dir),
      decodeCmd (commandByte k d (algOfName name)) = .unsup (commandByte k d (algOfName name)) ∧
      ∀ s t : State, exec (decodeCmd (commandByte k d (algOfName name))) s = .next t →
        statusErr t.status = errCode .unsupportedAlgorithm

/-! ### Steps -/

/-- 10_state.md section 7: a step takes the pending HOST step at the head of the list, whichever it is, and does what that
HOST step does; an issue writes the byte to `CMD` and runs exactly the command it decodes to; with none pending nothing
happens. That HOST steps stand in the state is the model's choice (logs 1, 10). -/
def Obligations.StepRunsTheDecodedCommand : Prop :=
  (∀ (s : State) (c : Byte) (rest : List HostStep), s.host = .issue c :: rest →
    step s = exec (decodeCmd c) { s with cmd := c, host := rest }) ∧
  (∀ (s : State) (x : HostStep) (rest : List HostStep), s.host = x :: rest →
    step s = hostStep x { s with host := rest }) ∧
  (∀ s : State, s.host = [] → step s = .next s)

/-- 10_state.md section 7 (R35) and 30_encoding.md section 6 (R78): what each HOST step does, from any state in which the
buffers hold their valid bytes, and that no other access of the HOST changes the core. That `IN` then holds no byte beyond
the new input is the model's form (log 7); the accesses of log 8 are among the others. -/
def Obligations.HostStepEffects : Prop :=
  ∀ s : State, s.Inv →
    (∀ b : Bytes, b.length ≤ s.cfg.bufCap →
      ∃ t, hostStep (.writeIn b) s = .next t ∧ t.input = some b ∧ t.inLen = b.length ∧
        (∀ a : Nat, t.inBuf.read a = b[a]?) ∧ t = { s with inBuf := t.inBuf, inLen := t.inLen }) ∧
    (∀ b : Bytes, s.cfg.bufCap < b.length → hostStep (.writeIn b) s = .refused .inputTooLong) ∧
    (∃ v t, s.output = some v ∧ hostStep .writeInFromOut s = .next t ∧ t.input = some v ∧ t.inLen = v.length ∧
      (∀ a : Nat, t.inBuf.read a = v[a]?) ∧ t = { s with inBuf := t.inBuf, inLen := t.inLen }) ∧
    (∀ c : Byte, hostStep (.issue c) s = exec (decodeCmd c) { s with cmd := c }) ∧
    (∃ v, s.output = some v ∧ hostStep .readOut s = .next { s with replies := s.replies ++ [.outBytes v] }) ∧
    hostStep .readStatus s = .next { s with replies := s.replies ++ [.status s.status] } ∧
    (∃ v, s.input = some v ∧ hostStep .readIn s = .next { s with replies := s.replies ++ [.inBytes v] }) ∧
    (∀ (x : HostStep) (t : State), hostStep x s = .next t →
      (∃ b, x = .writeIn b) ∨ x = .writeInFromOut ∨ (∃ c, x = .issue c) ∨ (∃ key, x = .reset key) ∨
      t = { s with replies := t.replies })

/-- 20_memory.md section 4 and 10_state.md section 6: a HOST read of part of a buffer returns those bytes and changes
nothing, and is refused at or beyond the buffer's length; the length registers read the same way (log 8, DEDUCED). What a
range of no bytes does, the case `n = 0`, is the model's choice (log 23, DESIGN CHOICE). -/
def Obligations.PartialReadsReturnTheirBytes : Prop :=
  ∀ (s : State) (a n : Nat), s.Inv →
    (a + n ≤ s.outLen → ∃ v, s.outBuf.readBytes a n = some v ∧ v.length = n ∧
      (∀ i < n, s.outBuf.read (a + i) = v[i]?) ∧
      hostStep (.readOutAt a n) s = .next { s with replies := s.replies ++ [.outBytes v] }) ∧
    (s.outLen < a + n → hostStep (.readOutAt a n) s = .refused .readBeyondOutput) ∧
    (a + n ≤ s.inLen → ∃ v, s.inBuf.readBytes a n = some v ∧ v.length = n ∧
      (∀ i < n, s.inBuf.read (a + i) = v[i]?) ∧
      hostStep (.readInAt a n) s = .next { s with replies := s.replies ++ [.inBytes v] }) ∧
    (s.inLen < a + n → hostStep (.readInAt a n) s = .refused .readBeyondInput) ∧
    hostStep .readInLen s = .next { s with replies := s.replies ++ [.inLen s.inLen] } ∧
    hostStep .readOutLen s = .next { s with replies := s.replies ++ [.outLen s.outLen] }

/-- R60: (a) the bytes written before an issue are the bytes the command reads, (b) what is read after it is what the
command wrote, (c) nothing but an issue or a reset writes `OUT`, `OUT_LEN` or `STATUS`; nor does anything but a HOST
write or a reset write `IN` or `IN_LEN`, or anything but an issue or a reset `CMD`. -/
def Obligations.OneTotalOrderOfHostAndEngineSteps : Prop :=
  (∀ (s t : State) (b v : Bytes) (c : Byte) (rest : List HostStep),
    s.host = .writeIn b :: .issue c :: .readStatus :: .readOut :: rest → b.length ≤ s.cfg.bufCap →
    exec (decodeCmd c) { s.loadIn b with cmd := c, host := .readStatus :: .readOut :: rest } = .next t →
    t.output = some v →
    ({ s.loadIn b with cmd := c, host := .readStatus :: .readOut :: rest } : State).input = some b ∧
    Sys2Proof.core.run 4 s = .next { t with host := rest, replies := s.replies ++ [.status t.status, .outBytes v] }) ∧
  (∀ s t : State, step s = .next t →
    (∀ (c : Byte) (rest : List HostStep), s.host ≠ .issue c :: rest) →
    (∀ (key : RsaKey) (rest : List HostStep), s.host ≠ .reset key :: rest) →
    t.outBuf = s.outBuf ∧ t.outLen = s.outLen ∧ t.status = s.status ∧ t.cmd = s.cmd) ∧
  (∀ s t : State, step s = .next t →
    (∀ (b : Bytes) (rest : List HostStep), s.host ≠ .writeIn b :: rest) →
    (∀ rest : List HostStep, s.host ≠ .writeInFromOut :: rest) →
    (∀ (key : RsaKey) (rest : List HostStep), s.host ≠ .reset key :: rest) →
    t.inBuf = s.inBuf ∧ t.inLen = s.inLen)

/-- R17: from any state a run can reach, no step faults, every admitted command completes, and the only requests
without a step are those the spec refuses, a reset with a pair for other parameters, or a read of no bytes from beyond a
buffer's length (the last two the model's choice, logs 6 and 23). -/
def Obligations.NoFaultAndNoHang : Prop :=
  ∀ s : State, s.Inv →
    (∀ f : Fault, step s ≠ .fault f) ∧
    (∀ i : Instr, s.admits i = true → ∃ t, exec i s = .next t) ∧
    (∀ r : Refusal, step s = .refused r →
      (∃ b rest, s.host = .writeIn b :: rest ∧ s.cfg.bufCap < b.length ∧ r = .inputTooLong) ∨
      (∃ c rest, s.host = .issue c :: rest ∧ s.admits (decodeCmd c) = false ∧ r = .outputTooLong) ∨
      (∃ a n rest, s.host = .readOutAt a n :: rest ∧ s.outLen < a + n ∧ r = .readBeyondOutput) ∨
      (∃ a n rest, s.host = .readInAt a n :: rest ∧ s.inLen < a + n ∧ r = .readBeyondInput) ∨
      (∃ key rest, s.host = .reset key :: rest ∧ (key.e ≠ s.cfg.rsaE ∨ key.k ≠ s.cfg.rsaK) ∧ r = .keyOfOtherParameters))

/-! ### Results of the commands -/

/-- R113: `ENCB.AES`, its result, its status, its output length and its frame. -/
def Obligations.EncbAesResult : Prop :=
  decodeCmd 0x00#8 = .encbAes ∧
  ∀ (s : State) (b : Bytes), s.cfg.Valid → s.input = some b → 16 * (b.length / 16) + 32 ≤ s.cfg.bufCap →
    ∃ t, exec .encbAes s = .next t ∧
      OutputIs t (s.draw 16 ++ cbcEnc .aes (regBytes s.kAes 16) (s.draw 16) (pad b 16)) ∧
      t.outLen = 16 * (b.length / 16) + 32 ∧ t.status = 0x0000#16 ∧ CommandFrame s t 16

/-- R114: `DECB.AES` on a bad frame, on a bad padding and on a good envelope. -/
def Obligations.DecbAesResult : Prop :=
  decodeCmd 0x04#8 = .decbAes ∧
  ∀ (s : State) (b : Bytes), s.cfg.Valid → s.input = some b → b.length ≤ s.cfg.bufCap →
    (b.length < 32 ∨ b.length % 16 ≠ 0 →
      ∃ t, exec .decbAes s = .next t ∧ OutputIs t [] ∧ t.status = 0x0403#16 ∧ CommandFrame s t 0) ∧
    (32 ≤ b.length → b.length % 16 = 0 →
      (∀ e, unpad (cbcDec .aes (regBytes s.kAes 16) (b.take 16) (b.drop 16)) 16 = .error e →
        ∃ t, exec .decbAes s = .next t ∧ OutputIs t [] ∧ t.status = 0x040C#16 ∧ CommandFrame s t 0) ∧
      (∀ data, unpad (cbcDec .aes (regBytes s.kAes 16) (b.take 16) (b.drop 16)) 16 = .ok data →
        ∃ t, exec .decbAes s = .next t ∧ OutputIs t data ∧ t.status = 0x0400#16 ∧ CommandFrame s t 0))

/-- R115: `ENCB.DES`. -/
def Obligations.EncbDesResult : Prop :=
  decodeCmd 0x01#8 = .encbDes ∧
  ∀ (s : State) (b : Bytes), s.cfg.Valid → s.input = some b → 8 * (b.length / 8) + 16 ≤ s.cfg.bufCap →
    ∃ t, exec .encbDes s = .next t ∧
      OutputIs t (s.draw 8 ++ cbcEnc .des (regBytes s.kDes 8) (s.draw 8) (pad b 8)) ∧
      t.outLen = 8 * (b.length / 8) + 16 ∧ t.status = 0x0100#16 ∧ CommandFrame s t 8

/-- R116: `DECB.DES`. -/
def Obligations.DecbDesResult : Prop :=
  decodeCmd 0x05#8 = .decbDes ∧
  ∀ (s : State) (b : Bytes), s.cfg.Valid → s.input = some b → b.length ≤ s.cfg.bufCap →
    (b.length < 16 ∨ b.length % 8 ≠ 0 →
      ∃ t, exec .decbDes s = .next t ∧ OutputIs t [] ∧ t.status = 0x0503#16 ∧ CommandFrame s t 0) ∧
    (16 ≤ b.length → b.length % 8 = 0 →
      (∀ e, unpad (cbcDec .des (regBytes s.kDes 8) (b.take 8) (b.drop 8)) 8 = .error e →
        ∃ t, exec .decbDes s = .next t ∧ OutputIs t [] ∧ t.status = 0x050C#16 ∧ CommandFrame s t 0) ∧
      (∀ data, unpad (cbcDec .des (regBytes s.kDes 8) (b.take 8) (b.drop 8)) 8 = .ok data →
        ∃ t, exec .decbDes s = .next t ∧ OutputIs t data ∧ t.status = 0x0500#16 ∧ CommandFrame s t 0))

/-- R220: `ENCT.AES`. -/
def Obligations.EnctAesResult : Prop :=
  decodeCmd 0x08#8 = .enctAes ∧
  ∀ (s : State) (b : Bytes), s.cfg.Valid → s.input = some b →
    4 * ((16 * (b.length / 16) + 32 + 2) / 3) ≤ s.cfg.bufCap →
    ∃ t, exec .enctAes s = .next t ∧
      OutputIs t (b64Enc (s.draw 16 ++ cbcEnc .aes (regBytes s.kAes 16) (s.draw 16) (pad b 16))) ∧
      t.outLen = 4 * ((16 * (b.length / 16) + 32 + 2) / 3) ∧ t.status = 0x0800#16 ∧ CommandFrame s t 16

/-- R221: `DECT.AES` on malformed text, on text of a bad frame, of a bad padding and of a good envelope, in this order
of precedence. -/
def Obligations.DectAesResult : Prop :=
  decodeCmd 0x0C#8 = .dectAes ∧
  ∀ (s : State) (text : Bytes), s.cfg.Valid → s.input = some text → text.length ≤ s.cfg.bufCap →
    (∀ e, b64Dec text = .error e →
      ∃ t, exec .dectAes s = .next t ∧ OutputIs t [] ∧ t.status = 0x0C05#16 ∧ CommandFrame s t 0) ∧
    (∀ b, b64Dec text = .ok b → b.length < 32 ∨ b.length % 16 ≠ 0 →
      ∃ t, exec .dectAes s = .next t ∧ OutputIs t [] ∧ t.status = 0x0C03#16 ∧ CommandFrame s t 0) ∧
    (∀ b, b64Dec text = .ok b → 32 ≤ b.length → b.length % 16 = 0 →
      (∀ e, unpad (cbcDec .aes (regBytes s.kAes 16) (b.take 16) (b.drop 16)) 16 = .error e →
        ∃ t, exec .dectAes s = .next t ∧ OutputIs t [] ∧ t.status = 0x0C0C#16 ∧ CommandFrame s t 0) ∧
      (∀ data, unpad (cbcDec .aes (regBytes s.kAes 16) (b.take 16) (b.drop 16)) 16 = .ok data →
        ∃ t, exec .dectAes s = .next t ∧ OutputIs t data ∧ t.status = 0x0C00#16 ∧ CommandFrame s t 0))

/-- R222: `ENCT.DES`. -/
def Obligations.EnctDesResult : Prop :=
  decodeCmd 0x09#8 = .enctDes ∧
  ∀ (s : State) (b : Bytes), s.cfg.Valid → s.input = some b →
    4 * ((8 * (b.length / 8) + 16 + 2) / 3) ≤ s.cfg.bufCap →
    ∃ t, exec .enctDes s = .next t ∧
      OutputIs t (b64Enc (s.draw 8 ++ cbcEnc .des (regBytes s.kDes 8) (s.draw 8) (pad b 8))) ∧
      t.outLen = 4 * ((8 * (b.length / 8) + 16 + 2) / 3) ∧ t.status = 0x0900#16 ∧ CommandFrame s t 8

/-- R223: `DECT.DES`. -/
def Obligations.DectDesResult : Prop :=
  decodeCmd 0x0D#8 = .dectDes ∧
  ∀ (s : State) (text : Bytes), s.cfg.Valid → s.input = some text → text.length ≤ s.cfg.bufCap →
    (∀ e, b64Dec text = .error e →
      ∃ t, exec .dectDes s = .next t ∧ OutputIs t [] ∧ t.status = 0x0D05#16 ∧ CommandFrame s t 0) ∧
    (∀ b, b64Dec text = .ok b → b.length < 16 ∨ b.length % 8 ≠ 0 →
      ∃ t, exec .dectDes s = .next t ∧ OutputIs t [] ∧ t.status = 0x0D03#16 ∧ CommandFrame s t 0) ∧
    (∀ b, b64Dec text = .ok b → 16 ≤ b.length → b.length % 8 = 0 →
      (∀ e, unpad (cbcDec .des (regBytes s.kDes 8) (b.take 8) (b.drop 8)) 8 = .error e →
        ∃ t, exec .dectDes s = .next t ∧ OutputIs t [] ∧ t.status = 0x0D0C#16 ∧ CommandFrame s t 0) ∧
      (∀ data, unpad (cbcDec .des (regBytes s.kDes 8) (b.take 8) (b.drop 8)) 8 = .ok data →
        ∃ t, exec .dectDes s = .next t ∧ OutputIs t data ∧ t.status = 0x0D00#16 ∧ CommandFrame s t 0))

/-- R224: `ENCT.RSA` within `RSA_MAX` and beyond it; beyond it no seed is drawn. -/
def Obligations.EnctRsaResult : Prop :=
  decodeCmd 0x0A#8 = .enctRsa ∧
  ∀ (s : State) (m : Bytes), s.cfg.Valid → s.input = some m →
    (m.length ≤ s.cfg.rsaK - 2 * s.cfg.hash.hLen - 2 →
      ∃ t, exec .enctRsa s = .next t ∧
        OutputIs t (b64Enc (i2osp (modPow
          (os2ip (oaepEncode s.cfg.hash s.cfg.rsaK m (s.draw s.cfg.hash.hLen))) s.rsaE s.rsaN) s.cfg.rsaK)) ∧
        t.outLen = 4 * ((s.cfg.rsaK + 2) / 3) ∧ t.status = 0x0A00#16 ∧ CommandFrame s t s.cfg.hash.hLen) ∧
    (s.cfg.rsaK - 2 * s.cfg.hash.hLen - 2 < m.length →
      ∃ t, exec .enctRsa s = .next t ∧ OutputIs t [] ∧ t.status = 0x0A02#16 ∧ CommandFrame s t 0)

/-- R225, but for its corner case of a ciphertext made before the last reset, which is no theorem of the rules (R186,
93_implementation_defined.md U8): `DECT.RSA` on malformed text, on a ciphertext of another length or not below the modulus, on one that fails
the OAEP check, and on one that passes it. -/
def Obligations.DectRsaResult : Prop :=
  decodeCmd 0x0E#8 = .dectRsa ∧
  ∀ (s : State) (text : Bytes), s.cfg.Valid → s.input = some text → text.length ≤ s.cfg.bufCap →
    (∀ e, b64Dec text = .error e →
      ∃ t, exec .dectRsa s = .next t ∧ OutputIs t [] ∧ t.status = 0x0E05#16 ∧ CommandFrame s t 0) ∧
    (∀ c, b64Dec text = .ok c → c.length ≠ s.cfg.rsaK ∨ s.rsaN ≤ os2ip c →
      ∃ t, exec .dectRsa s = .next t ∧ OutputIs t [] ∧ t.status = 0x0E0E#16 ∧ CommandFrame s t 0) ∧
    (∀ c, b64Dec text = .ok c → c.length = s.cfg.rsaK → os2ip c < s.rsaN →
      (∀ e, oaepDecode s.cfg.hash s.cfg.rsaK (i2osp (modPow (os2ip c) s.rsaD s.rsaN) s.cfg.rsaK) = .error e →
        ∃ t, exec .dectRsa s = .next t ∧ OutputIs t [] ∧ t.status = 0x0E0E#16 ∧ CommandFrame s t 0) ∧
      (∀ m, oaepDecode s.cfg.hash s.cfg.rsaK (i2osp (modPow (os2ip c) s.rsaD s.rsaN) s.cfg.rsaK) = .ok m →
        m.length ≤ s.cfg.rsaK ∧
        ∃ t, exec .dectRsa s = .next t ∧ OutputIs t m ∧ t.status = 0x0E00#16 ∧ CommandFrame s t 0))

/-- R244, R245: `ENCB.RSA` and `DECB.RSA` always end with `UnsupportedAlgorithmError`, whatever `IN` holds. -/
def Obligations.RsaOnBytesIsUnsupported : Prop :=
  decodeCmd 0x02#8 = .encbRsa ∧ decodeCmd 0x06#8 = .decbRsa ∧
  ∀ s : State, s.inLen ≤ s.cfg.bufCap →
    (∃ t, exec .encbRsa s = .next t ∧ OutputIs t [] ∧ t.status = 0x0201#16 ∧ CommandFrame s t 0) ∧
    (∃ t, exec .decbRsa s = .next t ∧ OutputIs t [] ∧ t.status = 0x0601#16 ∧ CommandFrame s t 0)

/-- R246: the four `UNSUP` bytes, which differ only in the context they report. -/
def Obligations.UnsupResult : Prop :=
  ∀ (s : State) (c : Byte), s.inLen ≤ s.cfg.bufCap → fieldRsv c = 0#4 → c.extractLsb' 0 2 = 3#2 →
    decodeCmd c = .unsup c ∧
    ∃ t, exec (.unsup c) s = .next t ∧ OutputIs t [] ∧ CommandFrame s t 0 ∧
      t.status = c.setWidth 16 <<< 8 ||| 0x0001#16 ∧
      (t.status = 0x0301#16 ∨ t.status = 0x0701#16 ∨ t.status = 0x0B01#16 ∨ t.status = 0x0F01#16)

/-- R247: the 240 reserved bytes, in the four rows of the table. -/
def Obligations.RsvdResult : Prop :=
  ∀ (s : State) (c : Byte), s.inLen ≤ s.cfg.bufCap →
    (∀ i ∈ [Instr.rsvd7 c, .rsvd6 c, .rsvd5 c, .rsvd4 c],
      ∃ t, exec i s = .next t ∧ OutputIs t [] ∧ t.status = c.setWidth 16 <<< 8 ||| 0x0001#16 ∧ CommandFrame s t 0) ∧
    (0x10 ≤ c.toNat → decodeCmd c ∈ [Instr.rsvd7 c, .rsvd6 c, .rsvd5 c, .rsvd4 c])

/-! ### Rules over all commands -/

/-- R28, R29: after every command the status register is legal, its context is the command byte, its `ERR` is 0 when the
command succeeded and otherwise the code of the error it ended with, its `CLASS` is the one of its `ERR`; reset clears
it, and no HOST step but an issue writes it. -/
def Obligations.StatusOfEveryCommandIsLegal : Prop :=
  (∀ (i : Instr) (s t : State), exec i s = .next t →
    t.status.extractLsb' 8 8 = encodeCmd i ∧ t.status.extractLsb' 4 4 = 0#4 ∧
    (t.status.extractLsb' 0 3, t.status.extractLsb' 3 1) ∈
      ([(0#3, 0#1), (1#3, 0#1), (2#3, 0#1), (3#3, 0#1), (4#3, 1#1), (5#3, 0#1), (6#3, 1#1)] :
        List (BitVec 3 × BitVec 1)) ∧
    ∃ (n : Nat) (r : Except EngineError Bytes), t = (s.afterDraw n).complete (encodeCmd i) r ∧
      (∀ v, r = .ok v → statusErr t.status = 0#3 ∧ statusClass t.status = 0#1) ∧
      (∀ e, r = .error e → statusErr t.status = errCode e ∧ statusClass t.status = errClass e)) ∧
  (errCode .unsupportedAlgorithm = 1#3 ∧ errCode .payloadTooLarge = 2#3 ∧ errCode .invalidEnvelope = 3#3 ∧
    errCode .padding = 4#3 ∧ errCode .format = 5#3 ∧ errCode .decryption = 6#3) ∧
  (errClass .unsupportedAlgorithm = 0#1 ∧ errClass .payloadTooLarge = 0#1 ∧ errClass .invalidEnvelope = 0#1 ∧
    errClass .padding = 1#1 ∧ errClass .format = 0#1 ∧ errClass .decryption = 1#1) ∧
  (∀ (s t : State) (key : RsaKey), hostStep (.reset key) s = .next t → t.status = 0x0000#16) ∧
  (∀ (s t : State) (key : RsaKey) (rest : List HostStep), s.host = .reset key :: rest → step s = .next t →
    t.status = 0x0000#16) ∧
  (∀ (x : HostStep) (s t : State), hostStep x s = .next t → t.status ≠ s.status →
    (∃ c, x = .issue c) ∨ ∃ key, x = .reset key)

/-- 60_exceptions.md section 1: which errors each command can end with; the four block-cipher encryptions cannot fail. -/
def Obligations.ErrorsOfEachCommand : Prop :=
  ∀ (i : Instr) (s t : State), exec i s = .next t →
    statusErr t.status = 0#3 ∨ ∃ e ∈ possibleErrors i, statusErr t.status = errCode e ∧ statusClass t.status = errClass e

/-- R57, and 60_exceptions.md section 4: a command never modifies its input, it writes nothing but `OUT`, `OUT_LEN` and
`STATUS`, and a failing command leaves no output. -/
def Obligations.CommandsWriteOnlyOutputAndStatus : Prop :=
  ∀ (i : Instr) (s t : State), exec i s = .next t →
    t.inBuf = s.inBuf ∧ t.inLen = s.inLen ∧ t.input = s.input ∧
    (∃ draws, CommandFrame s t draws) ∧
    (statusErr t.status ≠ 0#3 → OutputIs t [])

/-- R58: the admission of a command, the bound table, and the bound on what a command produces. -/
def Obligations.AdmissionBoundsOutput : Prop :=
  (∀ (cfg : Config) (len : Nat),
    outLenMax cfg .encbAes len = 16 * (len / 16) + 32 ∧ outLenMax cfg .encbDes len = 8 * (len / 8) + 16 ∧
    outLenMax cfg .enctAes len = 4 * ((16 * (len / 16) + 32 + 2) / 3) ∧
    outLenMax cfg .enctDes len = 4 * ((8 * (len / 8) + 16 + 2) / 3) ∧
    outLenMax cfg .enctRsa len = 4 * ((cfg.rsaK + 2) / 3) ∧
    ∀ i : Instr, i ≠ .encbAes → i ≠ .encbDes → i ≠ .enctAes → i ≠ .enctDes → i ≠ .enctRsa → outLenMax cfg i len = len) ∧
  (∀ (i : Instr) (s : State), s.Inv →
    (s.cfg.bufCap < outLenMax s.cfg i s.inLen → exec i s = .refused .outputTooLong) ∧
    (outLenMax s.cfg i s.inLen ≤ s.cfg.bufCap →
      ∃ t, exec i s = .next t ∧ t.outLen ≤ outLenMax s.cfg i s.inLen) ∧
    (∀ t, exec i s = .next t →
      fieldDir (encodeCmd i) = .decrypt ∨ statusErr t.status ≠ 0#3 → t.outLen ≤ s.inLen))

/-- R241: a command ends with `UnsupportedAlgorithmError` exactly when its pair is not in the capability matrix. -/
def Obligations.CapabilityMatrix : Prop :=
  (∀ (c : Byte) (s t : State), exec (decodeCmd c) s = .next t →
    (statusErr t.status = 1#3 ↔ ¬ supportedByte c = true)) ∧
  (∀ k : Kind, supportedPair k .aes = true ∧ supportedPair k .des = true ∧ supportedPair k .other = false) ∧
  supportedPair .text .rsa = true ∧ supportedPair .bytes .rsa = false

/-- R242: a command outside the supported pairs draws nothing, produces nothing, and its result does not depend on what
`IN` and `IN_LEN` hold. -/
def Obligations.UnsupportedCommandsIgnoreInput : Prop :=
  ∀ (c : Byte) (s : State) (m : Memory) (len : Nat), supportedByte c = false →
    s.inLen ≤ s.cfg.bufCap → len ≤ s.cfg.bufCap →
    ∃ t, exec (decodeCmd c) s = .next t ∧
      exec (decodeCmd c) { s with inBuf := m, inLen := len } = .next { t with inBuf := m, inLen := len } ∧
      t.entropy = s.entropy ∧ t.drawn = s.drawn ∧ OutputIs t [] ∧ statusErr t.status = 1#3

/-- 60_exceptions.md section 5: what an earlier command left in `OUT`, `OUT_LEN` and `STATUS` has no effect on the
next. -/
def Obligations.ResultsIgnoreEarlierResults : Prop :=
  ∀ (i : Instr) (s : State) (m : Memory) (len : Nat) (w : BitVec 16),
    exec i { s with outBuf := m, outLen := len, status := w } = exec i s

/-- R271: a failed command issued again on the same `IN` fails again in the same way, and a decrypt command gives the
same outcome again. -/
def Obligations.RetryGivesTheSameOutcome : Prop :=
  ∀ (i : Instr) (s t : State), exec i s = .next t →
    fieldDir (encodeCmd i) = .decrypt ∨ statusErr t.status ≠ 0#3 → exec i t = .next t

/-- R30: the result record after a successful text command, and the same view after a bytes command. Of the record after a
failed command, which log 22 is about, nothing is claimed. -/
def Obligations.ResultRecordAfterCommand : Prop :=
  ∀ (i : Instr) (s t : State), exec i s = .next t → statusErr t.status = 0#3 →
    t.resultRecord.encoded = t.output ∧ t.resultRecord.algorithm = fieldAlg (encodeCmd i) ∧
    (fieldDir (encodeCmd i) = .encrypt →
      t.resultRecord.originalLength = s.inLen ∧ t.resultRecord.encryptedLength = t.outLen) ∧
    (fieldDir (encodeCmd i) = .decrypt →
      t.resultRecord.encryptedLength = s.inLen ∧ t.resultRecord.originalLength = t.outLen)

/-! ### Invariants and reset -/

/-- Every step keeps the invariant of the machine, from every state that has it. That the buffers list only their valid
bytes is the model's form (log 7). -/
def Obligations.StepKeepsInv : Prop :=
  ∀ s t : State, s.Inv → step s = .next t → t.Inv

/-- The state after reset has the invariant, and its drawn keypair is valid. Its parameters and its pair are the model's
open values (logs 4, 5). -/
def Obligations.ResetHasInv : Prop :=
  State.reset.Inv ∧ State.reset.KeyValid

/-- 10_state.md section 3: the keypair registers satisfy `ValidRsaKey` from reset to reset: every step keeps it, and a reset
establishes it whatever the registers held. -/
def Obligations.StepKeepsKeyValid : Prop :=
  (∀ s t : State, s.KeyValid → step s = .next t → t.KeyValid) ∧
  (∀ (s t : State) (key : RsaKey) (rest : List HostStep), s.host = .reset key :: rest → step s = .next t → t.KeyValid)

/-- Every step keeps both buffers in canonical form, from every state in which they are; the form is the model's
(log 7). -/
def Obligations.StepKeepsMemoryCanonical : Prop :=
  (∀ s t : State, s.inBuf.wf = true → s.outBuf.wf = true → step s = .next t → t.inBuf.wf = true ∧ t.outBuf.wf = true) ∧
  State.reset.inBuf.wf = true ∧ State.reset.outBuf.wf = true

/-- 10_state.md section 3: no step but a reset writes a key register, and no HOST access reads one: with other key
material the access answers the same and changes the same. -/
def Obligations.KeysAreNeverWrittenOrRead : Prop :=
  (∀ s t : State, step s = .next t → (∀ (key : RsaKey) (rest : List HostStep), s.host ≠ .reset key :: rest) →
    SameKeys s t) ∧
  (∀ (x : HostStep) (s t : State) (a : BitVec 128) (b : BitVec 64) (n e d : Nat),
    (∀ c, x ≠ .issue c) → (∀ key, x ≠ .reset key) → hostStep x s = .next t →
    hostStep x { s with kAes := a, kDes := b, rsaN := n, rsaE := e, rsaD := d } =
      .next { t with kAes := a, kDes := b, rsaN := n, rsaE := e, rsaD := d })

/-- R45: what the step with a pending reset leaves in the registers and buffers, for any valid pair drawn; R290: reset is
the one event besides a command that changes what the ENGINE owns. That the reset leaves `host`, `replies`, `entropy` and
`drawn` as they were, and that every valid pair is the pair of some `RsaKey`, is the model's choice (log 6, DESIGN
CHOICE). -/
def Obligations.ResetSetsEveryRegister : Prop :=
  (∀ (s : State) (key : RsaKey) (rest : List HostStep), s.host = .reset key :: rest →
    key.e = s.cfg.rsaE → key.k = s.cfg.rsaK →
    ∃ t, step s = .next t ∧ hostStep (.reset key) { s with host := rest } = .next t ∧
      t.kAes = s.cfg.kAes ∧ t.kDes = s.cfg.kDes ∧ t.rsaE = s.cfg.rsaE ∧ t.rsaN = key.n ∧ t.rsaD = key.d ∧
      ValidRsaKey t.rsaN t.rsaE t.rsaD t.cfg.rsaK ∧
      t.cmd = 0x00#8 ∧ t.inLen = 0 ∧ t.outLen = 0 ∧ t.status = 0x0000#16 ∧
      (∀ a : Nat, t.inBuf.read a = none) ∧ (∀ a : Nat, t.outBuf.read a = none) ∧
      t.input = some [] ∧ t.output = some [] ∧ t.cfg = s.cfg ∧
      t.host = rest ∧ t.replies = s.replies ∧ t.entropy = s.entropy ∧ t.drawn = s.drawn) ∧
  (∀ (n d : Nat) (s : State), ValidRsaKey n s.cfg.rsaE d s.cfg.rsaK →
    ∃ key : RsaKey, key.n = n ∧ key.d = d ∧ key.e = s.cfg.rsaE ∧ key.k = s.cfg.rsaK) ∧
  (∀ s t : State, step s = .next t → (∀ (c : Byte) (rest : List HostStep), s.host ≠ .issue c :: rest) →
    (∀ (key : RsaKey) (rest : List HostStep), s.host ≠ .reset key :: rest) →
    SameKeys s t ∧ t.cmd = s.cmd ∧ t.outBuf = s.outBuf ∧ t.outLen = s.outLen ∧ t.status = s.status)

/-- R294: after reset any command may be the first, within the bound of R58 on the empty input; a capacity of 44 bytes
is within it for every command, and what `ENCB.AES` and `DECB.AES` then give. -/
def Obligations.AnyCommandMayBeFirstAfterReset : Prop :=
  ∀ (cfg : Config) (n d : Nat), cfg.Valid →
    (∀ c : Byte, outLenMax cfg (decodeCmd c) 0 ≤ cfg.bufCap →
      ∃ t, step { State.powerOn cfg n d with host := [.issue c] } = .next t) ∧
    (44 ≤ cfg.bufCap → ∀ c : Byte, outLenMax cfg (decodeCmd c) 0 ≤ cfg.bufCap) ∧
    (32 ≤ cfg.bufCap → ∃ t, step { State.powerOn cfg n d with host := [.issue 0x00#8] } = .next t ∧
      t.outLen = 32 ∧ t.status = 0x0000#16) ∧
    (∃ t, step { State.powerOn cfg n d with host := [.issue 0x04#8] } = .next t ∧
      OutputIs t [] ∧ t.status = 0x0403#16)

/-! ### Padding, framing, chaining -/

/-- R92: the laws of `PAD`, for every block size the codec is defined for. -/
def Obligations.PadLaws : Prop :=
  ∀ (data : Bytes) (bs : Nat), 1 ≤ bs → bs ≤ 255 →
    (pad data bs).length = bs * (data.length / bs + 1) ∧ bs ≤ (pad data bs).length ∧
    (pad data bs).length ≤ data.length + bs ∧ (pad data bs).take data.length = data ∧
    (pad data bs).getLast? = some (BitVec.ofNat 8 (bs - data.length % bs))

/-- R93: `UNPAD` accepts exactly the strings that end in `n` bytes of value `n` for some `n` from 1 to the block size, and
its only error is `PaddingError`. -/
def Obligations.UnpadAcceptsExactlyPaddings : Prop :=
  ∀ (p : Bytes) (bs : Nat), 1 ≤ bs → bs ≤ 255 →
    (∀ d : Bytes, unpad p bs = .ok d ↔ ∃ n, 1 ≤ n ∧ n ≤ bs ∧ p = d ++ List.replicate n (BitVec.ofNat 8 n)) ∧
    (∀ e, unpad p bs = .error e → e = .padding)

/-- R94: the round trip of the codec and exactly where its converse holds. -/
def Obligations.PadUnpadRoundTrip : Prop :=
  ∀ bs : Nat, bs = 8 ∨ bs = 16 →
    (∀ d : Bytes, unpad (pad d bs) bs = .ok d) ∧
    (∀ p : Bytes, (∃ d, unpad p bs = .ok d ∧ pad d bs = p) ↔ ((∃ d, unpad p bs = .ok d) ∧ p.length % bs = 0))

/-- R108: an envelope is accepted exactly when its length is `bs*(m+1)` for some `m >= 1`, and is split at the block
size. -/
def Obligations.UnmarshalAcceptsExactlyFramed : Prop :=
  ∀ (env : Bytes) (bs : Nat), 0 < bs →
    (∀ iv c : Bytes, unmarshal env bs = .ok (iv, c) ↔
      (∃ m, 1 ≤ m ∧ env.length = bs * (m + 1)) ∧ iv = env.take bs ∧ c = env.drop bs) ∧
    ((¬ ∃ m, 1 ≤ m ∧ env.length = bs * (m + 1)) → unmarshal env bs = .error .invalidEnvelope)

/-- 41_block_cipher.md section 3, the law of `CBC_DEC`: it inverts `CBC_ENC` for every key and every IV. -/
def Obligations.CbcDecInvertsCbcEnc : Prop :=
  ∀ (alg : BlockAlg) (k iv p : Bytes) (m : Nat),
    k.length = keySize alg → iv.length = blockSize alg → p.length = m * blockSize alg →
    cbcDec alg k iv (cbcEnc alg k iv p) = p

/-- R111: an envelope with one byte changed, in the ciphertext or in the IV, decrypts to `PaddingError` or to other
bytes. -/
def Obligations.TamperingNeverGivesTheOriginal : Prop :=
  ∀ (alg : BlockAlg) (k iv data : Bytes) (i : Nat) (x : Byte),
    k.length = keySize alg → iv.length = blockSize alg →
    i < (encBlock alg k iv data).length → (encBlock alg k iv data)[i]? ≠ some x →
    decBlock alg k ((encBlock alg k iv data).set i x) = .error .padding ∨
    ∃ d, decBlock alg k ((encBlock alg k iv data).set i x) = .ok d ∧ d ≠ data

/-- R112, R299: for both block ciphers and both kinds, a decrypt command inverts an encrypt command for every input and
every IV drawn, in the same power cycle or in another of an instance with the same parameters. -/
def Obligations.BlockCipherRoundTrip : Prop :=
  ∀ (kind : Kind) (alg : BlockAlg) (s t u : State) (b : Bytes), s.Inv → u.Inv → u.cfg = s.cfg → s.input = some b →
    exec (encCommand kind alg) s = .next t → u.input = t.output →
    ∃ v, exec (decCommand kind alg) u = .next v ∧ OutputIs v b ∧ statusErr v.status = 0#3

/-- 41_block_cipher.md section 5 and 10_state.md section 8: under RNG_FRESH two encryptions of one input in one power
cycle give different outputs. -/
def Obligations.FreshDrawsGiveDistinctEnvelopes : Prop :=
  ∀ (s t u : State) (c : Byte) (rest : List HostStep), s.Inv → RngFresh s →
    c = 0x00#8 ∨ c = 0x01#8 ∨ c = 0x08#8 ∨ c = 0x09#8 → s.host = .issue c :: .issue c :: rest →
    step s = .next t → step t = .next u → t.output ≠ u.output

/-- R243: the bytes and the text commands share one engine: text decryption of an encoded envelope and bytes decryption of
the envelope end alike, and text encryption gives the encoding of what bytes encryption gives. -/
def Obligations.TextAndBytesShareOneEngine : Prop :=
  ∀ (alg : BlockAlg) (s s' : State) (env : Bytes), s.Inv → s'.Inv → s'.cfg = s.cfg →
    (s.input = some (b64Enc env) → s'.input = some env →
      ∃ t t', exec (decCommand .text alg) s = .next t ∧ exec (decCommand .bytes alg) s' = .next t' ∧
        t.output = t'.output ∧ statusErr t.status = statusErr t'.status) ∧
    (∀ t t', s.input = s'.input → s.entropy = s'.entropy → s.drawn = s'.drawn →
      exec (encCommand .text alg) s = .next t → exec (encCommand .bytes alg) s' = .next t' →
      t.output = t'.output.map b64Enc)

/-! ### The primitives -/

/-- R133, R134: the two tables are the formula and its inverse. -/
def Obligations.SboxTablesMeetTheirFormula : Prop :=
  (∀ a : Byte, sbox a = sboxFormula a) ∧ (∀ a : Byte, invSbox (sbox a) = a)

/-- R141: the AES-128 block functions are inverse to each other under every key. -/
def Obligations.AesBlockFunctionsAreInverse : Prop :=
  ∀ k x : Bytes, k.length = 16 → x.length = 16 →
    aes128Dec k (aes128Enc k x) = x ∧ aes128Enc k (aes128Dec k x) = x

/-- R160: the DES block functions are inverse to each other under every key, the parity bits do not matter, and the weak
key of the rule makes encryption its own inverse. -/
def Obligations.DesBlockFunctionsAreInverse : Prop :=
  (∀ k x : Bytes, k.length = 8 → x.length = 8 → desDec k (desEnc k x) = x ∧ desEnc k (desDec k x) = x) ∧
  (∀ k k' x : Bytes, k.length = 8 → k'.length = 8 →
    k.map (fun b => b &&& 0xFE#8) = k'.map (fun b => b &&& 0xFE#8) → desEnc k x = desEnc k' x ∧ desDec k x = desDec k' x) ∧
  (∀ x : Bytes, x.length = 8 → desEnc (List.replicate 8 0x01#8) (desEnc (List.replicate 8 0x01#8) x) = x)

/-- R172, R173: the big-endian conversions and their round trips. -/
def Obligations.OctetStringConversions : Prop :=
  (∀ b : Bytes, os2ip b = ∑ i ∈ Finset.range b.length, (b.getD i 0#8).toNat * 256 ^ (b.length - 1 - i)) ∧
  (∀ x len i : Nat, x < 256 ^ len → i < len →
    (i2osp x len).length = len ∧ (i2osp x len)[i]? = some (BitVec.ofNat 8 (x / 256 ^ (len - 1 - i) % 256))) ∧
  (∀ x len : Nat, x < 256 ^ len → os2ip (i2osp x len) = x) ∧
  (∀ b : Bytes, i2osp (os2ip b) b.length = b)

/-- R174, R175: the RSA primitives are modular powers. -/
def Obligations.RsaPrimitivesAreModularPowers : Prop :=
  ∀ n e d m : Nat, m < n → rsaep n e m = m ^ e % n ∧ rsadp n d m = m ^ d % n

/-- R171: under a valid key the two primitives are inverse to each other. -/
def Obligations.RsaKeyLaw : Prop :=
  ∀ n e d k : Nat, ValidRsaKey n e d k → ∀ m : Nat, m < n →
    rsadp n d (rsaep n e m) = m ∧ rsaep n e (rsadp n d m) = m

/-- 44_public_key.md section 3, the law of `OAEP_DECODE`: it inverts `OAEP_ENCODE` for every message within the capacity
and every seed. `0 < HLEN` is DEDUCED (log 12). -/
def Obligations.OaepDecodeInvertsEncode : Prop :=
  ∀ (h : HashAlg) (k : Nat) (m seed : Bytes), 0 < h.hLen → 2 * h.hLen + 2 ≤ k → m.length ≤ k - 2 * h.hLen - 2 →
    seed.length = h.hLen →
    (oaepEncode h k m seed).length = k ∧ oaepDecode h k (oaepEncode h k m seed) = .ok m

/-- R183: an RSA ciphertext has `RSA_K` bytes whatever the plaintext, and is the big-endian form of a number below the
modulus. -/
def Obligations.RsaCiphertextFormat : Prop :=
  ∀ (h : HashAlg) (k n e : Nat) (m seed : Bytes), 2 ^ (8 * k - 1) ≤ n → n < 2 ^ (8 * k) →
    (rsaEncryptSeeded h k n e m seed).length = k ∧ os2ip (rsaEncryptSeeded h k n e m seed) < n ∧
    os2ip (rsaEncryptSeeded h k n e m seed) = os2ip (oaepEncode h k m seed) ^ e % n

/-- R185: within one power cycle `DECT.RSA` inverts `ENCT.RSA` for every message within the capacity and every seed
drawn. -/
def Obligations.RsaRoundTrip : Prop :=
  ∀ (s t u : State) (m : Bytes), s.Inv → u.Inv → s.KeyValid → SameKeys s u → s.input = some m →
    m.length ≤ s.cfg.rsaMax → exec .enctRsa s = .next t → u.input = t.output →
    ∃ v, exec .dectRsa u = .next v ∧ OutputIs v m ∧ v.status = 0x0E00#16

/-- R213, R214: the codec is a bijection onto the strings it accepts, its only error is `FormatError`, and its lengths. -/
def Obligations.Radix64Bijection : Prop :=
  (∀ b : Bytes, b64Dec (b64Enc b) = .ok b) ∧
  (∀ t b : Bytes, b64Dec t = .ok b → b64Enc b = t) ∧
  (∀ (t : Bytes) (e : EngineError), b64Dec t = .error e → e = .format) ∧
  (∀ b : Bytes, (b64Enc b).length = 4 * ((b.length + 2) / 3)) ∧
  (∀ t b : Bytes, b64Dec t = .ok b → b.length = 3 * t.length / 4 - t.count padByte)
end

