-- ==== Sys2Proof/Laws/ByteString.lean ====
section
/-! SUPPORT. Lengths and algebra of byte strings, and the lengths of what the engines return. -/

namespace Sys2Proof.Machine

@[simp] theorem xorBytes_length (a b : Bytes) : (xorBytes a b).length = min a.length b.length := by simp [xorBytes]

@[simp] theorem rep_length (v : Byte) (n : Nat) : (rep v n).length = n := by simp [rep]

@[simp] theorem slice_length (b : Bytes) (i j : Nat) : (slice b i j).length = min (j - i) (b.length - i) := by
  simp [slice]

@[simp] theorem i2osp_length (x n : Nat) : (i2osp x n).length = n := by simp [i2osp]

@[simp] theorem regBytes_length {w : Nat} (r : BitVec w) (n : Nat) : (regBytes r n).length = n := by simp [regBytes]

@[simp] theorem blocks_length (n : Nat) (b : Bytes) : (blocks n b).length = b.length / n := by simp [blocks]

theorem xorBytes_comm (a b : Bytes) : xorBytes a b = xorBytes b a := by
  unfold xorBytes
  rw [List.zipWith_comm]
  simp [BitVec.xor_comm]

/-- Exclusive or with the same string twice gives back what the string covers. -/
theorem xorBytes_cancel (a b : Bytes) (h : a.length ≤ b.length) : xorBytes (xorBytes a b) b = a := by
  apply List.ext_getElem
  · simp [h]
  · intro i h1 h2
    simp [xorBytes]

/-- A block of the engine is a group of `bs` bytes. -/
theorem length_of_mem_blocks (n : Nat) (b g : Bytes) (h : g ∈ blocks n b) : g.length = n := by
  simp only [blocks, List.mem_map, List.mem_range] at h
  obtain ⟨j, hj, rfl⟩ := h
  have h1 : (j + 1) * n ≤ b.length / n * n := Nat.mul_le_mul_right n hj
  have h2 : b.length / n * n ≤ b.length := Nat.div_mul_le_self _ _
  have h3 : (j + 1) * n = j * n + n := by ring
  rw [slice_length]
  omega

/-- The groups of a string that is a whole number of groups are that string. -/
theorem flatten_blocks (n m : Nat) (b : Bytes) (hn : 0 < n) (h : b.length = m * n) : (blocks n b).flatten = b := by
  have hm : b.length / n = m := by rw [h]; exact Nat.mul_div_cancel m hn
  unfold blocks
  rw [hm]
  clear hm
  induction m generalizing b with
  | zero => simp_all
  | succ m ih =>
    rw [List.range_succ_eq_map, List.map_cons, List.flatten_cons, List.map_map]
    have h' : (b.drop n).length = m * n := by rw [List.length_drop, h]; rw [Nat.succ_mul]; omega
    have key : List.map ((fun j => slice b (j * n) (j * n + n)) ∘ Nat.succ) (List.range m) =
        List.map (fun j => slice (b.drop n) (j * n) (j * n + n)) (List.range m) := by
      apply List.map_congr_left
      intro j _
      simp only [Function.comp, slice, List.drop_drop, Nat.succ_mul]
      rw [Nat.add_comm n (j * n)]
      congr 1
      omega
    rw [key, ih (b.drop n) h']
    simp [slice]

@[simp] theorem cbcEncBlocks_length (enc : Bytes → Bytes) (iv : Bytes) (ps : List Bytes) :
    (cbcEncBlocks enc iv ps).length = ps.length := by
  induction ps generalizing iv with
  | nil => rfl
  | cons p ps ih => simp [cbcEncBlocks, ih]

@[simp] theorem cbcDecBlocks_length (dec : Bytes → Bytes) (iv : Bytes) (cs : List Bytes) :
    (cbcDecBlocks dec iv cs).length = cs.length := by
  induction cs generalizing iv with
  | nil => rfl
  | cons c cs ih => simp [cbcDecBlocks, ih]

@[simp] theorem shiftRows_length (s : Bytes) : (shiftRows s).length = 16 := by simp [shiftRows]

@[simp] theorem invShiftRows_length (s : Bytes) : (invShiftRows s).length = 16 := by simp [invShiftRows]

@[simp] theorem subBytes_length (s : Bytes) : (subBytes s).length = s.length := by simp [subBytes]

@[simp] theorem invSubBytes_length (s : Bytes) : (invSubBytes s).length = s.length := by simp [invSubBytes]

@[simp] theorem desEnc_length (k x : Bytes) : (desEnc k x).length = 8 := by simp [desEnc, bytesOfBits]

@[simp] theorem desDec_length (k x : Bytes) : (desDec k x).length = 8 := by simp [desDec, bytesOfBits]

/-- What the key schedule builds: words of four bytes, as many as asked for. -/
theorem keyWords_shape (n i : Nat) (ws : List Bytes) (h4 : 4 ≤ ws.length) (hw : ∀ w ∈ ws, w.length = 4) :
    (keyWords n i ws).length = ws.length + n ∧ ∀ w ∈ keyWords n i ws, w.length = 4 := by
  induction n generalizing i ws with
  | zero => simpa [keyWords] using hw
  | succ n ih =>
    have get4 : ∀ j < 4, (ws.getD j []).length = 4 := fun j hj => by
      have hlt : j < ws.length := by omega
      rw [List.getD_eq_getElem _ _ hlt]
      exact hw _ (List.getElem_mem hlt)
    have hrot : ∀ w : Bytes, w.length = 4 → (rotWord w).length = 4 := fun w hw4 => by
      cases w with
      | nil => simp at hw4
      | cons a w => simp [rotWord] at *; exact hw4
    have hmix : (keyWordMix i (ws.getD 0 [])).length = 4 := by
      unfold keyWordMix
      split
      · rw [xorBytes_length, List.length_map, hrot _ (get4 0 (by omega))]; rfl
      · exact get4 0 (by omega)
    have hnew : (xorBytes (ws.getD 3 []) (keyWordMix i (ws.getD 0 []))).length = 4 := by
      rw [xorBytes_length, get4 3 (by omega), hmix]; rfl
    have := ih (i + 1) (xorBytes (ws.getD 3 []) (keyWordMix i (ws.getD 0 [])) :: ws) (by simp; omega)
      (by intro w hw'; rcases List.mem_cons.1 hw' with rfl | h; exacts [hnew, hw w h])
    unfold keyWords
    refine ⟨?_, this.2⟩
    rw [this.1]
    simp
    omega

/-- Every round key of a 16-byte key has 16 bytes. -/
theorem aesRoundKey_length (k : Bytes) (r : Nat) (hk : k.length = 16) (hr : r ≤ 10) : (aesRoundKey k r).length = 16 := by
  have h0 : (blocks 4 k).reverse.length = 4 := by simp [hk]
  have hs := keyWords_shape 40 4 (blocks 4 k).reverse (by omega)
    (fun w hw => length_of_mem_blocks 4 k w (List.mem_reverse.1 hw))
  have hlen : (((aesKeyWords k).drop (4 * r)).take 4).length = 4 := by
    simp only [aesKeyWords, List.length_take, List.length_drop, hs.1, h0]
    omega
  have hall : ∀ w ∈ ((aesKeyWords k).drop (4 * r)).take 4, w.length = 4 := fun w hw =>
    hs.2 w (List.mem_of_mem_drop (List.mem_of_mem_take hw))
  unfold aesRoundKey
  generalize ((aesKeyWords k).drop (4 * r)).take 4 = l at *
  match l, hlen with
  | [a, b, c, d], _ =>
    simp only [List.mem_cons, List.not_mem_nil, or_false, forall_eq_or_imp, forall_eq] at hall
    simp [hall]

/-- `AES128_ENC` of any block under a 16-byte key has 16 bytes. -/
@[simp] theorem aes128Enc_length (k x : Bytes) (hk : k.length = 16) : (aes128Enc k x).length = 16 := by
  simp [aes128Enc, addRoundKey, aesRoundKey_length k 10 hk]

/-- `AES128_DEC` of any block under a 16-byte key has 16 bytes. -/
@[simp] theorem aes128Dec_length (k x : Bytes) (hk : k.length = 16) : (aes128Dec k x).length = 16 := by
  simp [aes128Dec, addRoundKey, aesRoundKey_length k 0 hk]

@[simp] theorem sha1_length (m : Bytes) : (sha1 m).length = 20 := by simp [sha1]

@[simp] theorem hashBytes_length (h : HashAlg) (m : Bytes) : (hashBytes h m).length = h.hLen := by
  cases h <;> simp [hashBytes, HashAlg.hLen]

end Sys2Proof.Machine
end

