-- ==== Sys2Proof/Laws/State.lean ====
section
/-! SUPPORT. One lemma per field per update of the state. -/

namespace Sys2Proof.Machine

section loadIn

variable (s : State) (b : Bytes)

@[simp] theorem State.loadIn_cfg : (s.loadIn b).cfg = s.cfg := rfl
@[simp] theorem State.loadIn_kAes : (s.loadIn b).kAes = s.kAes := rfl
@[simp] theorem State.loadIn_kDes : (s.loadIn b).kDes = s.kDes := rfl
@[simp] theorem State.loadIn_rsaN : (s.loadIn b).rsaN = s.rsaN := rfl
@[simp] theorem State.loadIn_rsaE : (s.loadIn b).rsaE = s.rsaE := rfl
@[simp] theorem State.loadIn_rsaD : (s.loadIn b).rsaD = s.rsaD := rfl
@[simp] theorem State.loadIn_cmd : (s.loadIn b).cmd = s.cmd := rfl
@[simp] theorem State.loadIn_inLen : (s.loadIn b).inLen = b.length := rfl
@[simp] theorem State.loadIn_inBuf : (s.loadIn b).inBuf = Memory.ofBytes b := rfl
@[simp] theorem State.loadIn_outLen : (s.loadIn b).outLen = s.outLen := rfl
@[simp] theorem State.loadIn_outBuf : (s.loadIn b).outBuf = s.outBuf := rfl
@[simp] theorem State.loadIn_status : (s.loadIn b).status = s.status := rfl
@[simp] theorem State.loadIn_entropy : (s.loadIn b).entropy = s.entropy := rfl
@[simp] theorem State.loadIn_drawn : (s.loadIn b).drawn = s.drawn := rfl
@[simp] theorem State.loadIn_host : (s.loadIn b).host = s.host := rfl
@[simp] theorem State.loadIn_replies : (s.loadIn b).replies = s.replies := rfl

end loadIn

section setOut

variable (s : State) (v : Bytes)

@[simp] theorem State.setOut_cfg : (s.setOut v).cfg = s.cfg := rfl
@[simp] theorem State.setOut_kAes : (s.setOut v).kAes = s.kAes := rfl
@[simp] theorem State.setOut_kDes : (s.setOut v).kDes = s.kDes := rfl
@[simp] theorem State.setOut_rsaN : (s.setOut v).rsaN = s.rsaN := rfl
@[simp] theorem State.setOut_rsaE : (s.setOut v).rsaE = s.rsaE := rfl
@[simp] theorem State.setOut_rsaD : (s.setOut v).rsaD = s.rsaD := rfl
@[simp] theorem State.setOut_cmd : (s.setOut v).cmd = s.cmd := rfl
@[simp] theorem State.setOut_inLen : (s.setOut v).inLen = s.inLen := rfl
@[simp] theorem State.setOut_inBuf : (s.setOut v).inBuf = s.inBuf := rfl
@[simp] theorem State.setOut_outLen : (s.setOut v).outLen = v.length := rfl
@[simp] theorem State.setOut_outBuf : (s.setOut v).outBuf = Memory.ofBytes v := rfl
@[simp] theorem State.setOut_status : (s.setOut v).status = s.status := rfl
@[simp] theorem State.setOut_entropy : (s.setOut v).entropy = s.entropy := rfl
@[simp] theorem State.setOut_drawn : (s.setOut v).drawn = s.drawn := rfl
@[simp] theorem State.setOut_host : (s.setOut v).host = s.host := rfl
@[simp] theorem State.setOut_replies : (s.setOut v).replies = s.replies := rfl

end setOut

section afterDraw

variable (s : State) (n : Nat)

@[simp] theorem State.afterDraw_cfg : (s.afterDraw n).cfg = s.cfg := rfl
@[simp] theorem State.afterDraw_kAes : (s.afterDraw n).kAes = s.kAes := rfl
@[simp] theorem State.afterDraw_kDes : (s.afterDraw n).kDes = s.kDes := rfl
@[simp] theorem State.afterDraw_rsaN : (s.afterDraw n).rsaN = s.rsaN := rfl
@[simp] theorem State.afterDraw_rsaE : (s.afterDraw n).rsaE = s.rsaE := rfl
@[simp] theorem State.afterDraw_rsaD : (s.afterDraw n).rsaD = s.rsaD := rfl
@[simp] theorem State.afterDraw_cmd : (s.afterDraw n).cmd = s.cmd := rfl
@[simp] theorem State.afterDraw_inLen : (s.afterDraw n).inLen = s.inLen := rfl
@[simp] theorem State.afterDraw_inBuf : (s.afterDraw n).inBuf = s.inBuf := rfl
@[simp] theorem State.afterDraw_outLen : (s.afterDraw n).outLen = s.outLen := rfl
@[simp] theorem State.afterDraw_outBuf : (s.afterDraw n).outBuf = s.outBuf := rfl
@[simp] theorem State.afterDraw_status : (s.afterDraw n).status = s.status := rfl
@[simp] theorem State.afterDraw_entropy : (s.afterDraw n).entropy = s.entropy.drop n := rfl
@[simp] theorem State.afterDraw_drawn : (s.afterDraw n).drawn = s.drawn + n := rfl
@[simp] theorem State.afterDraw_host : (s.afterDraw n).host = s.host := rfl
@[simp] theorem State.afterDraw_replies : (s.afterDraw n).replies = s.replies := rfl

end afterDraw

section reply

variable (s : State) (r : Reply)

@[simp] theorem State.reply_cfg : (s.reply r).cfg = s.cfg := rfl
@[simp] theorem State.reply_kAes : (s.reply r).kAes = s.kAes := rfl
@[simp] theorem State.reply_kDes : (s.reply r).kDes = s.kDes := rfl
@[simp] theorem State.reply_rsaN : (s.reply r).rsaN = s.rsaN := rfl
@[simp] theorem State.reply_rsaE : (s.reply r).rsaE = s.rsaE := rfl
@[simp] theorem State.reply_rsaD : (s.reply r).rsaD = s.rsaD := rfl
@[simp] theorem State.reply_cmd : (s.reply r).cmd = s.cmd := rfl
@[simp] theorem State.reply_inLen : (s.reply r).inLen = s.inLen := rfl
@[simp] theorem State.reply_inBuf : (s.reply r).inBuf = s.inBuf := rfl
@[simp] theorem State.reply_outLen : (s.reply r).outLen = s.outLen := rfl
@[simp] theorem State.reply_outBuf : (s.reply r).outBuf = s.outBuf := rfl
@[simp] theorem State.reply_status : (s.reply r).status = s.status := rfl
@[simp] theorem State.reply_entropy : (s.reply r).entropy = s.entropy := rfl
@[simp] theorem State.reply_drawn : (s.reply r).drawn = s.drawn := rfl
@[simp] theorem State.reply_host : (s.reply r).host = s.host := rfl
@[simp] theorem State.reply_replies : (s.reply r).replies = s.replies ++ [r] := rfl

end reply

section resetTo

variable (s : State) (n d : Nat)

@[simp] theorem State.resetTo_cfg : (s.resetTo n d).cfg = s.cfg := rfl
@[simp] theorem State.resetTo_kAes : (s.resetTo n d).kAes = s.cfg.kAes := rfl
@[simp] theorem State.resetTo_kDes : (s.resetTo n d).kDes = s.cfg.kDes := rfl
@[simp] theorem State.resetTo_rsaN : (s.resetTo n d).rsaN = n := rfl
@[simp] theorem State.resetTo_rsaE : (s.resetTo n d).rsaE = s.cfg.rsaE := rfl
@[simp] theorem State.resetTo_rsaD : (s.resetTo n d).rsaD = d := rfl
@[simp] theorem State.resetTo_cmd : (s.resetTo n d).cmd = 0x00#8 := rfl
@[simp] theorem State.resetTo_inLen : (s.resetTo n d).inLen = 0 := rfl
@[simp] theorem State.resetTo_inBuf : (s.resetTo n d).inBuf = [] := rfl
@[simp] theorem State.resetTo_outLen : (s.resetTo n d).outLen = 0 := rfl
@[simp] theorem State.resetTo_outBuf : (s.resetTo n d).outBuf = [] := rfl
@[simp] theorem State.resetTo_status : (s.resetTo n d).status = 0x0000#16 := rfl
@[simp] theorem State.resetTo_entropy : (s.resetTo n d).entropy = s.entropy := rfl
@[simp] theorem State.resetTo_drawn : (s.resetTo n d).drawn = s.drawn := rfl
@[simp] theorem State.resetTo_host : (s.resetTo n d).host = s.host := rfl
@[simp] theorem State.resetTo_replies : (s.resetTo n d).replies = s.replies := rfl

end resetTo

section complete

variable (s : State) (ctx : Byte) (r : Except EngineError Bytes)

@[simp] theorem State.complete_cfg : (s.complete ctx r).cfg = s.cfg := by cases r <;> rfl
@[simp] theorem State.complete_kAes : (s.complete ctx r).kAes = s.kAes := by cases r <;> rfl
@[simp] theorem State.complete_kDes : (s.complete ctx r).kDes = s.kDes := by cases r <;> rfl
@[simp] theorem State.complete_rsaN : (s.complete ctx r).rsaN = s.rsaN := by cases r <;> rfl
@[simp] theorem State.complete_rsaE : (s.complete ctx r).rsaE = s.rsaE := by cases r <;> rfl
@[simp] theorem State.complete_rsaD : (s.complete ctx r).rsaD = s.rsaD := by cases r <;> rfl
@[simp] theorem State.complete_cmd : (s.complete ctx r).cmd = s.cmd := by cases r <;> rfl
@[simp] theorem State.complete_inLen : (s.complete ctx r).inLen = s.inLen := by cases r <;> rfl
@[simp] theorem State.complete_inBuf : (s.complete ctx r).inBuf = s.inBuf := by cases r <;> rfl
@[simp] theorem State.complete_entropy : (s.complete ctx r).entropy = s.entropy := by cases r <;> rfl
@[simp] theorem State.complete_drawn : (s.complete ctx r).drawn = s.drawn := by cases r <;> rfl
@[simp] theorem State.complete_host : (s.complete ctx r).host = s.host := by cases r <;> rfl
@[simp] theorem State.complete_replies : (s.complete ctx r).replies = s.replies := by cases r <;> rfl

@[simp] theorem State.complete_ok_outBuf (v : Bytes) : (s.complete ctx (.ok v)).outBuf = Memory.ofBytes v := rfl
@[simp] theorem State.complete_ok_outLen (v : Bytes) : (s.complete ctx (.ok v)).outLen = v.length := rfl
@[simp] theorem State.complete_ok_status (v : Bytes) : (s.complete ctx (.ok v)).status = statusSuccess ctx := rfl
@[simp] theorem State.complete_error_outBuf (e : EngineError) : (s.complete ctx (.error e)).outBuf = [] := rfl
@[simp] theorem State.complete_error_outLen (e : EngineError) : (s.complete ctx (.error e)).outLen = 0 := rfl
@[simp] theorem State.complete_error_status (e : EngineError) :
    (s.complete ctx (.error e)).status = statusFailure ctx e := rfl

end complete

/-- Completion writes the status and the output only: what they were before leaves no trace. -/
theorem State.complete_forgets (s : State) (ctx : Byte) (r : Except EngineError Bytes) (m : Memory) (l : Nat)
    (w : BitVec 16) :
    ({ s with outBuf := m, outLen := l, status := w } : State).complete ctx r = s.complete ctx r := by
  cases r <;> rfl

@[simp] theorem State.afterDraw_zero (s : State) : s.afterDraw 0 = s := rfl

theorem State.afterDraw_afterDraw (s : State) (m n : Nat) : (s.afterDraw m).afterDraw n = s.afterDraw (m + n) := by
  simp [State.afterDraw, Nat.add_assoc]

/-- The bytes drawn after `m` others are the later bytes of one longer draw. -/
theorem State.draw_afterDraw (s : State) (m n : Nat) : (s.afterDraw m).draw n = (s.draw (m + n)).drop m := by
  apply List.ext_getElem <;> simp [State.draw, State.entropyByte, Nat.add_assoc]

@[simp] theorem State.draw_length (s : State) (n : Nat) : (s.draw n).length = n := by simp [State.draw]

/-- A draw that the answers in the state cover returns them. -/
theorem State.draw_of_entropy (s : State) (n : Nat) (h : n ≤ s.entropy.length) : s.draw n = s.entropy.take n := by
  apply List.ext_getElem
  · simp [h]
  · intro i h1 h2
    have h3 : i < s.entropy.length := by simp at h2; omega
    simp [State.draw, State.entropyByte, h3]

end Sys2Proof.Machine
end

