-- ==== Sys2Proof/Laws/Memory.lean ====
section
/-! SUPPORT. The laws of memory: reading what was written, leaving the rest alone, and the canonical form. -/

namespace Sys2Proof.Machine

/-! ### The cells of a byte string -/

theorem Memory.read_cellsFrom (v : Bytes) (a x : Nat) :
    Memory.read (Memory.cellsFrom a v) x = if a ≤ x then v[x - a]? else none := by
  induction v generalizing a with
  | nil => simp [Memory.cellsFrom, Memory.read]
  | cons b v ih =>
    simp only [Memory.cellsFrom, Memory.read, ih]
    by_cases h : a = x
    · simp [h]
    · by_cases h2 : a ≤ x
      · have h3 : a + 1 ≤ x := by omega
        have h4 : x - a = x - (a + 1) + 1 := by omega
        simp [h, h2, h3, h4]
      · have h3 : ¬ a + 1 ≤ x := by omega
        simp [h, h2, h3]

theorem Memory.cellsFrom_bounds (v : Bytes) (a : Nat) :
    ∀ c ∈ Memory.cellsFrom a v, a ≤ c.1 ∧ c.1 < a + v.length := by
  induction v generalizing a with
  | nil => simp [Memory.cellsFrom]
  | cons b v ih =>
    intro c hc
    rcases List.mem_cons.1 hc with rfl | hc
    · simp
    · have := ih (a + 1) c hc
      simp only [List.length_cons]
      omega

@[simp] theorem Memory.cellsFrom_length (v : Bytes) (a : Nat) : (Memory.cellsFrom a v).length = v.length := by
  induction v generalizing a with
  | nil => rfl
  | cons b v ih => simp [Memory.cellsFrom, ih]

theorem Memory.ofBytes_eq (v : Bytes) : Memory.ofBytes v = Memory.cellsFrom 0 v := by
  simp [Memory.ofBytes, Memory.writeBytes]

/-- A space that holds exactly `v` reads at every address as `v` does at that index. -/
@[simp] theorem Memory.read_ofBytes (v : Bytes) (a : Nat) : Memory.read (Memory.ofBytes v) a = v[a]? := by
  simp [Memory.ofBytes_eq, Memory.read_cellsFrom]

@[simp] theorem Memory.read_nil (a : Nat) : Memory.read [] a = none := rfl

@[simp] theorem Memory.ofBytes_nil : Memory.ofBytes [] = [] := rfl

/-! ### Runs of bytes -/

theorem Memory.readBytes_length (m : Memory) (a n : Nat) (b : Bytes) (h : Memory.readBytes m a n = some b) :
    b.length = n := by
  induction n generalizing a b with
  | zero => simp_all [Memory.readBytes]
  | succ n ih =>
    unfold Memory.readBytes at h
    split at h
    · next b' bs _ h2 => cases h; simp [ih _ _ h2]
    · cases h

/-- A run is readable exactly when every byte of it is, and it is those bytes. -/
theorem Memory.readBytes_eq_some_iff (m : Memory) (a n : Nat) (b : Bytes) :
    Memory.readBytes m a n = some b ↔ b.length = n ∧ ∀ i < n, Memory.read m (a + i) = b[i]? := by
  induction n generalizing a b with
  | zero => cases b <;> simp [Memory.readBytes]
  | succ n ih =>
    unfold Memory.readBytes
    cases b with
    | nil => split <;> simp
    | cons x xs =>
      have key : (∀ i < n + 1, Memory.read m (a + i) = (x :: xs)[i]?) ↔
          Memory.read m a = some x ∧ ∀ i < n, Memory.read m (a + 1 + i) = xs[i]? := by
        constructor
        · intro h
          exact ⟨by simpa using h 0 (by omega), fun i hi => by
            have := h (i + 1) (by omega)
            rw [show a + 1 + i = a + (i + 1) by omega]
            simpa using this⟩
        · rintro ⟨h0, h⟩ i hi
          cases i with
          | zero => simpa using h0
          | succ i =>
            rw [show a + (i + 1) = a + 1 + i by omega]
            simpa using h i (by omega)
      rw [key]
      split
      · next b' bs h1 h2 =>
        have := (ih (a + 1) xs)
        simp only [Option.some.injEq, List.cons.injEq, List.length_cons, Nat.add_right_cancel_iff]
        rw [h2] at this
        simp only [Option.some.injEq] at this
        rw [h1]
        simp only [Option.some.injEq]
        rw [this]
        tauto
      · next h =>
        simp only [reduceCtorEq, List.length_cons, Nat.add_right_cancel_iff, false_iff, not_and]
        intro hl h1 h2
        exact h x xs h1 ((ih (a + 1) xs).2 ⟨hl, h2⟩)

/-- Reading back the whole of what a space was made to hold. -/
@[simp] theorem Memory.readBytes_ofBytes (v : Bytes) : Memory.readBytes (Memory.ofBytes v) 0 v.length = some v := by
  rw [Memory.readBytes_eq_some_iff]
  simp

/-! ### Writes -/

theorem Memory.read_append (m m' : Memory) (x : Nat) :
    Memory.read (m ++ m') x = (Memory.read m x).or (Memory.read m' x) := by
  induction m with
  | nil => simp
  | cons c m ih =>
    simp only [List.cons_append, Memory.read, ih]
    split <;> simp

theorem Memory.read_filter (m : Memory) (p : Nat → Bool) (x : Nat) :
    Memory.read (m.filter fun c => p c.1) x = if p x then Memory.read m x else none := by
  induction m with
  | nil => simp
  | cons c m ih =>
    simp only [List.filter_cons]
    by_cases hc : p c.1
    · simp only [hc, if_true, Memory.read, ih]
      by_cases h : c.1 = x
      · simp [h, h ▸ hc]
      · simp [h]
    · simp only [hc, Bool.false_eq_true, if_false, Memory.read, ih]
      by_cases h : c.1 = x
      · subst h; simp [hc]
      · simp [h]

/-- A write is read back inside the written bytes and leaves every other address alone. -/
theorem Memory.read_writeBytes (m : Memory) (a : Nat) (v : Bytes) (x : Nat) :
    Memory.read (Memory.writeBytes m a v) x =
      if a ≤ x ∧ x < a + v.length then v[x - a]? else Memory.read m x := by
  unfold Memory.writeBytes
  rw [Memory.read_append, Memory.read_append, Memory.read_cellsFrom,
    Memory.read_filter m (fun y => decide (y < a)), Memory.read_filter m (fun y => decide (a + v.length ≤ y))]
  by_cases h1 : x < a
  · have h2 : ¬ a ≤ x := by omega
    have h3 : ¬ a + v.length ≤ x := by omega
    simp [h1, h2, h3]
  · have h2 : a ≤ x := by omega
    by_cases h3 : x < a + v.length
    · have h4 : ¬ a + v.length ≤ x := by omega
      simp [h1, h2, h3, h4]
    · have h4 : a + v.length ≤ x := by omega
      have h5 : v.length ≤ x - a := by omega
      simp [h1, h2, h3, h4, h5]

/-! ### The canonical form -/

theorem Memory.wf_iff (m : Memory) : Memory.wf m = true ↔ m.Pairwise fun c c' => c.1 < c'.1 := by
  induction m with
  | nil => simp [Memory.wf]
  | cons c m ih =>
    cases m with
    | nil => simp [Memory.wf]
    | cons c' m =>
      rw [Memory.wf, Bool.and_eq_true, ih, decide_eq_true_iff, List.pairwise_cons (a := c)]
      constructor
      · rintro ⟨h, hp⟩
        refine ⟨fun x hx => ?_, hp⟩
        rcases List.mem_cons.1 hx with rfl | hx
        · exact h
        · exact h.trans (List.rel_of_pairwise_cons hp hx)
      · rintro ⟨h, hp⟩
        exact ⟨h c' (by simp), hp⟩

theorem Memory.wf_cellsFrom (v : Bytes) (a : Nat) : Memory.wf (Memory.cellsFrom a v) = true := by
  rw [Memory.wf_iff]
  induction v generalizing a with
  | nil => simp [Memory.cellsFrom]
  | cons b v ih =>
    refine List.pairwise_cons.2 ⟨fun c hc => ?_, ih (a + 1)⟩
    have := Memory.cellsFrom_bounds v (a + 1) c hc
    simp only
    omega

/-- Every write keeps the canonical form. -/
theorem Memory.wf_writeBytes (m : Memory) (a : Nat) (v : Bytes) (h : Memory.wf m = true) :
    Memory.wf (Memory.writeBytes m a v) = true := by
  rw [Memory.wf_iff] at *
  refine List.pairwise_append.2 ⟨List.pairwise_append.2 ⟨h.filter _, ?_, fun c hc c' hc' => ?_⟩, h.filter _,
    fun c hc c' hc' => ?_⟩
  · exact (Memory.wf_iff _).1 (Memory.wf_cellsFrom v a)
  · have h1 : c.1 < a := by simpa using (List.mem_filter.1 hc).2
    exact lt_of_lt_of_le h1 (Memory.cellsFrom_bounds v a c' hc').1
  · have h2 : a + v.length ≤ c'.1 := by simpa using (List.mem_filter.1 hc').2
    rcases List.mem_append.1 hc with hc | hc
    · have h1 : c.1 < a := by simpa using (List.mem_filter.1 hc).2
      omega
    · have := Memory.cellsFrom_bounds v a c hc
      omega

@[simp] theorem Memory.wf_ofBytes (v : Bytes) : Memory.wf (Memory.ofBytes v) = true :=
  Memory.wf_writeBytes [] 0 v rfl

/-- Two canonical memories that read alike are equal. -/
theorem Memory.ext_of_wf (m m' : Memory) (h : Memory.wf m = true) (h' : Memory.wf m' = true)
    (hr : ∀ a, Memory.read m a = Memory.read m' a) : m = m' := by
  rw [Memory.wf_iff] at h h'
  have none_of_lt : ∀ (m : Memory) (a : Nat), (∀ c ∈ m, a < c.1) → Memory.read m a = none := by
    intro m a hm
    induction m with
    | nil => rfl
    | cons c m ih =>
      have h1 : c.1 ≠ a := by have := hm c (by simp); omega
      simp [Memory.read, h1, ih fun c' hc' => hm c' (by simp [hc'])]
  induction m generalizing m' with
  | nil =>
    cases m' with
    | nil => rfl
    | cons c m' => have := hr c.1; simp [Memory.read] at this
  | cons c m ih =>
    cases m' with
    | nil => have := hr c.1; simp [Memory.read] at this
    | cons c' m' =>
      rw [List.pairwise_cons] at h h'
      have hc : c.1 = c'.1 := by
        rcases Nat.lt_trichotomy c.1 c'.1 with hlt | heq | hgt
        · have h1 := hr c.1
          rw [none_of_lt (c' :: m') c.1] at h1
          · simp [Memory.read] at h1
          · intro x hx
            rcases List.mem_cons.1 hx with rfl | hx
            · exact hlt
            · exact hlt.trans (h'.1 x hx)
        · exact heq
        · have h1 := hr c'.1
          rw [none_of_lt (c :: m) c'.1] at h1
          · simp [Memory.read] at h1
          · intro x hx
            rcases List.mem_cons.1 hx with rfl | hx
            · exact hgt
            · exact hgt.trans (h.1 x hx)
      have hb : c.2 = c'.2 := by
        have h1 := hr c.1
        simpa [Memory.read, hc] using h1
      have hcc : c = c' := Prod.ext hc hb
      subst hcc
      rw [ih m' h.2 h'.2 fun a => ?_]
      by_cases ha : c.1 = a
      · rw [← ha, none_of_lt m c.1 h.1, none_of_lt m' c.1 h'.1]
      · have h1 := hr a
        simpa [Memory.read, ha] using h1

/-! ### The buffers -/

/-- The input of a command has the length in `IN_LEN`. -/
theorem State.input_length (s : State) (b : Bytes) (h : s.input = some b) : b.length = s.inLen :=
  Memory.readBytes_length _ _ _ _ h

/-- The output has the length in `OUT_LEN`. -/
theorem State.output_length (s : State) (b : Bytes) (h : s.output = some b) : b.length = s.outLen :=
  Memory.readBytes_length _ _ _ _ h

/-- What `HostWriteIn` loads is what the next command reads. -/
@[simp] theorem State.input_loadIn (s : State) (b : Bytes) : (s.loadIn b).input = some b :=
  Memory.readBytes_ofBytes b

/-- What `OUT <- v` stores is what HOST reads. -/
@[simp] theorem State.output_setOut (s : State) (v : Bytes) : (s.setOut v).output = some v :=
  Memory.readBytes_ofBytes v

@[simp] theorem State.output_complete_ok (s : State) (ctx : Byte) (v : Bytes) :
    (s.complete ctx (.ok v)).output = some v :=
  State.output_setOut s v

@[simp] theorem State.output_complete_error (s : State) (ctx : Byte) (e : EngineError) :
    (s.complete ctx (.error e)).output = some [] := rfl

end Sys2Proof.Machine
end

