-- ==== Sys2Proof/Laws/Exec.lean ====
section
/-! SUPPORT. What a command and a step can do: one inversion lemma for each shared operation, so that no later proof
unfolds them. -/

namespace Sys2Proof.Machine

/-! ### The frame of a command -/

theorem State.admits_iff (s : State) (i : Instr) :
    s.admits i = true ↔ outLenMax s.cfg i s.inLen ≤ s.cfg.bufCap := by simp [State.admits]

/-- An admitted command that reads `IN` completes. -/
theorem runCommand_eq (i : Instr) (f : Bytes → Computed) (s : State) (b : Bytes) (ha : s.admits i = true)
    (hb : s.input = some b) :
    runCommand i f s = .next ((s.afterDraw (f b).draws).complete (encodeCmd i) (f b).result) := by
  simp [runCommand, ha, hb]

theorem runCommand_refused (i : Instr) (f : Bytes → Computed) (s : State) (ha : s.admits i = false) :
    runCommand i f s = .refused .outputTooLong := by
  simp [runCommand, ha]

/-- Everything a command that reads `IN` can do when it answers a next state. -/
theorem runCommand_next (i : Instr) (f : Bytes → Computed) (s t : State) (h : runCommand i f s = .next t) :
    s.admits i = true ∧ ∃ b, s.input = some b ∧
      t = (s.afterDraw (f b).draws).complete (encodeCmd i) (f b).result := by
  unfold runCommand at h
  split at h
  · next ha =>
    split at h
    · next b hb => exact ⟨ha, b, hb, by simpa using h.symm⟩
    · cases h
  · cases h

/-- An admitted command outside the capability matrix completes with its error. -/
theorem rejectCommand_eq (i : Instr) (s : State) (ha : s.admits i = true) :
    rejectCommand i s = .next (s.complete (encodeCmd i) (.error .unsupportedAlgorithm)) := by
  simp [rejectCommand, ha]

/-- Everything a command outside the capability matrix can do when it answers a next state. -/
theorem rejectCommand_next (i : Instr) (s t : State) (h : rejectCommand i s = .next t) :
    s.admits i = true ∧ t = s.complete (encodeCmd i) (.error .unsupportedAlgorithm) := by
  unfold rejectCommand at h
  split at h
  · next ha => exact ⟨ha, by simpa using h.symm⟩
  · cases h

/-- Everything a command can do when it answers a next state: it was admitted, ENTROPY answered some bytes, and the
command completed with some result. -/
theorem exec_next (i : Instr) (s t : State) (h : exec i s = .next t) :
    s.admits i = true ∧ ∃ (n : Nat) (r : Except EngineError Bytes), t = (s.afterDraw n).complete (encodeCmd i) r := by
  have run : ∀ f, runCommand i f s = .next t →
      s.admits i = true ∧ ∃ n r, t = (s.afterDraw n).complete (encodeCmd i) r := fun f hf =>
    let ⟨ha, _, _, ht⟩ := runCommand_next i f s t hf
    ⟨ha, _, _, ht⟩
  have rej : rejectCommand i s = .next t →
      s.admits i = true ∧ ∃ n r, t = (s.afterDraw n).complete (encodeCmd i) r := fun hf =>
    let ⟨ha, ht⟩ := rejectCommand_next i s t hf
    ⟨ha, 0, _, ht⟩
  cases i with
  | encbAes => exact run _ h
  | encbDes => exact run _ h
  | encbRsa => exact rej h
  | decbAes => exact run _ h
  | decbDes => exact run _ h
  | decbRsa => exact rej h
  | enctAes => exact run _ h
  | enctDes => exact run _ h
  | enctRsa => exact run _ h
  | dectAes => exact run _ h
  | dectDes => exact run _ h
  | dectRsa => exact run _ h
  | unsup c => exact rej h
  | rsvd7 c => exact rej h
  | rsvd6 c => exact rej h
  | rsvd5 c => exact rej h
  | rsvd4 c => exact rej h

/-! ### What each command does when it is admitted and its input is defined -/

theorem exec_encbAes (s : State) (b : Bytes) (ha : s.admits .encbAes = true) (hb : s.input = some b) :
    exec .encbAes s = .next ((s.afterDraw 16).complete 0x00#8 (.ok (s.encBlock .aes b))) := by
  unfold exec execEncbAes; exact runCommand_eq .encbAes _ s b ha hb

theorem exec_encbDes (s : State) (b : Bytes) (ha : s.admits .encbDes = true) (hb : s.input = some b) :
    exec .encbDes s = .next ((s.afterDraw 8).complete 0x01#8 (.ok (s.encBlock .des b))) := by
  unfold exec execEncbDes; exact runCommand_eq .encbDes _ s b ha hb

theorem exec_decbAes (s : State) (b : Bytes) (ha : s.admits .decbAes = true) (hb : s.input = some b) :
    exec .decbAes s = .next (s.complete 0x04#8 (s.decBlock .aes b)) := by
  unfold exec execDecbAes; exact runCommand_eq .decbAes _ s b ha hb

theorem exec_decbDes (s : State) (b : Bytes) (ha : s.admits .decbDes = true) (hb : s.input = some b) :
    exec .decbDes s = .next (s.complete 0x05#8 (s.decBlock .des b)) := by
  unfold exec execDecbDes; exact runCommand_eq .decbDes _ s b ha hb

theorem exec_enctAes (s : State) (b : Bytes) (ha : s.admits .enctAes = true) (hb : s.input = some b) :
    exec .enctAes s = .next ((s.afterDraw 16).complete 0x08#8 (.ok (b64Enc (s.encBlock .aes b)))) := by
  unfold exec execEnctAes; exact runCommand_eq .enctAes _ s b ha hb

theorem exec_enctDes (s : State) (b : Bytes) (ha : s.admits .enctDes = true) (hb : s.input = some b) :
    exec .enctDes s = .next ((s.afterDraw 8).complete 0x09#8 (.ok (b64Enc (s.encBlock .des b)))) := by
  unfold exec execEnctDes; exact runCommand_eq .enctDes _ s b ha hb

theorem exec_dectAes (s : State) (b : Bytes) (ha : s.admits .dectAes = true) (hb : s.input = some b) :
    exec .dectAes s = .next (s.complete 0x0C#8 (decodeText (s.decBlock .aes) b)) := by
  unfold exec execDectAes; exact runCommand_eq .dectAes _ s b ha hb

theorem exec_dectDes (s : State) (b : Bytes) (ha : s.admits .dectDes = true) (hb : s.input = some b) :
    exec .dectDes s = .next (s.complete 0x0D#8 (decodeText (s.decBlock .des) b)) := by
  unfold exec execDectDes; exact runCommand_eq .dectDes _ s b ha hb

theorem exec_dectRsa (s : State) (b : Bytes) (ha : s.admits .dectRsa = true) (hb : s.input = some b) :
    exec .dectRsa s = .next (s.complete 0x0E#8 (decodeText s.rsaDecrypt b)) := by
  unfold exec execDectRsa; exact runCommand_eq .dectRsa _ s b ha hb

/-- `ENCT.RSA` within `RSA_MAX`. -/
theorem exec_enctRsa (s : State) (b : Bytes) (ha : s.admits .enctRsa = true) (hb : s.input = some b)
    (hm : b.length ≤ s.cfg.rsaMax) :
    exec .enctRsa s = .next ((s.afterDraw s.cfg.hash.hLen).complete 0x0A#8
      (.ok (b64Enc (rsaEncryptSeeded s.cfg.hash s.cfg.rsaK s.rsaN s.rsaE b (s.draw s.cfg.hash.hLen))))) := by
  unfold exec execEnctRsa
  rw [runCommand_eq .enctRsa _ s b ha hb, State.rsaEncrypt, if_neg (by omega)]
  rfl

/-- `ENCT.RSA` beyond `RSA_MAX`: no seed is drawn. -/
theorem exec_enctRsa_tooLarge (s : State) (b : Bytes) (ha : s.admits .enctRsa = true) (hb : s.input = some b)
    (hm : s.cfg.rsaMax < b.length) :
    exec .enctRsa s = .next (s.complete 0x0A#8 (.error .payloadTooLarge)) := by
  unfold exec execEnctRsa
  rw [runCommand_eq .enctRsa _ s b ha hb, State.rsaEncrypt, if_pos hm]
  rfl

theorem exec_encbRsa (s : State) (ha : s.admits .encbRsa = true) :
    exec .encbRsa s = .next (s.complete 0x02#8 (.error .unsupportedAlgorithm)) := by
  unfold exec execEncbRsa; exact rejectCommand_eq .encbRsa s ha

theorem exec_decbRsa (s : State) (ha : s.admits .decbRsa = true) :
    exec .decbRsa s = .next (s.complete 0x06#8 (.error .unsupportedAlgorithm)) := by
  unfold exec execDecbRsa; exact rejectCommand_eq .decbRsa s ha

theorem exec_unsup (c : Byte) (s : State) (ha : s.admits (.unsup c) = true) :
    exec (.unsup c) s = .next (s.complete c (.error .unsupportedAlgorithm)) := by
  unfold exec execUnsup; exact rejectCommand_eq (.unsup c) s ha

theorem exec_rsvd7 (c : Byte) (s : State) (ha : s.admits (.rsvd7 c) = true) :
    exec (.rsvd7 c) s = .next (s.complete c (.error .unsupportedAlgorithm)) := by
  unfold exec execRsvd7; exact rejectCommand_eq (.rsvd7 c) s ha

theorem exec_rsvd6 (c : Byte) (s : State) (ha : s.admits (.rsvd6 c) = true) :
    exec (.rsvd6 c) s = .next (s.complete c (.error .unsupportedAlgorithm)) := by
  unfold exec execRsvd6; exact rejectCommand_eq (.rsvd6 c) s ha

theorem exec_rsvd5 (c : Byte) (s : State) (ha : s.admits (.rsvd5 c) = true) :
    exec (.rsvd5 c) s = .next (s.complete c (.error .unsupportedAlgorithm)) := by
  unfold exec execRsvd5; exact rejectCommand_eq (.rsvd5 c) s ha

theorem exec_rsvd4 (c : Byte) (s : State) (ha : s.admits (.rsvd4 c) = true) :
    exec (.rsvd4 c) s = .next (s.complete c (.error .unsupportedAlgorithm)) := by
  unfold exec execRsvd4; exact rejectCommand_eq (.rsvd4 c) s ha

/-! ### A step -/

theorem step_nil (s : State) (h : s.host = []) : step s = .next s := by simp [step, h]

theorem step_cons (s : State) (x : HostStep) (rest : List HostStep) (h : s.host = x :: rest) :
    step s = hostStep x { s with host := rest } := by simp [step, h]

/-- A HOST read answers by adding one reply, and by nothing else. -/
theorem hostReadOutAt_next (a n : Nat) (s t : State) (h : hostReadOutAt a n s = .next t) :
    a + n ≤ s.outLen ∧ ∃ b, s.outBuf.readBytes a n = some b ∧ t = s.reply (.outBytes b) := by
  unfold hostReadOutAt at h
  split at h
  · next hl =>
    split at h
    · next b hb => exact ⟨hl, b, hb, by simpa using h.symm⟩
    · cases h
  · cases h

theorem hostReadInAt_next (a n : Nat) (s t : State) (h : hostReadInAt a n s = .next t) :
    a + n ≤ s.inLen ∧ ∃ b, s.inBuf.readBytes a n = some b ∧ t = s.reply (.inBytes b) := by
  unfold hostReadInAt at h
  split at h
  · next hl =>
    split at h
    · next b hb => exact ⟨hl, b, hb, by simpa using h.symm⟩
    · cases h
  · cases h

theorem hostWriteIn_next (b : Bytes) (s t : State) (h : hostWriteIn b s = .next t) :
    b.length ≤ s.cfg.bufCap ∧ t = s.loadIn b := by
  unfold hostWriteIn at h
  split at h
  · next hl => exact ⟨hl, by simpa using h.symm⟩
  · cases h

theorem hostWriteInFromOut_next (s t : State) (h : hostWriteInFromOut s = .next t) :
    ∃ b, s.output = some b ∧ b.length ≤ s.cfg.bufCap ∧ t = s.loadIn b := by
  unfold hostWriteInFromOut at h
  split at h
  · next b hb => exact ⟨b, hb, hostWriteIn_next b s t h⟩
  · cases h

theorem platformReset_next (key : RsaKey) (s t : State) (h : platformReset key s = .next t) :
    ValidRsaKey key.n s.cfg.rsaE key.d s.cfg.rsaK ∧ t = s.resetTo key.n key.d := by
  unfold platformReset at h
  split at h
  · next hl => exact ⟨hl.1 ▸ hl.2 ▸ key.valid, by simpa using h.symm⟩
  · cases h

/-- Everything a step of HOST or platform can do when it answers a next state. -/
theorem hostStep_next (x : HostStep) (s t : State) (h : hostStep x s = .next t) :
    (∃ b, b.length ≤ s.cfg.bufCap ∧ t = s.loadIn b ∧
      (x = .writeIn b ∨ (x = .writeInFromOut ∧ s.output = some b))) ∨
    (∃ c, x = .issue c ∧ exec (decodeCmd c) { s with cmd := c } = .next t) ∨
    (∃ r, t = s.reply r ∧ (x = .readOut ∨ (∃ a n, x = .readOutAt a n) ∨ x = .readIn ∨ (∃ a n, x = .readInAt a n) ∨
      x = .readStatus ∨ x = .readInLen ∨ x = .readOutLen)) ∨
    (∃ key, x = .reset key ∧ ValidRsaKey key.n s.cfg.rsaE key.d s.cfg.rsaK ∧ t = s.resetTo key.n key.d) := by
  cases x with
  | writeIn b => obtain ⟨hl, ht⟩ := hostWriteIn_next b s t h; exact .inl ⟨b, hl, ht, .inl rfl⟩
  | writeInFromOut =>
    obtain ⟨b, ho, hl, ht⟩ := hostWriteInFromOut_next s t h
    exact .inl ⟨b, hl, ht, .inr ⟨rfl, ho⟩⟩
  | issue c => exact .inr (.inl ⟨c, rfl, h⟩)
  | readOut =>
    obtain ⟨-, b, -, ht⟩ := hostReadOutAt_next _ _ s t h
    exact .inr (.inr (.inl ⟨_, ht, by simp⟩))
  | readOutAt a n =>
    obtain ⟨-, b, -, ht⟩ := hostReadOutAt_next _ _ s t h
    exact .inr (.inr (.inl ⟨_, ht, by simp⟩))
  | readIn =>
    obtain ⟨-, b, -, ht⟩ := hostReadInAt_next _ _ s t h
    exact .inr (.inr (.inl ⟨_, ht, by simp⟩))
  | readInAt a n =>
    obtain ⟨-, b, -, ht⟩ := hostReadInAt_next _ _ s t h
    exact .inr (.inr (.inl ⟨_, ht, by simp⟩))
  | readStatus => exact .inr (.inr (.inl ⟨.status s.status, by simpa [hostStep] using h.symm, by simp⟩))
  | readInLen => exact .inr (.inr (.inl ⟨.inLen s.inLen, by simpa [hostStep] using h.symm, by simp⟩))
  | readOutLen => exact .inr (.inr (.inl ⟨.outLen s.outLen, by simpa [hostStep] using h.symm, by simp⟩))
  | reset key => obtain ⟨hf, ht⟩ := platformReset_next key s t h; exact .inr (.inr (.inr ⟨key, rfl, hf, ht⟩))

/-- No HOST step pending: nothing is drawn. -/
theorem ivDraws_of_host_nil (k : Nat) (s : State) (h : s.host = []) : ivDraws k s = [] := by
  induction k with
  | zero => rfl
  | succ k ih => simp [ivDraws, step_nil s h, h, ih]

end Sys2Proof.Machine
end

