-- ==== Sys2Proof/Laws/Invariant.lean ====
section
/-! SUPPORT. States that have the invariant: the one `Reset` leaves, and what the updates of HOST and ENTROPY keep. -/

namespace Sys2Proof.Machine

theorem holdsLength_nil (cap : Nat) : holdsLength [] 0 cap := ⟨[], rfl, rfl, Nat.zero_le _⟩

theorem holdsLength_ofBytes (v : Bytes) (cap : Nat) (h : v.length ≤ cap) :
    holdsLength (Memory.ofBytes v) v.length cap :=
  ⟨v, rfl, rfl, h⟩

/-- A buffer that holds its length reads back whole. -/
theorem holdsLength.readBytes {m : Memory} {len cap : Nat} (h : holdsLength m len cap) :
    ∃ v, m = Memory.ofBytes v ∧ m.readBytes 0 len = some v ∧ v.length = len ∧ v.length ≤ cap := by
  obtain ⟨v, rfl, hl, hc⟩ := h
  exact ⟨v, rfl, by rw [hl]; exact Memory.readBytes_ofBytes v, hl.symm, hc⟩

/-- From a state with the invariant the input of a command is always defined. -/
theorem State.Inv.input_eq_some {s : State} (h : s.Inv) :
    ∃ b, s.input = some b ∧ b.length = s.inLen ∧ b.length ≤ s.cfg.bufCap :=
  let ⟨v, _, hr, hl, hc⟩ := h.input.readBytes
  ⟨v, hr, hl, hc⟩

/-- From a state with the invariant the output is always defined. -/
theorem State.Inv.output_eq_some {s : State} (h : s.Inv) :
    ∃ v, s.output = some v ∧ v.length = s.outLen ∧ v.length ≤ s.cfg.bufCap :=
  let ⟨v, _, hr, hl, hc⟩ := h.output.readBytes
  ⟨v, hr, hl, hc⟩

/-- What `Reset` leaves has the invariant. -/
theorem State.inv_powerOn (cfg : Config) (n d : Nat) (hc : cfg.Valid) (hk : keyDrawFits n d cfg.rsaK = true) :
    (State.powerOn cfg n d).Inv where
  config := hc
  aesKey := rfl
  desKey := rfl
  exponent := rfl
  keyPair := hk
  input := holdsLength_nil _
  output := holdsLength_nil _
  inLenWidth := Nat.two_pow_pos _
  outLenWidth := Nat.two_pow_pos _
  status := (by decide : statusLegal 0x0000#16 = true)
  context := (by decide : statusCtx 0x0000#16 = 0x00#8)

/-- `HostWriteIn` keeps the invariant. -/
theorem State.Inv.loadIn {s : State} (h : s.Inv) (b : Bytes) (hb : b.length ≤ s.cfg.bufCap) : (s.loadIn b).Inv where
  config := h.config
  aesKey := h.aesKey
  desKey := h.desKey
  exponent := h.exponent
  keyPair := h.keyPair
  input := holdsLength_ofBytes b _ hb
  output := h.output
  inLenWidth := hb.trans_lt h.config.2.1
  outLenWidth := h.outLenWidth
  status := h.status
  context := h.context

/-- The agents around the ENGINE are no part of the invariant. -/
theorem State.Inv.withAgents {s : State} (h : s.Inv) (entropy : Bytes) (drawn : Nat) (host : List HostStep)
    (replies : List Reply) :
    ({ s with entropy := entropy, drawn := drawn, host := host, replies := replies } : State).Inv where
  config := h.config
  aesKey := h.aesKey
  desKey := h.desKey
  exponent := h.exponent
  keyPair := h.keyPair
  input := h.input
  output := h.output
  inLenWidth := h.inLenWidth
  outLenWidth := h.outLenWidth
  status := h.status
  context := h.context

/-- `ValidRsaKey` includes the width conditions of a drawn pair. -/
theorem ValidRsaKey.fits {n e d k : Nat} (h : ValidRsaKey n e d k) : keyDrawFits n d k = true := by
  obtain ⟨_, _, -, ⟨h1, h2⟩, -, h3, h4, -⟩ := h
  simp [keyDrawFits, h1, h2, h3, h4]

end Sys2Proof.Machine
end

