-- ==== Sys2Proof/Laws/PerInstr.lean ====
section
/-! SUPPORT. A statement about every instruction, one lemma per constructor. -/

namespace Sys2Proof.Laws

namespace TableRow

/-- The command byte of a well-formed instruction matches its row of the opcode table. -/
def Statement (i : Instr) : Prop := i.wf = true → matchesRow i.rowMask i.rowMatch (encodeCmd i) = true

theorem encbAes : Statement .encbAes := fun _ => by decide
theorem encbDes : Statement .encbDes := fun _ => by decide
theorem encbRsa : Statement .encbRsa := fun _ => by decide
theorem decbAes : Statement .decbAes := fun _ => by decide
theorem decbDes : Statement .decbDes := fun _ => by decide
theorem decbRsa : Statement .decbRsa := fun _ => by decide
theorem enctAes : Statement .enctAes := fun _ => by decide
theorem enctDes : Statement .enctDes := fun _ => by decide
theorem enctRsa : Statement .enctRsa := fun _ => by decide
theorem dectAes : Statement .dectAes := fun _ => by decide
theorem dectDes : Statement .dectDes := fun _ => by decide
theorem dectRsa : Statement .dectRsa := fun _ => by decide
theorem unsup (c : Byte) : Statement (.unsup c) := fun h => h
theorem rsvd7 (c : Byte) : Statement (.rsvd7 c) := fun h => h
theorem rsvd6 (c : Byte) : Statement (.rsvd6 c) := fun h => h
theorem rsvd5 (c : Byte) : Statement (.rsvd5 c) := fun h => h
theorem rsvd4 (c : Byte) : Statement (.rsvd4 c) := fun h => h

end TableRow

end Sys2Proof.Laws
end

