-- ==== Sys2Proof/Tests/Slice0.lean ====
section
/-! SUPPORT. Tests of the model. Expected values come from the spec: 30_encoding.md R74 for the command bytes, the
rules' own examples and 95_test_vectors.md (named V<n>, P<n>) for the rest. Below them, for every statement with
hypotheses, a concrete state that meets them. -/

namespace Sys2Proof.Tests

open Sys2Proof.Machine

set_option Elab.async false

/-! ### The test configuration (95_test_vectors.md section 2) -/

/-- The test parameters, with the 64-byte modulus of the test keys. -/
def cfg : Config where
  kAes := 0x2b7e151628aed2a6abf7158809cf4f3c#128
  kDes := 0x133457799bbcdff1#64
  rsaK := 64
  rsaE := 65537
  hash := .sha1
  bufCap := 4096
  lenW := 32

/-- Test key T64. -/
def n64 : Nat := 0xbe9577f67cc12d03bab8d184e8e8a6b498cb336662764d0f39a006b977c96ba1db43614e13c75cc369c3f8d5f926adda785047bb85a35af92ea44a012301548d

/-- Test key T64. -/
def d64 : Nat := 0x0a583818f9b80d8eb283a621b9f7a8d6cc25596ea1010d593a76406f303c8f5a337f10f7e291ad2fc3e38081b28b230f974ea61ca028c156bf18078cb3d43861

/-- Test key T64B. -/
def n64b : Nat := 0xa529df04b64b47562f0eafcaf4aaf6147933d1c1720859b492fc8fe1c6a378632c67621f5bf35e108621a2736e6460f61a352050875abea95c616f4f62233a69

/-- Test key T64B. -/
def d64b : Nat := 0x0b4717a65fb8362fc958cc622460c41ad3c7d90bc778907f8705dde141ca09bf47bdebfa9d783efc39f21df76294131fbba2d4ac8cde966a5e2119c36beb51ad

/-- The state after reset with key T64, `IN = b`, and ENTROPY about to answer `draws`. -/
def st (b draws : Bytes) : State := { (State.powerOn cfg n64 d64).loadIn b with entropy := draws }

/-- The default size of modulus. -/
def cfg256 : Config := { cfg with rsaK := 256 }

/-- The valid pair of Machine/KeyWitness.lean. -/
def key256 : RsaKey := ⟨witnessN, 65537, witnessD, 256, witness_valid⟩

/-- The state after reset with that pair and `IN = m`. -/
def st256 (m : Bytes) : State := (State.powerOn cfg256 witnessN witnessD).loadIn m

/-- The status and the output an outcome holds. -/
def result (o : Host.Outcome State Fault Refusal) : Option (BitVec 16 × Bytes) :=
  match o with
  | .next s => s.output.map fun v => (s.status, v)
  | .fault _ => none
  | .refused _ => none

/-- The refusal an outcome holds. -/
def refusal (o : Host.Outcome State Fault Refusal) : Option Refusal :=
  match o with
  | .next _ => none
  | .fault _ => none
  | .refused r => some r

/-- The bytes of an ASCII text. -/
def ascii (t : String) : Bytes := t.toList.map fun c => BitVec.ofNat 8 c.toNat

/-- "hello world". -/
def hw : Bytes := hex 11 0x68656c6c6f20776f726c64

/-- `IV16`. -/
def iv16 : Bytes := hex 16 0x000102030405060708090a0b0c0d0e0f

/-- `IV8`. -/
def iv8 : Bytes := hex 8 0x0001020304050607

/-- `SEED`. -/
def seed : Bytes := hex 20 0xaafd12f659cae63489b479e5076ddec2f06cb58f

/-- The envelope of V10. -/
def env10 : Bytes := hex 32 0x000102030405060708090a0b0c0d0e0f66ee4dfaec56a71cd33cd4c5151d7d88

/-- The envelope of V20. -/
def env20 : Bytes := hex 24 0x0001020304050607f63646b8b1d9a9023db55f88de4b30f5

/-- The text of V46. -/
def text46 : Bytes := ascii "Xu+3capqWb20YH58G/EJ/Gpgvjq11AxBIGFiL8nnBUpQa9KioptZjoLFRmVKP1v193CdtgRlXziG2f0kuoE7OA=="

/-- The ciphertext of V44. -/
def c44 : Bytes := hex 64 0x5eefb771aa6a59bdb4607e7c1bf109fc6a60be3ab5d40c412061622fc9e7054a506bd2a2a29b598e82c546654a3f5bf5f7709db604655f3886d9fd24ba813b38

/-! ### Well-formedness -/

theorem test_wf_unsup_refused : Instr.wf (.unsup 0x00#8) = false := by decide
theorem test_wf_rsvd7_refused : Instr.wf (.rsvd7 0x7F#8) = false := by decide
theorem test_wf_rsvd6_refused : Instr.wf (.rsvd6 0xC0#8) = false := by decide
theorem test_wf_rsvd5_refused : Instr.wf (.rsvd5 0x60#8) = false := by decide
theorem test_wf_rsvd4_refused : Instr.wf (.rsvd4 0x30#8) = false := by decide
theorem test_wf_unsup_accepted : Instr.wf (.unsup 0x0B#8) = true := by decide
theorem test_wf_writeIn_refused : HostStep.wf { cfg with bufCap := 2 } (.writeIn [1#8, 2#8, 3#8]) = false := by decide
theorem test_wf_reset_refused : HostStep.wf cfg (.reset key256) = false := by decide +kernel
theorem test_wf_reset_accepted : HostStep.wf cfg256 (.reset key256) = true := by decide +kernel
theorem test_wf_program_refused :
    programWf { cfg with bufCap := 2 } [.writeIn [1#8], .issue 0#8, .writeIn [1#8, 2#8, 3#8]] = false := by decide

/-! ### Decoding: the words of R74 to R76, bit by bit -/

theorem test_decode_bytes_commands :
    decodeCmd 0b00000000#8 = .encbAes ∧ decodeCmd 0b00000001#8 = .encbDes ∧ decodeCmd 0b00000100#8 = .decbAes ∧
    decodeCmd 0b00000101#8 = .decbDes := by decide
theorem test_decode_text_commands :
    decodeCmd 0b00001000#8 = .enctAes ∧ decodeCmd 0b00001001#8 = .enctDes ∧ decodeCmd 0b00001010#8 = .enctRsa ∧
    decodeCmd 0b00001100#8 = .dectAes ∧ decodeCmd 0b00001101#8 = .dectDes ∧ decodeCmd 0b00001110#8 = .dectRsa := by decide
theorem test_decode_unsupported :
    decodeCmd 0b00000010#8 = .encbRsa ∧ decodeCmd 0b00000110#8 = .decbRsa ∧ decodeCmd 0b00000011#8 = .unsup 0x03#8 ∧
    decodeCmd 0b00001111#8 = .unsup 0x0F#8 := by decide
theorem test_decode_reserved :
    decodeCmd 0b10000000#8 = .rsvd7 0x80#8 ∧ decodeCmd 0b01111111#8 = .rsvd6 0x7F#8 ∧
    decodeCmd 0b00101011#8 = .rsvd5 0x2B#8 ∧ decodeCmd 0b00011000#8 = .rsvd4 0x18#8 := by decide
theorem test_decode_no_byte : decode [] = .error .noCommandByte := rfl
theorem test_decode_table_word : decodeTableWord 8 0x0E = some .dectRsa ∧ decodeTableWord 8 0x100 = none := by decide

/-- Every command byte completes as the first command after reset, whatever the open parameters are. -/
theorem test_first_command_after_reset :
    (List.range 256).all (fun w =>
      match step (State.reset.withFetchWord 8 w) with
      | .next _ => true
      | .fault _ => false
      | .refused _ => false) = true := by decide +kernel

/-! ### Functions -/

theorem test_pad : pad hw 16 = hw ++ rep 0x05#8 5 ∧ pad [] 16 = rep 0x10#8 16 := by decide +kernel
/-- V8, V9, V9a. -/
theorem test_unpad :
    (match unpad (hex 8 0x0102030405060302) 8 with | .ok _ => false | .error e => e == .padding) = true ∧
    (match unpad (hex 8 0x0102030405060202) 8 with | .ok d => d == hex 6 0x010203040506 | .error _ => false) = true ∧
    (match unpad (hex 8 0x0102030405060709) 8 with | .ok _ => false | .error e => e == .padding) = true := by
  decide +kernel
/-- R132: the worked products. -/
theorem test_gmul : gmul 0x57#8 0x13#8 = 0xfe#8 ∧ gmul 0x57#8 0x83#8 = 0xc1#8 := by decide +kernel
/-- R137: `w[43]` of the second example key. -/
theorem test_aes_key_words :
    (aesKeyWords (hex 16 0x000102030405060708090a0b0c0d0e0f)).getD 43 [] = hex 4 0x4d2b30c5 := by decide +kernel
/-- R142 (a). -/
theorem test_aes_enc :
    aes128Enc (hex 16 0x2b7e151628aed2a6abf7158809cf4f3c) (hex 16 0x3243f6a8885a308d313198a2e0370734) =
      hex 16 0x3925841d02dc09fbdc118597196a0b32 := by decide +kernel
/-- R142 (b). -/
theorem test_aes_dec :
    aes128Dec (hex 16 0x000102030405060708090a0b0c0d0e0f) (hex 16 0x69c4e0d86a7b0430d8cdb78070b4c55a) =
      hex 16 0x00112233445566778899aabbccddeeff := by decide +kernel
/-- R156. -/
theorem test_des_round : desRound 0xf0aaf0aa#32 0x1b02effc7072#48 = 0x234aa9bb#32 := by decide +kernel
/-- R161: the key with every parity bit flipped. -/
theorem test_des_enc :
    desEnc (hex 8 0x123556789abddef0) (hex 8 0x0123456789abcdef) = hex 8 0x85e813540f0ab405 := by decide +kernel
/-- R201. -/
theorem test_sha1_abc : sha1 (ascii "abc") = hex 20 0xa9993e364706816aba3e25717850c26c9cd0d89d := by decide +kernel
/-- R205. -/
theorem test_mgf1 : mgf1 .sha1 (ascii "foo") 3 = hex 3 0x1ac907 := by decide +kernel
/-- V38. -/
theorem test_b64Enc :
    b64Enc (ascii "foob") = ascii "Zm9vYg==" ∧ b64Enc (ascii "fooba") = ascii "Zm9vYmE=" ∧
    b64Enc (hex 3 0xfbffbf) = ascii "+/+/" := by decide +kernel
/-- V40 to V43. -/
theorem test_b64Dec :
    (match b64Dec (ascii "Zm9vYg==") with | .ok b => b == ascii "foob" | .error _ => false) = true ∧
    (["Z", "Zg=", "Z===", "====", "Zg==Zg==", "Zg=a", "Zm 9", "Zm-_", "Zh==", "Zm9="].all fun t =>
      match b64Dec (ascii t) with | .ok _ => false | .error e => e == .format) = true := by decide +kernel

/-! ### Commands -/

/-- V10. -/
theorem test_encbAes : result (exec .encbAes (st hw iv16)) = some (0x0000#16, env10) := by decide +kernel
/-- V12. -/
theorem test_decbAes : result (exec .decbAes (st env10 [])) = some (0x0400#16, hw) := by decide +kernel
/-- V30, at 33 bytes. -/
theorem test_decbAes_frame : result (exec .decbAes (st (rep 0#8 33) [])) = some (0x0403#16, []) := by decide +kernel
/-- V20. -/
theorem test_encbDes : result (exec .encbDes (st hw iv8)) = some (0x0100#16, env20) := by decide +kernel
/-- V27: a corrupted envelope that succeeds. -/
theorem test_decbDes_garbage :
    result (exec .decbDes (st (hex 24 0x0001020304050607f73646b8b1d9a9023db55f88de4b30f5) [])) =
      some (0x0500#16, hex 11 0x4ff8aa23f1e01717736c64) := by decide +kernel
/-- V28, byte 12. -/
theorem test_decbDes_padding :
    result (exec .decbDes (st (hex 24 0x0001020304050607f63646b8b0d9a9023db55f88de4b30f5) [])) = some (0x050C#16, []) := by
  decide +kernel
/-- V50. -/
theorem test_enctAes :
    result (exec .enctAes (st hw iv16)) = some (0x0800#16, ascii "AAECAwQFBgcICQoLDA0OD2buTfrsVqcc0zzUxRUdfYg=") := by
  decide +kernel
/-- V58a: 16 decoded bytes. -/
theorem test_dectAes_frame :
    result (exec .dectAes (st (ascii "AAAAAAAAAAAAAAAAAAAAAA==") [])) = some (0x0C03#16, []) := by decide +kernel
/-- V58: the text is malformed before any envelope is looked at. -/
theorem test_dectAes_format : result (exec .dectAes (st (ascii "Zm 9") [])) = some (0x0C05#16, []) := by decide +kernel
/-- V50d. -/
theorem test_enctDes :
    result (exec .enctDes (st hw iv8)) = some (0x0900#16, ascii "AAECAwQFBgf2Nka4sdmpAj21X4jeSzD1") := by decide +kernel
/-- P4, step 9. -/
theorem test_dectDes_padding :
    result (exec .dectDes (st (ascii "AAAAAAAAAAAAAAAAAAAAAA==") [])) = some (0x0D0C#16, []) := by decide +kernel
/-- R223. -/
theorem test_dectDes :
    result (exec .dectDes (st (ascii "AAECAwQFBgf2Nka4sdmpAj21X4jeSzD1") [])) = some (0x0D00#16, hw) := by decide +kernel
/-- V46. -/
theorem test_enctRsa : result (exec .enctRsa (st hw seed)) = some (0x0A00#16, text46) := by decide +kernel
/-- V49: one byte beyond `RSA_MAX`. -/
theorem test_enctRsa_too_large : result (exec .enctRsa (st (rep 0x41#8 23) seed)) = some (0x0A02#16, []) := by
  decide +kernel
/-- V46. -/
theorem test_dectRsa : result (exec .dectRsa (st text46 [])) = some (0x0E00#16, hw) := by decide +kernel
/-- V52 (P3, step 7): the text of one power cycle under the keypair of another. -/
theorem test_dectRsa_other_key :
    result (exec .dectRsa ((State.powerOn cfg n64b d64b).loadIn text46)) = some (0x0E0E#16, []) := by decide +kernel
/-- R290, R298: a reset loads its pair and empties the buffers, and the next command runs on that. -/
theorem test_reset :
    (match step { (st256 hw).setOut hw with host := [.reset key256, .issue 0x04#8] } with
      | .next t => t.rsaN == witnessN && t.rsaD == witnessD && t.inLen == 0 && t.outLen == 0 &&
          result (step t) == some (0x0403#16, [])
      | .fault _ => false
      | .refused _ => false) = true := by decide +kernel
/-- V55, V55a. -/
theorem test_rsa_on_bytes :
    result (exec .encbRsa (st (hex 2 0x6869) [])) = some (0x0201#16, []) ∧
    result (exec .decbRsa (st c44 [])) = some (0x0601#16, []) := by decide +kernel
/-- V56, V56a. -/
theorem test_unsup_rsvd :
    result (exec (.unsup 0x0B#8) (st hw [])) = some (0x0B01#16, []) ∧
    result (exec (.rsvd7 0xFF#8) (st hw [])) = some (0xFF01#16, []) ∧
    result (exec (.rsvd4 0x18#8) (st hw [])) = some (0x1801#16, []) := by decide +kernel
/-- R58: an output that cannot fit is refused. -/
theorem test_not_admitted :
    refusal (exec .encbAes { st (rep 0#8 16) iv16 with cfg := { cfg with bufCap := 47 } }) = some .outputTooLong := by
  decide +kernel
/-- R32: a read at `OUT_LEN` is refused. -/
theorem test_read_beyond_output : refusal (hostStep (.readOutAt 0 1) (st hw [])) = some .readBeyondOutput := by
  decide +kernel
/-- R296: the four HOST steps of one operation. -/
theorem test_call_replies :
    (match core.run 4 { st [] [] with host := callProgram .text .encrypt (hex 1 0x78) (ascii "aes") } with
      | .next t => t.replies
      | .fault _ => []
      | .refused _ => []) = [.status 0x0B01#16, .outBytes []] := by decide +kernel

/-! ### Witnesses: states and operands that meet the hypotheses of the statements

Where a statement has several clauses, a witness per clause, at the edge of the clause's range. -/

theorem cfg_valid : cfg.Valid := by decide +kernel

theorem st_inv (b draws : Bytes) (h : b.length ≤ 4096) : (st b draws).Inv :=
  ((State.inv_powerOn cfg n64 d64 cfg_valid (by decide +kernel)).loadIn b h).withAgents draws 0 [] []

theorem st_input (b draws : Bytes) : (st b draws).input = some b :=
  State.input_loadIn (State.powerOn cfg n64 d64) b

theorem st_cfg (b draws : Bytes) : (st b draws).cfg = cfg := rfl

/-- `st b []` with `OUT = v`. -/
def stOut (b v : Bytes) : State := (st b []).setOut v

theorem stOut_inv (b v : Bytes) (hb : b.length ≤ 4096) (hv : v.length ≤ 4096) : (stOut b v).Inv :=
  { st_inv b [] hb with
    output := holdsLength_ofBytes v 4096 hv
    outLenWidth := hv.trans_lt (by decide : 4096 < 2 ^ 32) }

/-- An outcome is a next state. -/
def isNext (o : Host.Outcome State Fault Refusal) : Bool :=
  match o with
  | .next _ => true
  | .fault _ => false
  | .refused _ => false

theorem exists_next {o : Host.Outcome State Fault Refusal} (h : isNext o = true) : ∃ t, o = .next t := by
  cases o with
  | next t => exact ⟨t, rfl⟩
  | fault f => cases h
  | refused r => cases h

/-- A result is the bytes `v`. -/
def isOk (x : Except EngineError Bytes) (v : Bytes) : Bool :=
  match x with
  | .ok w => w == v
  | .error _ => false

/-- A result is the error `e`. -/
def isError (x : Except EngineError Bytes) (e : EngineError) : Bool :=
  match x with
  | .ok _ => false
  | .error e' => e' == e

theorem eq_ok {x : Except EngineError Bytes} {v : Bytes} (h : isOk x v = true) : x = .ok v := by
  cases x with
  | ok w => simp [isOk] at h; rw [h]
  | error e => cases h

theorem eq_error {x : Except EngineError Bytes} {e : EngineError} (h : isError x e = true) : x = .error e := by
  cases x with
  | ok w => cases h
  | error e' => simp [isError] at h; rw [h]

theorem eq_refused {o : Host.Outcome State Fault Refusal} {r : Refusal} (h : refusal o = some r) : o = .refused r := by
  cases o with
  | next t => cases h
  | fault f => cases h
  | refused r' => simp [refusal] at h; rw [h]

theorem rep_le (v : Byte) (n m : Nat) (h : n ≤ m) : (rep v n).length ≤ m := by rw [rep_length]; exact h

theorem decodeCmd_zero : decodeCmd 0x00#8 = .encbAes := by decide

theorem issue_zero (x : State) : hostStep (.issue 0x00#8) x = exec .encbAes { x with cmd := 0x00#8 } := by
  rw [hostStep, hostIssue, decodeCmd_zero]

/-! #### Encoding and steps -/

theorem witness_EncodeDecodeAgree : Instr.wf (.rsvd4 0x1F#8) = true ∧ Instr.wf .dectRsa = true := by decide

theorem witness_EveryByteMatchesExactlyItsRow :
    matchesRow (Instr.rowMask (.rsvd5 0x3F#8)) (Instr.rowMatch (.rsvd5 0x3F#8)) 0x3F#8 = true ∧
    fieldRsv 0x10#8 ≠ 0#4 ∧ (fieldRsv 0x0F#8 = 0#4 ∧ (0x0F#8 : Byte).extractLsb' 0 2 = 3#2) ∧
    (fieldRsv 0x0E#8 = 0#4 ∧ (0x0E#8 : Byte).extractLsb' 0 2 ≠ 3#2) := by decide

theorem witness_SelectorNamesMapExactly :
    (ascii "aes" ≠ [0x41#8, 0x45#8, 0x53#8] ∧ ascii "aes" ≠ [0x44#8, 0x45#8, 0x53#8] ∧
      ascii "aes" ≠ [0x52#8, 0x53#8, 0x41#8]) ∧
    ∃ t, exec (decodeCmd (commandByte .text .encrypt (algOfName (ascii "aes")))) (st hw []) = .next t :=
  ⟨by decide +kernel, exists_next (by decide +kernel)⟩

theorem witness_StepRunsTheDecodedCommand :
    ({ st hw [] with host := [.issue 0xFF#8] } : State).host = .issue 0xFF#8 :: [] ∧
    ({ st hw [] with host := [.reset key256, .readOut] } : State).host = .reset key256 :: [.readOut] ∧
    (st hw []).host = [] := ⟨rfl, rfl, rfl⟩

theorem witness_HostStepEffects :
    (stOut hw hw).Inv ∧ (rep 0#8 4096).length ≤ (stOut hw hw).cfg.bufCap ∧
    (stOut hw hw).cfg.bufCap < (rep 0#8 4097).length ∧ ∃ t, hostStep .readInLen (stOut hw hw) = .next t :=
  ⟨stOut_inv hw hw (by decide) (by decide), rep_le _ _ _ (by decide +kernel), by rw [rep_length]; decide +kernel,
    ⟨_, rfl⟩⟩

theorem witness_PartialReadsReturnTheirBytes :
    (stOut hw env10).Inv ∧ 31 + 1 ≤ (stOut hw env10).outLen ∧ (stOut hw env10).outLen < 32 + 1 ∧
    10 + 1 ≤ (stOut hw env10).inLen ∧ (stOut hw env10).inLen < 11 + 1 :=
  ⟨stOut_inv hw env10 (by decide) (by decide), by decide +kernel, by decide +kernel, by decide +kernel,
    by decide +kernel⟩

/-- The state in which the command of the next witness runs. -/
def issued : State := { (st [] iv16).loadIn hw with cmd := 0x00#8, host := [.readStatus, .readOut] }

theorem issued_next :
    exec .encbAes issued = .next ((issued.afterDraw 16).complete 0x00#8 (.ok (issued.encBlock .aes hw))) :=
  exec_encbAes issued hw (by decide +kernel) (State.input_loadIn (st [] iv16) hw)

theorem witness_OneTotalOrder_issue :
    ({ st [] iv16 with host := [.writeIn hw, .issue 0x00#8, .readStatus, .readOut] } : State).host =
      .writeIn hw :: .issue 0x00#8 :: .readStatus :: .readOut :: [] ∧
    hw.length ≤ (st [] iv16).cfg.bufCap ∧
    ∃ t v, exec (decodeCmd 0x00#8) { (st [] iv16).loadIn hw with cmd := 0x00#8, host := [.readStatus, .readOut] } =
      .next t ∧ t.output = some v :=
  ⟨rfl, by decide +kernel, _, _, decodeCmd_zero ▸ issued_next, State.output_complete_ok _ _ _⟩

theorem witness_OneTotalOrder_read :
    let s : State := { st hw [] with host := [.readOutLen] }
    (∃ t, step s = .next t) ∧ (∀ (c : Byte) (rest : List HostStep), s.host ≠ .issue c :: rest) ∧
    (∀ (key : RsaKey) (rest : List HostStep), s.host ≠ .reset key :: rest) ∧
    (∀ (b : Bytes) (rest : List HostStep), s.host ≠ .writeIn b :: rest) ∧
    (∀ rest : List HostStep, s.host ≠ .writeInFromOut :: rest) :=
  ⟨⟨_, rfl⟩, by simp, by simp, by simp, by simp⟩

theorem witness_NoFaultAndNoHang_admitted :
    (st (rep 0#8 4079) []).Inv ∧ (st (rep 0#8 4079) []).admits .encbAes = true ∧
    (st (rep 0#8 4080) []).Inv ∧ (st (rep 0#8 4080) []).admits .encbAes = false :=
  ⟨st_inv _ _ (rep_le _ _ _ (by decide)), by decide +kernel, st_inv _ _ (rep_le _ _ _ (by decide)), by decide +kernel⟩

/-- Each of the five requests without a step, at its edge. -/
theorem witness_NoFaultAndNoHang_refused :
    step { stOut hw hw with host := [.writeIn (rep 0#8 4097)] } = .refused .inputTooLong ∧
    step { st (rep 0#8 4080) [] with host := [.issue 0x00#8] } = .refused .outputTooLong ∧
    step { stOut hw hw with host := [.readOutAt 11 1] } = .refused .readBeyondOutput ∧
    step { stOut hw hw with host := [.readInAt 11 1] } = .refused .readBeyondInput ∧
    step { stOut hw hw with host := [.reset key256] } = .refused .keyOfOtherParameters := by
  refine ⟨?_, ?_, ?_, ?_, ?_⟩ <;> exact eq_refused (by decide +kernel)

/-! #### Results of the commands -/

theorem witness_EncbAesResult :
    (st (rep 0#8 4079) []).cfg.Valid ∧ (st (rep 0#8 4079) []).input = some (rep 0#8 4079) ∧
    16 * ((rep 0#8 4079).length / 16) + 32 ≤ (st (rep 0#8 4079) []).cfg.bufCap :=
  ⟨(st_inv _ _ (rep_le _ _ _ (by decide))).config, st_input _ _, by rw [rep_length]; decide +kernel⟩

theorem witness_EncbDesResult :
    (st (rep 0#8 4087) []).cfg.Valid ∧ (st (rep 0#8 4087) []).input = some (rep 0#8 4087) ∧
    8 * ((rep 0#8 4087).length / 8) + 16 ≤ (st (rep 0#8 4087) []).cfg.bufCap :=
  ⟨(st_inv _ _ (rep_le _ _ _ (by decide))).config, st_input _ _, by rw [rep_length]; decide +kernel⟩

theorem witness_EnctAesResult :
    (st (rep 0#8 3039) []).cfg.Valid ∧ (st (rep 0#8 3039) []).input = some (rep 0#8 3039) ∧
    4 * ((16 * ((rep 0#8 3039).length / 16) + 32 + 2) / 3) ≤ (st (rep 0#8 3039) []).cfg.bufCap :=
  ⟨(st_inv _ _ (rep_le _ _ _ (by decide))).config, st_input _ _, by rw [rep_length]; decide +kernel⟩

theorem witness_EnctDesResult :
    (st (rep 0#8 3063) []).cfg.Valid ∧ (st (rep 0#8 3063) []).input = some (rep 0#8 3063) ∧
    4 * ((8 * ((rep 0#8 3063).length / 8) + 16 + 2) / 3) ≤ (st (rep 0#8 3063) []).cfg.bufCap :=
  ⟨(st_inv _ _ (rep_le _ _ _ (by decide))).config, st_input _ _, by rw [rep_length]; decide +kernel⟩

/-- V32: framing passes, the padding is bad. -/
theorem unpad_aes_error :
    unpad (cbcDec .aes (regBytes cfg.kAes 16) ((rep 0#8 32).take 16) ((rep 0#8 32).drop 16)) 16 = .error .padding :=
  eq_error (by decide +kernel)

/-- V12. -/
theorem unpad_aes_ok : unpad (cbcDec .aes (regBytes cfg.kAes 16) (env10.take 16) (env10.drop 16)) 16 = .ok hw :=
  eq_ok (by decide +kernel)

/-- V32a: framing passes, the padding is bad. -/
theorem unpad_des_error :
    unpad (cbcDec .des (regBytes cfg.kDes 8) ((rep 0#8 16).take 8) ((rep 0#8 16).drop 8)) 8 = .error .padding :=
  eq_error (by decide +kernel)

/-- V22. -/
theorem unpad_des_ok : unpad (cbcDec .des (regBytes cfg.kDes 8) (env20.take 8) (env20.drop 8)) 8 = .ok hw :=
  eq_ok (by decide +kernel)

/-- Lengths 31 and 33 are no envelope, 32 is one; of a bad padding, of a good one. -/
theorem witness_DecbAesResult :
    ((st (rep 0#8 31) []).input = some (rep 0#8 31) ∧ (rep 0#8 31).length < 32) ∧
    ((st (rep 0#8 33) []).input = some (rep 0#8 33) ∧ (rep 0#8 33).length % 16 ≠ 0) ∧
    ((st (rep 0#8 32) []).input = some (rep 0#8 32) ∧ 32 ≤ (rep 0#8 32).length ∧ (rep 0#8 32).length % 16 = 0 ∧
      unpad (cbcDec .aes (regBytes (st (rep 0#8 32) []).kAes 16) ((rep 0#8 32).take 16) ((rep 0#8 32).drop 16)) 16 =
        .error .padding) ∧
    ((st env10 []).cfg.Valid ∧ (st env10 []).input = some env10 ∧ env10.length ≤ (st env10 []).cfg.bufCap ∧
      32 ≤ env10.length ∧ env10.length % 16 = 0 ∧
      unpad (cbcDec .aes (regBytes (st env10 []).kAes 16) (env10.take 16) (env10.drop 16)) 16 = .ok hw) :=
  ⟨⟨st_input _ _, by decide⟩, ⟨st_input _ _, by decide⟩,
    ⟨st_input _ _, by decide, by decide, unpad_aes_error⟩,
    ⟨(st_inv _ _ (by decide)).config, st_input _ _, by decide, by decide, by decide, unpad_aes_ok⟩⟩

/-- Lengths 15 and 17 are no envelope, 16 is one; of a bad padding, of a good one. -/
theorem witness_DecbDesResult :
    ((st (rep 0#8 15) []).input = some (rep 0#8 15) ∧ (rep 0#8 15).length < 16) ∧
    ((st (rep 0#8 17) []).input = some (rep 0#8 17) ∧ (rep 0#8 17).length % 8 ≠ 0) ∧
    ((st (rep 0#8 16) []).input = some (rep 0#8 16) ∧ 16 ≤ (rep 0#8 16).length ∧ (rep 0#8 16).length % 8 = 0 ∧
      unpad (cbcDec .des (regBytes (st (rep 0#8 16) []).kDes 8) ((rep 0#8 16).take 8) ((rep 0#8 16).drop 8)) 8 =
        .error .padding) ∧
    ((st env20 []).cfg.Valid ∧ (st env20 []).input = some env20 ∧ env20.length ≤ (st env20 []).cfg.bufCap ∧
      16 ≤ env20.length ∧ env20.length % 8 = 0 ∧
      unpad (cbcDec .des (regBytes (st env20 []).kDes 8) (env20.take 8) (env20.drop 8)) 8 = .ok hw) :=
  ⟨⟨st_input _ _, by decide⟩, ⟨st_input _ _, by decide⟩,
    ⟨st_input _ _, by decide, by decide, unpad_des_error⟩,
    ⟨(st_inv _ _ (by decide)).config, st_input _ _, by decide, by decide, by decide, unpad_des_ok⟩⟩

/-- The texts of 31, 33 and 32 zero bytes, of V50, and one that is no text. -/
theorem witness_DectAesResult :
    ((st (ascii "Zh==") []).cfg.Valid ∧ (st (ascii "Zh==") []).input = some (ascii "Zh==") ∧
      (ascii "Zh==").length ≤ (st (ascii "Zh==") []).cfg.bufCap ∧ b64Dec (ascii "Zh==") = .error .format) ∧
    (b64Dec (b64Enc (rep 0#8 31)) = .ok (rep 0#8 31) ∧ (rep 0#8 31).length < 32) ∧
    (b64Dec (b64Enc (rep 0#8 33)) = .ok (rep 0#8 33) ∧ (rep 0#8 33).length % 16 ≠ 0) ∧
    (b64Dec (b64Enc (rep 0#8 32)) = .ok (rep 0#8 32) ∧ 32 ≤ (rep 0#8 32).length ∧ (rep 0#8 32).length % 16 = 0 ∧
      unpad (cbcDec .aes (regBytes cfg.kAes 16) ((rep 0#8 32).take 16) ((rep 0#8 32).drop 16)) 16 = .error .padding) ∧
    (b64Dec (ascii "AAECAwQFBgcICQoLDA0OD2buTfrsVqcc0zzUxRUdfYg=") = .ok env10 ∧ 32 ≤ env10.length ∧
      env10.length % 16 = 0 ∧
      unpad (cbcDec .aes (regBytes cfg.kAes 16) (env10.take 16) (env10.drop 16)) 16 = .ok hw) :=
  ⟨⟨(st_inv _ _ (by decide +kernel)).config, st_input _ _, by decide +kernel, eq_error (by decide +kernel)⟩,
    ⟨eq_ok (by decide +kernel), by decide⟩, ⟨eq_ok (by decide +kernel), by decide⟩,
    ⟨eq_ok (by decide +kernel), by decide, by decide, unpad_aes_error⟩,
    ⟨eq_ok (by decide +kernel), by decide, by decide, unpad_aes_ok⟩⟩

/-- The texts of 15, 17 and 16 zero bytes, of V50d, and one that is no text. -/
theorem witness_DectDesResult :
    ((st (ascii "Zm9") []).cfg.Valid ∧ (st (ascii "Zm9") []).input = some (ascii "Zm9") ∧
      (ascii "Zm9").length ≤ (st (ascii "Zm9") []).cfg.bufCap ∧ b64Dec (ascii "Zm9") = .error .format) ∧
    (b64Dec (b64Enc (rep 0#8 15)) = .ok (rep 0#8 15) ∧ (rep 0#8 15).length < 16) ∧
    (b64Dec (b64Enc (rep 0#8 17)) = .ok (rep 0#8 17) ∧ (rep 0#8 17).length % 8 ≠ 0) ∧
    (b64Dec (b64Enc (rep 0#8 16)) = .ok (rep 0#8 16) ∧ 16 ≤ (rep 0#8 16).length ∧ (rep 0#8 16).length % 8 = 0 ∧
      unpad (cbcDec .des (regBytes cfg.kDes 8) ((rep 0#8 16).take 8) ((rep 0#8 16).drop 8)) 8 = .error .padding) ∧
    (b64Dec (ascii "AAECAwQFBgf2Nka4sdmpAj21X4jeSzD1") = .ok env20 ∧ 16 ≤ env20.length ∧ env20.length % 8 = 0 ∧
      unpad (cbcDec .des (regBytes cfg.kDes 8) (env20.take 8) (env20.drop 8)) 8 = .ok hw) :=
  ⟨⟨(st_inv _ _ (by decide +kernel)).config, st_input _ _, by decide +kernel, eq_error (by decide +kernel)⟩,
    ⟨eq_ok (by decide +kernel), by decide⟩, ⟨eq_ok (by decide +kernel), by decide⟩,
    ⟨eq_ok (by decide +kernel), by decide, by decide, unpad_des_error⟩,
    ⟨eq_ok (by decide +kernel), by decide, by decide, unpad_des_ok⟩⟩

/-- `RSA_MAX` is 22 here: 22 bytes and 23. -/
theorem witness_EnctRsaResult :
    ((st (rep 0x41#8 22) seed).cfg.Valid ∧ (st (rep 0x41#8 22) seed).input = some (rep 0x41#8 22) ∧
      (rep 0x41#8 22).length ≤ cfg.rsaK - 2 * cfg.hash.hLen - 2) ∧
    ((st (rep 0x41#8 23) seed).input = some (rep 0x41#8 23) ∧
      cfg.rsaK - 2 * cfg.hash.hLen - 2 < (rep 0x41#8 23).length) :=
  ⟨⟨(st_inv _ _ (by decide)).config, st_input _ _, by decide⟩, ⟨st_input _ _, by decide⟩⟩

/-- A text of 63 bytes, of the modulus itself, of 64 zero bytes, of V46, and one that is no text. -/
theorem witness_DectRsaResult :
    ((st (ascii "Zg=") []).cfg.Valid ∧ (st (ascii "Zg=") []).input = some (ascii "Zg=") ∧
      (ascii "Zg=").length ≤ (st (ascii "Zg=") []).cfg.bufCap ∧ b64Dec (ascii "Zg=") = .error .format) ∧
    (b64Dec (b64Enc (rep 0#8 63)) = .ok (rep 0#8 63) ∧ (rep 0#8 63).length ≠ cfg.rsaK) ∧
    (b64Dec (b64Enc (hex 64 n64)) = .ok (hex 64 n64) ∧ n64 ≤ os2ip (hex 64 n64)) ∧
    (b64Dec (b64Enc (rep 0#8 64)) = .ok (rep 0#8 64) ∧ (rep 0#8 64).length = cfg.rsaK ∧ os2ip (rep 0#8 64) < n64 ∧
      oaepDecode cfg.hash cfg.rsaK (i2osp (modPow (os2ip (rep 0#8 64)) d64 n64) cfg.rsaK) = .error .decryption) ∧
    (b64Dec text46 = .ok c44 ∧ c44.length = cfg.rsaK ∧ os2ip c44 < n64 ∧
      oaepDecode cfg.hash cfg.rsaK (i2osp (modPow (os2ip c44) d64 n64) cfg.rsaK) = .ok hw) :=
  ⟨⟨(st_inv _ _ (by decide +kernel)).config, st_input _ _, by decide +kernel, eq_error (by decide +kernel)⟩,
    ⟨eq_ok (by decide +kernel), by decide⟩, ⟨eq_ok (by decide +kernel), by decide +kernel⟩,
    ⟨eq_ok (by decide +kernel), by decide, by decide +kernel, eq_error (by decide +kernel)⟩,
    ⟨eq_ok (by decide +kernel), by decide +kernel, by decide +kernel, eq_ok (by decide +kernel)⟩⟩

theorem witness_RsaOnBytesIsUnsupported : (st (rep 0#8 4096) []).inLen ≤ cfg.bufCap := by decide +kernel

theorem witness_UnsupResult :
    (st hw []).inLen ≤ cfg.bufCap ∧ fieldRsv 0x03#8 = 0#4 ∧ (0x03#8 : Byte).extractLsb' 0 2 = 3#2 := by
  decide +kernel

theorem witness_RsvdResult : (st hw []).inLen ≤ cfg.bufCap ∧ 0x10 ≤ (0x10#8 : Byte).toNat := by decide +kernel

/-! #### Rules over all commands -/

/-- A reset with `key256` pending, from a state in which the buffers and `STATUS` hold something. -/
def resetting : State := { (st256 hw).complete 0x04#8 (.ok hw) with host := [.reset key256] }

theorem resetting_next : step resetting = .next { resetting.resetTo witnessN witnessD with host := [] } := rfl

theorem witness_StatusOfEveryCommandIsLegal :
    (∃ t, exec .decbAes (st (rep 0#8 31) []) = .next t) ∧
    (∃ t, hostStep (.reset key256) (st256 hw) = .next t) ∧
    (resetting.host = .reset key256 :: [] ∧ resetting.status ≠ 0#16 ∧ ∃ t, step resetting = .next t) ∧
    ∃ t, hostStep (.issue 0x02#8) (st hw []) = .next t ∧ t.status ≠ (st hw []).status :=
  ⟨exists_next (by decide +kernel), ⟨_, rfl⟩, ⟨rfl, by decide, _, resetting_next⟩,
    _, exec_encbRsa { st hw [] with cmd := 0x02#8 } (by decide +kernel), by decide +kernel⟩

theorem witness_ErrorsOfEachCommand :
    (∃ t, exec .enctAes (st hw iv16) = .next t) ∧ ∃ t, exec .dectRsa (st [] []) = .next t :=
  ⟨exists_next (by decide +kernel), exists_next (by decide +kernel)⟩

theorem witness_CommandsWriteOnlyOutputAndStatus :
    ∃ t, exec .decbRsa (st hw []) = .next t ∧ statusErr t.status ≠ 0#3 :=
  ⟨_, exec_decbRsa (st hw []) (by decide +kernel), by decide +kernel⟩

/-- The last length admitted and the first refused; a decryption; a failing encryption. -/
theorem witness_AdmissionBoundsOutput :
    ((st (rep 0#8 3056) []).Inv ∧ cfg.bufCap < outLenMax cfg .enctAes (st (rep 0#8 3056) []).inLen) ∧
    ((st (rep 0#8 3055) []).Inv ∧ outLenMax cfg .enctAes (st (rep 0#8 3055) []).inLen ≤ cfg.bufCap) ∧
    ((∃ t, exec .decbDes (st env20 []) = .next t) ∧ fieldDir (encodeCmd .decbDes) = .decrypt) ∧
    (∃ t, exec .encbRsa (st hw []) = .next t ∧ statusErr t.status ≠ 0#3) :=
  ⟨⟨st_inv _ _ (rep_le _ _ _ (by decide)), by decide +kernel⟩, ⟨st_inv _ _ (rep_le _ _ _ (by decide)), by decide +kernel⟩,
    ⟨exists_next (by decide +kernel), by decide⟩,
    _, exec_encbRsa (st hw []) (by decide +kernel), by decide +kernel⟩

theorem witness_CapabilityMatrix :
    (∃ t, exec (decodeCmd 0x0A#8) (st hw seed) = .next t) ∧ ∃ t, exec (decodeCmd 0x10#8) (st hw []) = .next t :=
  ⟨exists_next (by decide +kernel), exists_next (by decide +kernel)⟩

theorem witness_UnsupportedCommandsIgnoreInput :
    supportedByte 0x02#8 = false ∧ supportedByte 0xFF#8 = false ∧ (st hw []).inLen ≤ cfg.bufCap ∧
    4096 ≤ cfg.bufCap := by decide +kernel

theorem witness_RetryGivesTheSameOutcome :
    ((∃ t, exec .decbAes (st env10 []) = .next t) ∧ fieldDir (encodeCmd .decbAes) = .decrypt) ∧
    ∃ t, exec .encbRsa (st hw []) = .next t ∧ statusErr t.status ≠ 0#3 :=
  ⟨⟨exists_next (by decide +kernel), by decide⟩,
    _, exec_encbRsa (st hw []) (by decide +kernel), by decide +kernel⟩

/-- `ENCT.AES` on "hello world", as a next state written out. -/
theorem enctAes_next :
    exec .enctAes (st hw iv16) =
      .next (((st hw iv16).afterDraw 16).complete 0x08#8 (.ok (b64Enc ((st hw iv16).encBlock .aes hw)))) :=
  exec_enctAes (st hw iv16) hw (by decide +kernel) (st_input hw iv16)

theorem enctAes_output :
    (((st hw iv16).afterDraw 16).complete 0x08#8 (.ok (b64Enc ((st hw iv16).encBlock .aes hw)))).output =
      some (b64Enc ((st hw iv16).encBlock .aes hw)) :=
  State.output_complete_ok _ _ _

theorem witness_ResultRecordAfterCommand :
    (∃ t, exec .enctAes (st hw iv16) = .next t ∧ statusErr t.status = 0#3 ∧
      fieldDir (encodeCmd .enctAes) = .encrypt) ∧
    ∃ t, exec .decbAes (st env10 []) = .next t ∧ statusErr t.status = 0#3 ∧ fieldDir (encodeCmd .decbAes) = .decrypt := by
  refine ⟨⟨_, enctAes_next, by decide, by decide⟩, _,
    exec_decbAes (st env10 []) env10 (by decide +kernel) (st_input env10 []), ?_, by decide⟩
  have h : (st env10 []).decBlock .aes env10 = .ok hw := eq_ok (by decide +kernel)
  simp only [h]
  decide

/-! #### Invariants and reset -/

theorem witness_StepKeepsInv :
    let s : State := { st hw iv16 with host := [.issue 0x00#8] }
    s.Inv ∧ ∃ t, step s = .next t :=
  ⟨(st_inv hw iv16 (by decide)).withAgents iv16 0 [.issue 0x00#8] [], exists_next (by decide +kernel)⟩

theorem cfg256_valid : cfg256.Valid := by decide +kernel

theorem st256_inv (m : Bytes) (h : m.length ≤ 4096) : (st256 m).Inv :=
  (State.inv_powerOn cfg256 witnessN witnessD cfg256_valid witness_valid.fits).loadIn m h

theorem st256_sameKeys (a b : Bytes) : SameKeys (st256 a) (st256 b) := by simp [SameKeys, st256]

theorem witness_StepKeepsKeyValid :
    resetting.KeyValid ∧ resetting.host = .reset key256 :: [] ∧ ∃ t, step resetting = .next t :=
  ⟨witness_valid, rfl, _, resetting_next⟩

theorem witness_StepKeepsMemoryCanonical :
    let s : State := { stOut hw env10 with host := [.writeInFromOut] }
    s.inBuf.wf = true ∧ s.outBuf.wf = true ∧ ∃ t, step s = .next t :=
  ⟨by decide +kernel, by decide +kernel, exists_next (by decide +kernel)⟩

theorem witness_KeysAreNeverWrittenOrRead :
    let s : State := { st hw iv16 with host := [.issue 0x00#8] }
    ((∃ t, step s = .next t) ∧ (∀ (key : RsaKey) (rest : List HostStep), s.host ≠ .reset key :: rest)) ∧
    ((∀ c, HostStep.readOut ≠ .issue c) ∧ (∀ key, HostStep.readOut ≠ .reset key) ∧
      ∃ t, hostStep .readOut (stOut hw hw) = .next t) :=
  ⟨⟨exists_next (by decide +kernel), by simp⟩, by simp, by simp, exists_next (by decide +kernel)⟩

theorem witness_ResetSetsEveryRegister :
    (resetting.host = .reset key256 :: [] ∧ key256.e = resetting.cfg.rsaE ∧ key256.k = resetting.cfg.rsaK) ∧
    ValidRsaKey witnessN (st256 hw).cfg.rsaE witnessD (st256 hw).cfg.rsaK ∧
    ((∃ t, step { st256 hw with host := [.writeIn hw] } = .next t) ∧
      (∀ (c : Byte) (rest : List HostStep), [HostStep.writeIn hw] ≠ .issue c :: rest) ∧
      (∀ (key : RsaKey) (rest : List HostStep), [HostStep.writeIn hw] ≠ .reset key :: rest)) :=
  ⟨⟨rfl, rfl, rfl⟩, witness_valid, exists_next (by decide +kernel), by simp, by simp⟩

/-- A configuration whose capacity is 44, the text of an empty input under AES, with 6-bit length registers. -/
def cfg44 : Config := { cfg with rsaK := 33, hash := .other 15, bufCap := 44, lenW := 6 }

theorem witness_AnyCommandMayBeFirstAfterReset :
    cfg44.Valid ∧ outLenMax cfg44 (decodeCmd 0x08#8) 0 ≤ cfg44.bufCap ∧ 44 ≤ cfg44.bufCap ∧ 32 ≤ cfg44.bufCap := by
  decide +kernel

/-! #### Padding, framing, chaining -/

theorem witness_PadLaws : (1 ≤ 8 ∧ 8 ≤ 255) ∧ (1 ≤ 1 ∧ 255 ≤ 255) := by decide

theorem witness_UnpadAcceptsExactlyPaddings :
    (1 ≤ 16 ∧ 16 ≤ 255) ∧ unpad (hw ++ rep 5#8 5) 16 = .ok hw ∧ unpad (rep 16#8 16) 16 = .ok [] ∧
    unpad (rep 17#8 16) 16 = .error .padding :=
  ⟨by decide, eq_ok (by decide +kernel), eq_ok (by decide +kernel), eq_error (by decide +kernel)⟩

theorem witness_PadUnpadRoundTrip :
    (8 = 8 ∨ 8 = 16) ∧ (16 = 8 ∨ 16 = 16) ∧ unpad (rep 1#8 9) 8 = .ok (rep 1#8 8) ∧ (rep 1#8 9).length % 8 ≠ 0 ∧
    unpad (rep 1#8 8) 8 = .ok (rep 1#8 7) ∧ (rep 1#8 8).length % 8 = 0 :=
  ⟨by decide, by decide, eq_ok (by decide +kernel), by decide, eq_ok (by decide +kernel), by decide⟩

theorem witness_UnmarshalAcceptsExactlyFramed :
    0 < 16 ∧ (∃ m, 1 ≤ m ∧ (rep 0#8 32).length = 16 * (m + 1)) ∧
    ¬ ∃ m, 1 ≤ m ∧ (rep 0#8 16).length = 16 * (m + 1) := by
  refine ⟨by decide, ⟨1, by decide, by decide⟩, ?_⟩
  rintro ⟨m, h1, h2⟩
  simp [rep] at h2
  omega

theorem witness_CbcDecInvertsCbcEnc :
    (iv16.length = keySize .aes ∧ iv16.length = blockSize .aes ∧ (rep 0#8 32).length = 2 * blockSize .aes) ∧
    (iv8.length = keySize .des ∧ iv8.length = blockSize .des ∧ ([] : Bytes).length = 0 * blockSize .des) := by decide

/-- V20 with byte 8 changed, and byte 0 of the IV. -/
theorem witness_TamperingNeverGivesTheOriginal :
    (regBytes cfg.kDes 8).length = keySize .des ∧ iv8.length = blockSize .des ∧
    (8 < (encBlock .des (regBytes cfg.kDes 8) iv8 hw).length ∧
      (encBlock .des (regBytes cfg.kDes 8) iv8 hw)[8]? ≠ some 0xF7#8) ∧
    (0 < (encBlock .des (regBytes cfg.kDes 8) iv8 hw).length ∧
      (encBlock .des (regBytes cfg.kDes 8) iv8 hw)[0]? ≠ some 0x01#8) := by decide +kernel

theorem witness_BlockCipherRoundTrip :
    ∃ t u : State, (st hw iv16).Inv ∧ u.Inv ∧ u.cfg = (st hw iv16).cfg ∧ (st hw iv16).input = some hw ∧
      exec (encCommand .text .aes) (st hw iv16) = .next t ∧ u.input = t.output :=
  ⟨_, st (b64Enc ((st hw iv16).encBlock .aes hw)) [], st_inv _ _ (by decide), st_inv _ _ (by decide +kernel),
    (st_cfg _ _).trans (st_cfg _ _).symm, st_input _ _, enctAes_next,
    (st_input _ _).trans enctAes_output.symm⟩

/-- Two encryptions of "hello world", with draws of 32 different bytes. -/
def twice : State :=
  { st hw (hex 32 0x000102030405060708090a0b0c0d0e0f101112131415161718191a1b1c1d1e1f) with
    host := [.issue 0x00#8, .issue 0x00#8] }

theorem witness_FreshDrawsGiveDistinctEnvelopes :
    twice.Inv ∧ RngFresh twice ∧ twice.host = .issue 0x00#8 :: .issue 0x00#8 :: [] ∧
    ∃ t u, step twice = .next t ∧ step t = .next u := by
  have hin : twice.input = some hw := st_input hw []
  have hs : twice.host = .issue 0x00#8 :: [.issue 0x00#8] := rfl
  obtain ⟨t, ht, h1, h2, h3, h4, h5⟩ : ∃ t, step twice = .next t ∧ t.cfg = cfg ∧ t.inLen = twice.inLen ∧
      t.inBuf = twice.inBuf ∧ t.host = [.issue 0x00#8] ∧ t.entropy = twice.entropy.drop 16 := by
    rw [step_cons twice _ _ hs, issue_zero]
    exact ⟨_, exec_encbAes _ hw (by decide +kernel) hin, rfl, rfl, rfl, rfl, rfl⟩
  obtain ⟨u, hu, h8⟩ : ∃ u, step t = .next u ∧ u.host = [] := by
    rw [step_cons t _ _ h4, issue_zero]
    refine ⟨_, exec_encbAes _ hw ?_ ?_, rfl⟩
    · rw [State.admits_iff]; simp only [h1, h2]; decide +kernel
    · simpa [State.input, h2, h3] using hin
  refine ⟨(st_inv hw _ (by decide)).withAgents _ 0 _ [], fun k => ?_, rfl, t, u, ht, hu⟩
  match k with
  | 0 => exact List.Pairwise.nil
  | 1 =>
    have hk : ivDraws 1 twice = [twice.draw 16] := by simp [ivDraws, ht, hs, ivLength, decodeCmd_zero]
    rw [hk]; exact List.pairwise_singleton _ _
  | k + 2 =>
    have hk : ivDraws (k + 2) twice = [twice.draw 16, t.draw 16] := by
      simp [ivDraws, ht, hu, h4, hs, ivLength, decodeCmd_zero, ivDraws_of_host_nil k u h8]
    rw [hk, State.draw_of_entropy twice 16 (by decide +kernel),
      State.draw_of_entropy t 16 (by rw [h5]; decide +kernel), h5]
    refine List.pairwise_pair.2 fun _ => ?_
    decide +kernel

/-- P5: the text of V10 against the envelope itself; and two encryptions of one input with one draw. -/
theorem witness_TextAndBytesShareOneEngine :
    ((st (b64Enc env10) []).Inv ∧ (st env10 []).Inv ∧ (st env10 []).cfg = (st (b64Enc env10) []).cfg ∧
      (st (b64Enc env10) []).input = some (b64Enc env10) ∧ (st env10 []).input = some env10) ∧
    (st hw iv16).Inv ∧
    (∃ t t', exec (encCommand .text .aes) (st hw iv16) = .next t ∧ exec (encCommand .bytes .aes) (st hw iv16) = .next t') :=
  ⟨⟨st_inv _ _ (by decide +kernel), st_inv _ _ (by decide),
      (st_cfg _ _).trans (st_cfg _ _).symm, st_input _ _,
      st_input _ _⟩,
    st_inv _ _ (by decide),
    _, _, enctAes_next, exec_encbAes (st hw iv16) hw (by decide +kernel) (st_input hw iv16)⟩

/-! #### The primitives -/

theorem witness_BlockFunctionsAreInverse :
    iv16.length = 16 ∧ iv8.length = 8 ∧ (hex 8 0x133457799bbcdff1).length = 8 ∧ (hex 8 0x123556789abddef0).length = 8 ∧
    (hex 8 0x133457799bbcdff1).map (fun b => b &&& 0xFE#8) =
      (hex 8 0x123556789abddef0).map (fun b => b &&& 0xFE#8) := by decide +kernel

theorem witness_OctetStringConversions : 65535 < 256 ^ 2 ∧ 1 < 2 := by decide

theorem witness_RsaPrimitivesAreModularPowers : n64 - 1 < n64 ∧ 0 < 1 := by decide +kernel

theorem witness_RsaKeyLaw : ValidRsaKey witnessN 65537 witnessD 256 ∧ witnessN - 1 < witnessN :=
  ⟨witness_valid, by decide +kernel⟩

theorem witness_OaepDecodeInvertsEncode :
    0 < HashAlg.sha1.hLen ∧ 2 * HashAlg.sha1.hLen + 2 ≤ 64 ∧ (rep 0x41#8 22).length ≤ 64 - 2 * HashAlg.sha1.hLen - 2 ∧
    seed.length = HashAlg.sha1.hLen := by decide

theorem witness_RsaCiphertextFormat : 2 ^ (8 * 64 - 1) ≤ n64 ∧ n64 < 2 ^ (8 * 64) := by decide +kernel

/-- `RSA_MAX` bytes under the default size of modulus. -/
def longest : State := st256 (rep 0x41#8 214)

/-- The ciphertext of `longest`. -/
def longestText : Bytes :=
  b64Enc (rsaEncryptSeeded longest.cfg.hash longest.cfg.rsaK longest.rsaN longest.rsaE (rep 0x41#8 214)
    (longest.draw longest.cfg.hash.hLen))

theorem longestText_length : longestText.length = 344 := by decide +kernel

theorem longest_input : longest.input = some (rep 0x41#8 214) :=
  State.input_loadIn (State.powerOn cfg256 witnessN witnessD) _

theorem witness_RsaRoundTrip :
    ∃ t u : State, longest.Inv ∧ u.Inv ∧ longest.KeyValid ∧ SameKeys longest u ∧
      longest.input = some (rep 0x41#8 214) ∧ (rep 0x41#8 214).length ≤ longest.cfg.rsaMax ∧
      exec .enctRsa longest = .next t ∧ u.input = t.output := by
  have hmax : (rep 0x41#8 214).length ≤ longest.cfg.rsaMax := by decide +kernel
  refine ⟨_, st256 longestText, st256_inv _ (by decide +kernel), st256_inv _ ?_, witness_valid, ?_, longest_input,
    hmax, exec_enctRsa longest _ (by decide +kernel) longest_input hmax, ?_⟩
  · rw [longestText_length]; decide
  · exact st256_sameKeys _ _
  · rw [State.output_complete_ok]
    exact State.input_loadIn (State.powerOn cfg256 witnessN witnessD) longestText

theorem witness_Radix64Bijection :
    b64Dec (ascii "Zm8=") = .ok (hex 2 0x666f) ∧ b64Dec (ascii "Zm9=") = .error .format :=
  ⟨eq_ok (by decide +kernel), eq_error (by decide +kernel)⟩

end Sys2Proof.Tests
end

section
/-! Totality of a step under the invariant: an equation for each way a HOST step can end, the conditions under which one is
refused, and O9 (00_scope.md R17, 10_state.md R35, 20_memory.md R58). -/

namespace Sys2Proof.Machine

/-! ### Runs of bytes inside a buffer -/

/-- Reading a range of what a space was made to hold. -/
theorem Memory.readBytes_ofBytes_range (v : Bytes) (a n : Nat) (h : a + n ≤ v.length) :
    Memory.readBytes (Memory.ofBytes v) a n = some ((v.drop a).take n) := by
  rw [Memory.readBytes_eq_some_iff]
  refine ⟨by simp; omega, fun i hi => ?_⟩
  simp [hi]

/-- Every range below the length of a buffer is readable. -/
theorem holdsLength.readBytes_range {m : Memory} {len cap : Nat} (h : holdsLength m len cap) (a n : Nat)
    (hl : a + n ≤ len) : ∃ v, m.readBytes a n = some v := by
  obtain ⟨v, rfl, rfl, -⟩ := h
  exact ⟨_, Memory.readBytes_ofBytes_range v a n hl⟩

/-! ### Commands -/

theorem rejectCommand_refused (i : Instr) (s : State) (ha : s.admits i = false) :
    rejectCommand i s = .refused .outputTooLong := by
  simp [rejectCommand, ha]

/-- Every command is written over one of the two shared operations. -/
theorem exec_eq_run_or_reject (i : Instr) (s : State) :
    (∃ f, exec i s = runCommand i f s) ∨ exec i s = rejectCommand i s := by
  cases i with
  | encbAes | encbDes | decbAes | decbDes | enctAes | enctDes | enctRsa | dectAes | dectDes | dectRsa =>
    exact .inl ⟨_, rfl⟩
  | encbRsa | decbRsa | unsup | rsvd7 | rsvd6 | rsvd5 | rsvd4 => exact .inr rfl

/-- An admitted command whose input is defined completes. -/
theorem exec_completes (i : Instr) (s : State) (b : Bytes) (ha : s.admits i = true) (hb : s.input = some b) :
    ∃ t, exec i s = .next t := by
  rcases exec_eq_run_or_reject i s with ⟨f, hf⟩ | hr
  · exact ⟨_, hf.trans (runCommand_eq i f s b ha hb)⟩
  · exact ⟨_, hr.trans (rejectCommand_eq i s ha)⟩

/-- A command that is not admitted is refused, whatever `IN` holds. -/
theorem exec_refused (i : Instr) (s : State) (ha : s.admits i = false) : exec i s = .refused .outputTooLong := by
  rcases exec_eq_run_or_reject i s with ⟨f, hf⟩ | hr
  · exact hf.trans (runCommand_refused i f s ha)
  · exact hr.trans (rejectCommand_refused i s ha)

/-! ### HOST steps -/

theorem hostWriteIn_eq (b : Bytes) (s : State) (h : b.length ≤ s.cfg.bufCap) : hostWriteIn b s = .next (s.loadIn b) :=
  if_pos h

theorem hostWriteIn_refused (b : Bytes) (s : State) (h : s.cfg.bufCap < b.length) :
    hostWriteIn b s = .refused .inputTooLong :=
  if_neg (Nat.not_le.2 h)

/-- `IN <- OUT` is never refused: what `OUT` holds fits `IN`. -/
theorem hostWriteInFromOut_eq (s : State) (v : Bytes) (hv : s.output = some v) (h : v.length ≤ s.cfg.bufCap) :
    hostWriteInFromOut s = .next (s.loadIn v) := by
  simp [hostWriteInFromOut, hv, hostWriteIn_eq v s h]

theorem hostReadOutAt_eq (a n : Nat) (s : State) (v : Bytes) (h : a + n ≤ s.outLen)
    (hv : s.outBuf.readBytes a n = some v) : hostReadOutAt a n s = .next (s.reply (.outBytes v)) := by
  simp [hostReadOutAt, h, hv]

theorem hostReadOutAt_refused (a n : Nat) (s : State) (h : s.outLen < a + n) :
    hostReadOutAt a n s = .refused .readBeyondOutput :=
  if_neg (Nat.not_le.2 h)

theorem hostReadInAt_eq (a n : Nat) (s : State) (v : Bytes) (h : a + n ≤ s.inLen)
    (hv : s.inBuf.readBytes a n = some v) : hostReadInAt a n s = .next (s.reply (.inBytes v)) := by
  simp [hostReadInAt, h, hv]

theorem hostReadInAt_refused (a n : Nat) (s : State) (h : s.inLen < a + n) :
    hostReadInAt a n s = .refused .readBeyondInput :=
  if_neg (Nat.not_le.2 h)

theorem platformReset_eq (key : RsaKey) (s : State) (he : key.e = s.cfg.rsaE) (hk : key.k = s.cfg.rsaK) :
    platformReset key s = .next (s.resetTo key.n key.d) :=
  if_pos ⟨he, hk⟩

theorem platformReset_refused (key : RsaKey) (s : State) (h : key.e ≠ s.cfg.rsaE ∨ key.k ≠ s.cfg.rsaK) :
    platformReset key s = .refused .keyOfOtherParameters :=
  if_neg (not_and_or.2 h)

/-- Under the invariant a read of `OUT` up to `OUT_LEN` is answered. -/
theorem State.Inv.hostReadOutAt_answers {s : State} (hi : s.Inv) (a n : Nat) (h : a + n ≤ s.outLen) :
    ∃ t, hostReadOutAt a n s = .next t :=
  let ⟨v, hv⟩ := hi.output.readBytes_range a n h
  ⟨_, hostReadOutAt_eq a n s v h hv⟩

/-- Under the invariant a read of `IN` up to `IN_LEN` is answered. -/
theorem State.Inv.hostReadInAt_answers {s : State} (hi : s.Inv) (a n : Nat) (h : a + n ≤ s.inLen) :
    ∃ t, hostReadInAt a n s = .next t :=
  let ⟨v, hv⟩ := hi.input.readBytes_range a n h
  ⟨_, hostReadInAt_eq a n s v h hv⟩

/-! ### What is refused -/

/-- The requests the machine refuses in state `s`, each with its reason (00_scope.md R17; logs 6, 23). -/
inductive RefusedFor (s : State) : HostStep → Refusal → Prop where
  | input {b : Bytes} (h : s.cfg.bufCap < b.length) : RefusedFor s (.writeIn b) .inputTooLong
  | command {c : Byte} (h : s.admits (decodeCmd c) = false) : RefusedFor s (.issue c) .outputTooLong
  | readOut {a n : Nat} (h : s.outLen < a + n) : RefusedFor s (.readOutAt a n) .readBeyondOutput
  | readIn {a n : Nat} (h : s.inLen < a + n) : RefusedFor s (.readInAt a n) .readBeyondInput
  | key {key : RsaKey} (h : key.e ≠ s.cfg.rsaE ∨ key.k ≠ s.cfg.rsaK) : RefusedFor s (.reset key) .keyOfOtherParameters

/-- Under the invariant a HOST step is answered, or refused for one of the reasons: it never faults. -/
theorem State.Inv.hostStep_total {s : State} (hi : s.Inv) (x : HostStep) :
    (∃ t, hostStep x s = .next t) ∨ ∃ r, hostStep x s = .refused r ∧ RefusedFor s x r := by
  cases x with
  | writeIn b =>
    rcases le_or_gt b.length s.cfg.bufCap with h | h
    · exact .inl ⟨_, hostWriteIn_eq b s h⟩
    · exact .inr ⟨_, hostWriteIn_refused b s h, .input h⟩
  | writeInFromOut =>
    obtain ⟨v, hv, -, hc⟩ := hi.output_eq_some
    exact .inl ⟨_, hostWriteInFromOut_eq s v hv hc⟩
  | issue c =>
    obtain ⟨b, hb, -⟩ := hi.input_eq_some
    cases ha : s.admits (decodeCmd c) with
    | true => exact .inl (exec_completes (decodeCmd c) { s with cmd := c } b ha hb)
    | false => exact .inr ⟨_, exec_refused (decodeCmd c) { s with cmd := c } ha, .command ha⟩
  | readOut => exact .inl (hi.hostReadOutAt_answers 0 s.outLen (Nat.zero_add _).le)
  | readOutAt a n =>
    rcases le_or_gt (a + n) s.outLen with h | h
    · exact .inl (hi.hostReadOutAt_answers a n h)
    · exact .inr ⟨_, hostReadOutAt_refused a n s h, .readOut h⟩
  | readIn => exact .inl (hi.hostReadInAt_answers 0 s.inLen (Nat.zero_add _).le)
  | readInAt a n =>
    rcases le_or_gt (a + n) s.inLen with h | h
    · exact .inl (hi.hostReadInAt_answers a n h)
    · exact .inr ⟨_, hostReadInAt_refused a n s h, .readIn h⟩
  | readStatus | readInLen | readOutLen => exact .inl ⟨_, rfl⟩
  | reset key =>
    by_cases h : key.e = s.cfg.rsaE ∧ key.k = s.cfg.rsaK
    · exact .inl ⟨_, platformReset_eq key s h.1 h.2⟩
    · exact .inr ⟨_, platformReset_refused key s (not_and_or.1 h), .key (not_and_or.1 h)⟩

/-- A step under the invariant: it is answered, or the pending HOST step is refused for one of the reasons. -/
theorem State.Inv.step_total {s : State} (hi : s.Inv) :
    (∃ t, step s = .next t) ∨
    ∃ x rest r, s.host = x :: rest ∧ step s = .refused r ∧ RefusedFor { s with host := rest } x r := by
  cases hh : s.host with
  | nil => exact .inl ⟨s, step_nil s hh⟩
  | cons x rest =>
    have hi' : ({ s with host := rest } : State).Inv := hi.withAgents s.entropy s.drawn rest s.replies
    rw [step_cons s x rest hh]
    exact (hi'.hostStep_total x).imp_right fun ⟨r, hr, hx⟩ => ⟨x, rest, r, rfl, hr, hx⟩

theorem State.Inv.step_ne_fault {s : State} (hi : s.Inv) (f : Fault) : step s ≠ .fault f := by
  rcases hi.step_total with ⟨t, ht⟩ | ⟨x, rest, r, -, hr, -⟩
  · simp [ht]
  · simp [hr]

/-- Every refused step is on the list of refusals. -/
theorem State.Inv.refusedFor_of_step {s : State} (hi : s.Inv) {r : Refusal} (h : step s = .refused r) :
    ∃ x rest, s.host = x :: rest ∧ RefusedFor { s with host := rest } x r := by
  rcases hi.step_total with ⟨t, ht⟩ | ⟨x, rest, r', hx, hr, hw⟩
  · simp [ht] at h
  · obtain rfl : r' = r := by simpa [hr] using h
    exact ⟨x, rest, hx, hw⟩

/-- Settles O9: under the invariant the input and every range below a length register are defined, so a step either is
answered or is one of the listed refusals. -/
theorem noFaultAndNoHang : Obligations.NoFaultAndNoHang := by
  unfold Obligations.NoFaultAndNoHang
  intro s hi
  refine ⟨hi.step_ne_fault, fun i ha => ?_, fun r hr => ?_⟩
  · obtain ⟨b, hb, -⟩ := hi.input_eq_some
    exact exec_completes i s b ha hb
  · obtain ⟨x, rest, hx, hw⟩ := hi.refusedFor_of_step hr
    cases hw with
    | input h => exact .inl ⟨_, rest, hx, h, rfl⟩
    | command h => exact .inr (.inl ⟨_, rest, hx, h, rfl⟩)
    | readOut h => exact .inr (.inr (.inl ⟨_, _, rest, hx, h, rfl⟩))
    | readIn h => exact .inr (.inr (.inr (.inl ⟨_, _, rest, hx, h, rfl⟩)))
    | key h => exact .inr (.inr (.inr (.inr ⟨_, rest, hx, h, rfl⟩)))

end Sys2Proof.Machine
end

section
/-! Lengths: what the engines and the transport codec return, and the bound of 20_memory.md R58 on the result of every
command. -/

namespace Sys2Proof.Machine

/-! ### Padding and framing -/

/-- A padded string is the next whole number of blocks (40_padding.md R92). -/
theorem pad_length (data : Bytes) (bs : Nat) (h : 0 < bs) :
    (pad data bs).length = bs * (data.length / bs) + bs := by
  have hmod := Nat.mod_lt data.length h
  have hdiv := Nat.div_add_mod data.length bs
  simp only [pad, List.length_append, rep_length]
  omega

theorem unpad_length_le (p v : Bytes) (bs : Nat) (h : unpad p bs = .ok v) : v.length ≤ p.length := by
  unfold unpad at h
  split at h
  · cases h
  · simp only at h
    split_ifs at h
    cases h
    simp

theorem unmarshal_ok (env iv c : Bytes) (bs : Nat) (h : unmarshal env bs = .ok (iv, c)) :
    iv = env.take bs ∧ c = env.drop bs := by
  unfold unmarshal at h
  split_ifs at h
  cases h
  exact ⟨rfl, rfl⟩

/-! ### The block cipher engine -/

theorem blockSize_pos (alg : BlockAlg) : 0 < blockSize alg := by cases alg <;> decide

@[simp] theorem State.blockKey_length (s : State) (alg : BlockAlg) : (s.blockKey alg).length = keySize alg := by
  cases alg <;> exact regBytes_length _ _

theorem blockEnc_length (alg : BlockAlg) (k x : Bytes) (hk : k.length = keySize alg) :
    (blockEnc alg k x).length = blockSize alg := by
  cases alg with
  | aes => exact aes128Enc_length k x hk
  | des => exact desEnc_length k x

theorem blockDec_length (alg : BlockAlg) (k x : Bytes) (hk : k.length = keySize alg) :
    (blockDec alg k x).length = blockSize alg := by
  cases alg with
  | aes => exact aes128Dec_length k x hk
  | des => exact desDec_length k x

theorem length_of_mem_cbcEncBlocks {enc : Bytes → Bytes} {n : Nat} (henc : ∀ x, (enc x).length = n) (iv : Bytes)
    (ps : List Bytes) : ∀ c ∈ cbcEncBlocks enc iv ps, c.length = n := by
  induction ps generalizing iv with
  | nil => simp [cbcEncBlocks]
  | cons p ps ih => exact List.forall_mem_cons.2 ⟨henc _, ih _⟩

theorem length_le_of_mem_cbcDecBlocks {dec : Bytes → Bytes} {n : Nat} (hdec : ∀ x, (dec x).length = n) (iv : Bytes)
    (cs : List Bytes) : ∀ p ∈ cbcDecBlocks dec iv cs, p.length ≤ n := by
  induction cs generalizing iv with
  | nil => simp [cbcDecBlocks]
  | cons c cs ih => exact List.forall_mem_cons.2 ⟨by simp [hdec], ih _⟩

/-- Chaining keeps the length of a whole number of blocks. -/
theorem cbcEnc_length (alg : BlockAlg) (k iv p : Bytes) (hk : k.length = keySize alg) :
    (cbcEnc alg k iv p).length = p.length / blockSize alg * blockSize alg := by
  have hall := length_of_mem_cbcEncBlocks (fun x => blockEnc_length alg k x hk) iv (blocks (blockSize alg) p)
  rw [cbcEnc, List.length_flatten, List.sum_eq_card_nsmul _ _ (List.forall_mem_map.2 hall)]
  simp

theorem cbcDec_length_le (alg : BlockAlg) (k iv c : Bytes) (hk : k.length = keySize alg) :
    (cbcDec alg k iv c).length ≤ c.length := by
  have hall := length_le_of_mem_cbcDecBlocks (fun x => blockDec_length alg k x hk) iv (blocks (blockSize alg) c)
  rw [cbcDec, List.length_flatten]
  calc _ ≤ _ := List.sum_le_card_nsmul _ _ (List.forall_mem_map.2 hall)
    _ = c.length / blockSize alg * blockSize alg := by simp
    _ ≤ c.length := Nat.div_mul_le_self _ _

/-- An envelope is the IV and the padded input (41_block_cipher.md R104). -/
theorem State.encBlock_length (s : State) (alg : BlockAlg) (data : Bytes) :
    (s.encBlock alg data).length = blockSize alg * (data.length / blockSize alg) + 2 * blockSize alg := by
  have hpad := pad_length data (blockSize alg) (blockSize_pos alg)
  have hdvd : blockSize alg ∣ (pad data (blockSize alg)).length := hpad ▸ ⟨data.length / blockSize alg + 1, rfl⟩
  rw [State.encBlock, Machine.encBlock, marshal, List.length_append, cbcEnc_length _ _ _ _ (by simp),
    Nat.div_mul_cancel hdvd, hpad, State.draw_length]
  omega

theorem State.decBlock_length_le (s : State) (alg : BlockAlg) (env v : Bytes) (h : s.decBlock alg env = .ok v) :
    v.length ≤ env.length := by
  unfold State.decBlock Machine.decBlock at h
  split at h
  · cases h
  · next iv c hu =>
    obtain ⟨-, rfl⟩ := unmarshal_ok _ _ _ _ hu
    calc v.length ≤ _ := unpad_length_le _ _ _ h
      _ ≤ (env.drop (blockSize alg)).length := cbcDec_length_le _ _ _ _ (by simp)
      _ ≤ env.length := by simp

/-! ### The public-key engine -/

theorem oaepUnmask_length_le (h : HashAlg) (k : Nat) (em : Bytes) : (oaepUnmask h k em).length ≤ k := by
  simp only [oaepUnmask, xorBytes_length, slice_length]
  omega

theorem oaepDecode_length_le (h : HashAlg) (k : Nat) (em v : Bytes) (hv : oaepDecode h k em = .ok v) :
    v.length ≤ k := by
  unfold oaepDecode at hv
  simp only at hv
  split at hv
  · cases hv
  · split at hv
    · cases hv
    · next b m hm =>
      split_ifs at hv
      cases hv
      have hsuffix := (List.dropWhile_suffix (fun x => x == 0x00#8)
        (l := (oaepUnmask h k em).drop h.hLen)).length_le
      rw [hm, List.length_cons, List.length_drop] at hsuffix
      have := oaepUnmask_length_le h k em
      omega

/-- A decryption accepts ciphertexts of `RSA_K` bytes only (44_public_key.md R184), and a message is shorter. -/
theorem State.rsaDecrypt_length_le (s : State) (c v : Bytes) (h : s.rsaDecrypt c = .ok v) : v.length ≤ c.length := by
  unfold State.rsaDecrypt Machine.rsaDecrypt at h
  split_ifs at h with hlen
  have := oaepDecode_length_le _ _ _ _ h
  omega

theorem State.rsaEncrypt_length (s : State) (m v : Bytes) (h : (s.rsaEncrypt m).result = .ok v) :
    v.length = s.cfg.rsaK := by
  unfold State.rsaEncrypt at h
  split at h
  · cases h
  · cases h
    exact i2osp_length _ _

/-! ### The transport codec -/

theorem b64Enc_length (b : Bytes) : (b64Enc b).length = 4 * ceilDiv b.length 3 := by
  fun_induction b64Enc b with
  | case1 => rfl
  | case2 | case3 => simp [ceilDiv]
  | case4 a b c rest v ih =>
    simp only [List.length_cons, ih, ceilDiv]
    omega

theorem b64DecGroup_length_le (last : Bool) (q0 q1 q2 q3 : Byte) (g : Bytes)
    (h : b64DecGroup last q0 q1 q2 q3 = .ok g) : g.length ≤ 3 := by
  unfold b64DecGroup at h
  simp only at h
  split at h
  · cases h
  · split_ifs at h
    cases h
    simp

theorem b64Dec_length_le (t raw : Bytes) (h : b64Dec t = .ok raw) : raw.length ≤ t.length := by
  fun_induction b64Dec t generalizing raw with
  | case1 => cases h; rfl
  | case2 q0 q1 q2 q3 rest g b hb hg ih =>
    cases h
    have hg3 := b64DecGroup_length_le _ _ _ _ _ _ hg
    have hrest := ih b hb
    simp only [List.length_append, List.length_cons]
    omega
  | case3 | case4 | case5 => cases h

theorem encodeText_ok (c : Computed) (v : Bytes) (h : (encodeText c).result = .ok v) :
    ∃ raw, c.result = .ok raw ∧ v = b64Enc raw := by
  unfold encodeText at h
  simp only at h
  split at h
  · next raw hraw => cases h; exact ⟨raw, hraw, rfl⟩
  · cases h

/-- The text of an envelope (20_memory.md R58). -/
theorem State.encBlock_text_length (s : State) (alg : BlockAlg) (data : Bytes) :
    (b64Enc (s.encBlock alg data)).length =
      4 * ceilDiv (blockSize alg * (data.length / blockSize alg) + 2 * blockSize alg) 3 := by
  rw [b64Enc_length, s.encBlock_length]

/-- The text of a ciphertext (20_memory.md R58). -/
theorem State.rsaEncrypt_text_length (s : State) (m v : Bytes) (h : (encodeText (s.rsaEncrypt m)).result = .ok v) :
    v.length = 4 * ceilDiv s.cfg.rsaK 3 := by
  obtain ⟨raw, hraw, rfl⟩ := encodeText_ok _ v h
  rw [b64Enc_length, s.rsaEncrypt_length m raw hraw]

theorem decodeText_length_le (decrypt : Bytes → Except EngineError Bytes) (text v : Bytes)
    (hd : ∀ raw v, decrypt raw = .ok v → v.length ≤ raw.length) (h : decodeText decrypt text = .ok v) :
    v.length ≤ text.length := by
  unfold decodeText at h
  split at h
  · next raw hraw => exact (hd raw v h).trans (b64Dec_length_le text raw hraw)
  · cases h

end Sys2Proof.Machine
end

section
/-! What a command leaves in `STATUS` and in `OUT`: the fields of the status word, the bound on the result, and O31
(10_state.md R28 to R30, 20_memory.md R58). -/

namespace Sys2Proof.Machine

/-! ### The fields of a status word -/

@[simp] theorem statusCtx_statusWord (ctx : Byte) (cls : BitVec 1) (err : BitVec 3) :
    statusCtx (statusWord ctx cls err) = ctx :=
  (BitVec.extractLsb'_append_eq_of_le (by decide)).trans <|
    (BitVec.extractLsb'_append_eq_of_le (by decide)).trans BitVec.extractLsb'_append_eq_left

@[simp] theorem statusReserved_statusWord (ctx : Byte) (cls : BitVec 1) (err : BitVec 3) :
    statusReserved (statusWord ctx cls err) = 0#4 :=
  (BitVec.extractLsb'_append_eq_of_le (by decide)).trans <|
    (BitVec.extractLsb'_append_eq_of_le (by decide)).trans BitVec.extractLsb'_append_eq_right

@[simp] theorem statusClass_statusWord (ctx : Byte) (cls : BitVec 1) (err : BitVec 3) :
    statusClass (statusWord ctx cls err) = cls :=
  (BitVec.extractLsb'_append_eq_of_le (by decide)).trans BitVec.extractLsb'_append_eq_right

@[simp] theorem statusErr_statusWord (ctx : Byte) (cls : BitVec 1) (err : BitVec 3) :
    statusErr (statusWord ctx cls err) = err :=
  BitVec.extractLsb'_append_eq_right

theorem statusLegal_iff (w : BitVec 16) :
    statusLegal w = true ↔
      statusReserved w = 0#4 ∧ statusErr w ≠ 7#3 ∧ statusClass w = classOfErr (statusErr w) := by
  simp [statusLegal, and_assoc]

/-- The seven pairs of 10_state.md R29 are what a legal `STATUS` can hold. -/
theorem statusPair_mem_of_statusLegal (w : BitVec 16) (h : statusLegal w = true) :
    (statusErr w, statusClass w) ∈
      ([(0#3, 0#1), (1#3, 0#1), (2#3, 0#1), (3#3, 0#1), (4#3, 1#1), (5#3, 0#1), (6#3, 1#1)] :
        List (BitVec 3 × BitVec 1)) := by
  obtain ⟨-, herr, hclass⟩ := (statusLegal_iff w).1 h
  have hpairs : ∀ err : BitVec 3, err ≠ 7#3 → (err, classOfErr err) ∈
      ([(0#3, 0#1), (1#3, 0#1), (2#3, 0#1), (3#3, 0#1), (4#3, 1#1), (5#3, 0#1), (6#3, 1#1)] :
        List (BitVec 3 × BitVec 1)) := by decide
  rw [hclass]
  exact hpairs _ herr

theorem statusLegal_statusSuccess (ctx : Byte) : statusLegal (statusSuccess ctx) = true := by
  simp [statusLegal_iff, statusSuccess, classOfErr]

theorem statusLegal_statusFailure (ctx : Byte) (e : EngineError) : statusLegal (statusFailure ctx e) = true := by
  have hcode : errCode e ≠ 7#3 ∧ errClass e = classOfErr (errCode e) := by cases e <;> decide
  simpa [statusLegal_iff, statusFailure] using hcode

/-! ### Completion -/

section complete

variable (s : State) (ctx : Byte) (r : Except EngineError Bytes)

/-- Completion leaves a legal `STATUS`, under the byte of the command (60_exceptions.md R266). -/
theorem State.statusLegal_complete : statusLegal (s.complete ctx r).status = true := by
  cases r with
  | ok v => exact statusLegal_statusSuccess ctx
  | error e => exact statusLegal_statusFailure ctx e

@[simp] theorem State.statusCtx_complete : statusCtx (s.complete ctx r).status = ctx := by
  cases r with
  | ok v => exact statusCtx_statusWord ctx _ _
  | error e => exact statusCtx_statusWord ctx _ _

/-- Completion leaves `OUT` holding exactly the result, or nothing. -/
theorem State.holdsLength_complete (cap : Nat) (hr : ∀ v, r = .ok v → v.length ≤ cap) :
    holdsLength (s.complete ctx r).outBuf (s.complete ctx r).outLen cap := by
  cases r with
  | ok v => exact holdsLength_ofBytes v cap (hr v rfl)
  | error e => exact holdsLength_nil cap

end complete

/-! ### Commands -/

/-- Every command is one of the two shared operations, and what it computes keeps within `OutLenMax`. -/
theorem exec_eq_bounded_run_or_reject (i : Instr) (s : State) :
    (∃ f, exec i s = runCommand i f s ∧ ∀ b v, (f b).result = .ok v → v.length ≤ outLenMax s.cfg i b.length) ∨
    exec i s = rejectCommand i s := by
  cases i with
  | encbAes => exact .inl ⟨_, rfl, fun b v h => by cases h; exact (s.encBlock_length .aes b).le⟩
  | encbDes => exact .inl ⟨_, rfl, fun b v h => by cases h; exact (s.encBlock_length .des b).le⟩
  | enctAes => exact .inl ⟨_, rfl, fun b v h => by cases h; exact (s.encBlock_text_length .aes b).le⟩
  | enctDes => exact .inl ⟨_, rfl, fun b v h => by cases h; exact (s.encBlock_text_length .des b).le⟩
  | enctRsa => exact .inl ⟨_, rfl, fun b v h => (s.rsaEncrypt_text_length b v h).le⟩
  | decbAes => exact .inl ⟨_, rfl, s.decBlock_length_le .aes⟩
  | decbDes => exact .inl ⟨_, rfl, s.decBlock_length_le .des⟩
  | dectAes => exact .inl ⟨_, rfl, fun b v h => decodeText_length_le _ b v (s.decBlock_length_le .aes) h⟩
  | dectDes => exact .inl ⟨_, rfl, fun b v h => decodeText_length_le _ b v (s.decBlock_length_le .des) h⟩
  | dectRsa => exact .inl ⟨_, rfl, fun b v h => decodeText_length_le _ b v s.rsaDecrypt_length_le h⟩
  | encbRsa | decbRsa | unsup | rsvd7 | rsvd6 | rsvd5 | rsvd4 => exact .inr rfl

/-- A command that answers a next state completed with a result that fits `OUT`: it was admitted, and its result keeps
within `OutLenMax` (20_memory.md R58). -/
theorem exec_next_fits (i : Instr) (s t : State) (h : exec i s = .next t) :
    ∃ (n : Nat) (r : Except EngineError Bytes), t = (s.afterDraw n).complete (encodeCmd i) r ∧
      ∀ v, r = .ok v → v.length ≤ s.cfg.bufCap := by
  rcases exec_eq_bounded_run_or_reject i s with ⟨f, hf, hbound⟩ | hrej
  · obtain ⟨ha, b, hb, ht⟩ := runCommand_next i f s t (hf ▸ h)
    refine ⟨_, _, ht, fun v hv => ?_⟩
    calc v.length ≤ outLenMax s.cfg i b.length := hbound b v hv
      _ = outLenMax s.cfg i s.inLen := by rw [s.input_length b hb]
      _ ≤ s.cfg.bufCap := (s.admits_iff i).1 ha
  · obtain ⟨-, ht⟩ := rejectCommand_next i s t (hrej ▸ h)
    exact ⟨0, _, ht, nofun⟩

theorem exec_context (i : Instr) (s t : State) (h : exec i s = .next t) : statusCtx t.status = encodeCmd i := by
  obtain ⟨-, n, r, rfl⟩ := exec_next i s t h
  simp

theorem exec_statusLegal (i : Instr) (s t : State) (h : exec i s = .next t) : statusLegal t.status = true := by
  obtain ⟨-, n, r, rfl⟩ := exec_next i s t h
  exact State.statusLegal_complete _ _ _

theorem exec_inLen (i : Instr) (s t : State) (h : exec i s = .next t) : t.inLen = s.inLen := by
  obtain ⟨-, n, r, rfl⟩ := exec_next i s t h
  simp

theorem exec_sameKeys (i : Instr) (s t : State) (h : exec i s = .next t) : SameKeys s t := by
  obtain ⟨-, n, r, rfl⟩ := exec_next i s t h
  simp [SameKeys]

/-- Settles O31: the record reads the context byte, which is the command's, and the two length registers, of which a
command leaves `IN_LEN` alone. -/
theorem resultRecordAfterCommand : Obligations.ResultRecordAfterCommand := by
  unfold Obligations.ResultRecordAfterCommand
  intro i s t h _
  have hctx := exec_context i s t h
  have hin := exec_inLen i s t h
  refine ⟨rfl, congrArg fieldAlg hctx, fun hdir => ?_, fun hdir => ?_⟩ <;>
    simp [State.resultRecord, hctx, hdir, hin]

end Sys2Proof.Machine
end

section
/-! The HOST's and the machine's steps, what each can do and what it leaves alone: O5, O6, O23, O34, O36, O37
(10_state.md R24, R25, R28, R35, R45; 70_reset_and_hazards.md R290). -/

namespace Sys2Proof.Machine

/-! ### Steps -/

/-- Everything a step can do when it answers a next state: nothing, or the HOST step that was pending. -/
theorem step_next (s t : State) (h : step s = .next t) :
    (s.host = [] ∧ t = s) ∨ ∃ x rest, s.host = x :: rest ∧ hostStep x { s with host := rest } = .next t := by
  cases hh : s.host with
  | nil => exact .inl ⟨rfl, by simpa [step_nil s hh] using h.symm⟩
  | cons x rest => exact .inr ⟨x, rest, rfl, step_cons s x rest hh ▸ h⟩

/-- A HOST access that is neither an issue nor a reset loads `IN` or returns something. -/
theorem hostStep_access_next (x : HostStep) (s t : State) (hi : ∀ c, x ≠ .issue c) (hr : ∀ key, x ≠ .reset key)
    (h : hostStep x s = .next t) : (∃ b, t = s.loadIn b) ∨ ∃ r, t = s.reply r := by
  rcases hostStep_next x s t h with ⟨b, -, ht, -⟩ | ⟨c, hx, -⟩ | ⟨r, ht, -⟩ | ⟨key, hx, -⟩
  · exact .inl ⟨b, ht⟩
  · exact absurd hx (hi c)
  · exact .inr ⟨r, ht⟩
  · exact absurd hx (hr key)

/-- Settles O5: `step` by its two equations. -/
theorem stepRunsTheDecodedCommand : Obligations.StepRunsTheDecodedCommand := by
  unfold Obligations.StepRunsTheDecodedCommand
  exact ⟨fun s c rest h => step_cons s (.issue c) rest h, fun s x rest h => step_cons s x rest h, step_nil⟩

/-! ### The effects of the HOST steps -/

/-- Loading `v` into `IN` makes `v` the input, and touches nothing but `IN` and `IN_LEN`. -/
theorem State.loadIn_effect (s : State) (v : Bytes) :
    (s.loadIn v).input = some v ∧ (s.loadIn v).inLen = v.length ∧ (∀ a : Nat, (s.loadIn v).inBuf.read a = v[a]?) ∧
      s.loadIn v = { s with inBuf := (s.loadIn v).inBuf, inLen := (s.loadIn v).inLen } :=
  ⟨s.input_loadIn v, rfl, Memory.read_ofBytes v, rfl⟩

/-- Settles O6, from the equation of each HOST step; under the invariant what `IN` and `OUT` hold is defined and fits. -/
theorem hostStepEffects : Obligations.HostStepEffects := by
  unfold Obligations.HostStepEffects
  intro s hs
  obtain ⟨v, hv, hvl, hvc⟩ := hs.output_eq_some
  obtain ⟨b, hb, hbl, -⟩ := hs.input_eq_some
  refine ⟨fun b hb => ⟨_, hostWriteIn_eq b s hb, s.loadIn_effect b⟩, fun b => hostWriteIn_refused b s,
    ⟨v, _, hv, hostWriteInFromOut_eq s v hv hvc, s.loadIn_effect v⟩, fun _ => rfl,
    ⟨v, hv, hostReadOutAt_eq 0 s.outLen s v (Nat.zero_add _).le hv⟩, rfl,
    ⟨b, hb, hostReadInAt_eq 0 s.inLen s b (Nat.zero_add _).le hb⟩, fun x t h => ?_⟩
  rcases hostStep_next x s t h with ⟨b, -, -, hx | ⟨hx, -⟩⟩ | ⟨c, hx, -⟩ | ⟨r, ht, -⟩ | ⟨key, hx, -⟩
  · exact .inl ⟨b, hx⟩
  · exact .inr (.inl hx)
  · exact .inr (.inr (.inl ⟨c, hx⟩))
  · exact .inr (.inr (.inr (.inr (ht ▸ rfl))))
  · exact .inr (.inr (.inr (.inl ⟨key, hx⟩)))

/-! ### Who writes `STATUS` -/

theorem hostStep_reset_status (s t : State) (key : RsaKey) (h : hostStep (.reset key) s = .next t) :
    t.status = 0x0000#16 := by
  obtain ⟨-, rfl⟩ := platformReset_next key s t h
  rfl

/-- A command ends in one completion, and `ERR` and `CLASS` are those of the result it completed with. -/
theorem exec_status_fields (i : Instr) (s t : State) (h : exec i s = .next t) :
    ∃ (n : Nat) (r : Except EngineError Bytes), t = (s.afterDraw n).complete (encodeCmd i) r ∧
      (∀ v, r = .ok v → statusErr t.status = 0#3 ∧ statusClass t.status = 0#1) ∧
      (∀ e, r = .error e → statusErr t.status = errCode e ∧ statusClass t.status = errClass e) := by
  obtain ⟨-, n, r, rfl⟩ := exec_next i s t h
  refine ⟨n, r, rfl, ?_, ?_⟩
  · rintro v rfl
    simp [statusSuccess]
  · rintro e rfl
    simp [statusFailure]

/-- Settles O23: completion writes a legal `STATUS`, reset writes 0, and no other HOST access writes it. -/
theorem statusOfEveryCommandIsLegal : Obligations.StatusOfEveryCommandIsLegal := by
  unfold Obligations.StatusOfEveryCommandIsLegal
  refine ⟨fun i s t h => ?_, by decide, by decide, hostStep_reset_status, fun s t key rest hh h => ?_,
    fun x s t h hne => ?_⟩
  · have hlegal := exec_statusLegal i s t h
    obtain ⟨hrsv, -, -⟩ := (statusLegal_iff t.status).1 hlegal
    exact ⟨exec_context i s t h, hrsv, statusPair_mem_of_statusLegal t.status hlegal, exec_status_fields i s t h⟩
  · exact hostStep_reset_status _ t key ((step_cons s _ rest hh).symm.trans h)
  · by_contra! hx
    obtain ⟨hi, hr⟩ := hx
    rcases hostStep_access_next x s t hi hr h with ⟨b, rfl⟩ | ⟨r, rfl⟩ <;> exact hne rfl

/-! ### The key registers -/

/-- Only a reset writes a key register (10_state.md R25). -/
theorem hostStep_sameKeys (x : HostStep) (s t : State) (hr : ∀ key, x ≠ .reset key) (h : hostStep x s = .next t) :
    SameKeys s t := by
  rcases hostStep_next x s t h with ⟨b, -, rfl, -⟩ | ⟨c, -, he⟩ | ⟨r, rfl, -⟩ | ⟨key, hx, -⟩
  · simp [SameKeys]
  · exact exec_sameKeys _ { s with cmd := c } t he
  · simp [SameKeys]
  · exact absurd hx (hr key)

theorem step_sameKeys (s t : State) (hr : ∀ (key : RsaKey) (rest : List HostStep), s.host ≠ .reset key :: rest)
    (h : step s = .next t) : SameKeys s t := by
  rcases step_next s t h with ⟨-, rfl⟩ | ⟨x, rest, hh, hx⟩
  · simp [SameKeys]
  · exact hostStep_sameKeys x { s with host := rest } t (fun key he => hr key rest (he ▸ hh)) hx

/-- The state with other key material in its registers. -/
def State.withKeys (s : State) (a : BitVec 128) (b : BitVec 64) (n e d : Nat) : State :=
  { s with kAes := a, kDes := b, rsaN := n, rsaE := e, rsaD := d }

section withKeys

variable (s t : State) (a : BitVec 128) (b : BitVec 64) (n e d : Nat)

theorem hostReadOutAt_withKeys (i m : Nat) (h : hostReadOutAt i m s = .next t) :
    hostReadOutAt i m (s.withKeys a b n e d) = .next (t.withKeys a b n e d) := by
  obtain ⟨hl, v, hv, rfl⟩ := hostReadOutAt_next i m s t h
  exact hostReadOutAt_eq i m (s.withKeys a b n e d) v hl hv

theorem hostReadInAt_withKeys (i m : Nat) (h : hostReadInAt i m s = .next t) :
    hostReadInAt i m (s.withKeys a b n e d) = .next (t.withKeys a b n e d) := by
  obtain ⟨hl, v, hv, rfl⟩ := hostReadInAt_next i m s t h
  exact hostReadInAt_eq i m (s.withKeys a b n e d) v hl hv

end withKeys

/-- A HOST access that is neither an issue nor a reset does the same whatever the key registers hold (R25). -/
theorem hostStep_withKeys (x : HostStep) (s t : State) (a : BitVec 128) (b : BitVec 64) (n e d : Nat)
    (hi : ∀ c, x ≠ .issue c) (hr : ∀ key, x ≠ .reset key) (h : hostStep x s = .next t) :
    hostStep x (s.withKeys a b n e d) = .next (t.withKeys a b n e d) := by
  cases x with
  | issue c => exact absurd rfl (hi c)
  | reset key => exact absurd rfl (hr key)
  | writeIn v =>
    obtain ⟨hl, rfl⟩ := hostWriteIn_next v s t h
    exact hostWriteIn_eq v (s.withKeys a b n e d) hl
  | writeInFromOut =>
    obtain ⟨v, hv, hl, rfl⟩ := hostWriteInFromOut_next s t h
    exact hostWriteInFromOut_eq (s.withKeys a b n e d) v hv hl
  | readOut => exact hostReadOutAt_withKeys s t a b n e d 0 s.outLen h
  | readOutAt i m => exact hostReadOutAt_withKeys s t a b n e d i m h
  | readIn => exact hostReadInAt_withKeys s t a b n e d 0 s.inLen h
  | readInAt i m => exact hostReadInAt_withKeys s t a b n e d i m h
  | readStatus | readInLen | readOutLen => cases h; rfl

/-- Settles O36: only a reset writes the key registers, and no HOST access but an issue or a reset reads them. -/
theorem keysAreNeverWrittenOrRead : Obligations.KeysAreNeverWrittenOrRead := by
  unfold Obligations.KeysAreNeverWrittenOrRead
  exact ⟨fun s t h hr => step_sameKeys s t hr h, hostStep_withKeys⟩

theorem SameKeys.keyValid {s t : State} (h : SameKeys s t) (hs : s.KeyValid) : t.KeyValid := by
  obtain ⟨hcfg, -, -, hn, he, hd⟩ := h
  simpa [State.KeyValid, hcfg, hn, he, hd] using hs

theorem platformReset_keyValid (key : RsaKey) (s t : State) (h : platformReset key s = .next t) : t.KeyValid := by
  obtain ⟨hvalid, rfl⟩ := platformReset_next key s t h
  exact hvalid

/-- A pending reset leaves a valid pair, whatever the registers held (10_state.md R24). -/
theorem step_reset_keyValid (s t : State) (key : RsaKey) (rest : List HostStep) (hh : s.host = .reset key :: rest)
    (h : step s = .next t) : t.KeyValid :=
  platformReset_keyValid key { s with host := rest } t ((step_cons s _ rest hh).symm.trans h)

/-- Settles O34: a step is a reset, which draws a valid pair, or leaves the key registers alone. -/
theorem stepKeepsKeyValid : Obligations.StepKeepsKeyValid := by
  unfold Obligations.StepKeepsKeyValid
  refine ⟨fun s t hs h => ?_, step_reset_keyValid⟩
  by_cases hr : ∃ key rest, s.host = .reset key :: rest
  · obtain ⟨key, rest, hh⟩ := hr
    exact step_reset_keyValid s t key rest hh h
  · push Not at hr
    exact (step_sameKeys s t hr h).keyValid hs

/-! ### Reset -/

/-- Settles O37: a pending reset for the parameters completes with the state of R45, and any other step that is no issue
leaves alone what the ENGINE owns. -/
theorem resetSetsEveryRegister : Obligations.ResetSetsEveryRegister := by
  unfold Obligations.ResetSetsEveryRegister
  refine ⟨fun s key rest hh he hk => ?_, fun n d s hv => ⟨⟨n, _, d, _, hv⟩, rfl, rfl, rfl, rfl⟩,
    fun s t h hi hr => ?_⟩
  · have hreset := platformReset_eq key { s with host := rest } he hk
    have hvalid : ValidRsaKey key.n s.cfg.rsaE key.d s.cfg.rsaK := he ▸ hk ▸ key.valid
    exact ⟨_, (step_cons s _ rest hh).trans hreset, hreset, rfl, rfl, rfl, rfl, rfl, hvalid, rfl, rfl, rfl, rfl,
      fun _ => rfl, fun _ => rfl, rfl, rfl, rfl, rfl, rfl, rfl, rfl⟩
  · refine ⟨step_sameKeys s t hr h, ?_⟩
    rcases step_next s t h with ⟨-, rfl⟩ | ⟨x, rest, hh, hx⟩
    · exact ⟨rfl, rfl, rfl, rfl⟩
    · rcases hostStep_access_next x _ t (fun c he => hi c rest (he ▸ hh)) (fun key he => hr key rest (he ▸ hh)) hx with
        ⟨b, rfl⟩ | ⟨r, rfl⟩ <;> exact ⟨rfl, rfl, rfl, rfl⟩

end Sys2Proof.Machine
end

section
/-! The invariant of every reachable state: reset has it (O33) and every step keeps it (O32). -/

namespace Sys2Proof.Machine

/-! ### Reset -/

theorem Config.device_exponent_fits : Config.device.rsaE < 2 ^ (8 * Config.device.rsaK) :=
  lt_of_lt_of_le (show Config.device.rsaE < 2 ^ 17 by decide) (Nat.pow_le_pow_right Nat.two_pos (by decide))

/-- The device's parameters are a configuration of the hardware: its capacity lies between the 344 bytes of the longest
RSA text and `2^32 - 1` (00_scope.md R10). -/
theorem Config.device_valid : Config.device.Valid := by
  have hcap := Nat.mod_lt Config.openCapacity (show 0 < 4294966952 by decide)
  have hwidth : Config.device.bufCap < 2 ^ Config.device.lenW := Nat.add_lt_add_right hcap 344
  have hroom : 4 * ((Config.device.rsaK + 2) / 3) ≤ Config.device.bufCap := Nat.le_add_left 344 _
  exact ⟨by decide, hwidth, hroom, by decide, Config.device_exponent_fits⟩

/-- Settles O33: the drawn pair is valid by its type, so it fits its registers. -/
theorem resetHasInv : Obligations.ResetHasInv := by
  unfold Obligations.ResetHasInv
  exact ⟨State.inv_powerOn _ _ _ Config.device_valid Config.bootKey.valid.fits, Config.bootKey.valid⟩

/-! ### Steps -/

/-- The byte of a command is the byte it was decoded from (30_encoding.md R70, R75). -/
@[simp] theorem encodeCmd_decodeCmd : ∀ c : Byte, encodeCmd (decodeCmd c) = c := by decide

theorem holdsLength.length_le {m : Memory} {len cap : Nat} (h : holdsLength m len cap) : len ≤ cap := by
  obtain ⟨v, -, rfl, hv⟩ := h
  exact hv

/-- The completion of the command in `CMD` keeps the invariant, whatever `CMD` was before. -/
theorem State.Inv.complete {s : State} (h : s.Inv) (c : Byte) (n : Nat) (r : Except EngineError Bytes)
    (hr : ∀ v, r = .ok v → v.length ≤ s.cfg.bufCap) :
    ((({ s with cmd := c } : State).afterDraw n).complete c r).Inv := by
  have hout := (({ s with cmd := c } : State).afterDraw n).holdsLength_complete c r s.cfg.bufCap hr
  obtain ⟨-, hcap, -⟩ := h.config
  exact {
    config := by simpa using h.config
    aesKey := by simpa using h.aesKey
    desKey := by simpa using h.desKey
    exponent := by simpa using h.exponent
    keyPair := by simpa using h.keyPair
    input := by simpa using h.input
    output := by simpa using hout
    inLenWidth := by simpa using h.inLenWidth
    outLenWidth := by simpa using hout.length_le.trans_lt hcap
    status := State.statusLegal_complete _ c r
    context := by simp }

/-- The issue of a command keeps the invariant: its result fits `OUT`, and its context is the byte now in `CMD`. -/
theorem State.Inv.hostIssue {s t : State} (h : s.Inv) (c : Byte)
    (he : exec (decodeCmd c) { s with cmd := c } = .next t) : t.Inv := by
  obtain ⟨n, r, rfl, hr⟩ := exec_next_fits _ _ t he
  rw [encodeCmd_decodeCmd]
  exact h.complete c n r hr

/-- A reset gives the invariant anew. -/
theorem State.Inv.resetTo {s : State} (h : s.Inv) (n d : Nat) (hv : ValidRsaKey n s.cfg.rsaE d s.cfg.rsaK) :
    (s.resetTo n d).Inv :=
  (State.inv_powerOn s.cfg n d h.config hv.fits).withAgents s.entropy s.drawn s.host s.replies

/-- Every step of HOST and platform keeps the invariant. -/
theorem State.Inv.hostStep {s t : State} (hs : s.Inv) (x : HostStep) (h : hostStep x s = .next t) : t.Inv := by
  rcases hostStep_next x s t h with ⟨b, hb, rfl, -⟩ | ⟨c, -, he⟩ | ⟨r, rfl, -⟩ | ⟨key, -, hv, rfl⟩
  · exact hs.loadIn b hb
  · exact hs.hostIssue c he
  · exact hs.withAgents s.entropy s.drawn s.host (s.replies ++ [r])
  · exact hs.resetTo key.n key.d hv

/-- Settles O32: a step does nothing, or takes the pending HOST step, and each of those keeps the invariant. -/
theorem stepKeepsInv : Obligations.StepKeepsInv := by
  unfold Obligations.StepKeepsInv
  intro s t hs h
  rcases step_next s t h with ⟨-, rfl⟩ | ⟨x, rest, -, hx⟩
  · exact hs
  · exact (hs.withAgents s.entropy s.drawn rest s.replies).hostStep x hx

end Sys2Proof.Machine
end

section
/-! What a command leaves alone and what a failing one leaves behind, the order of HOST and ENGINE steps, partial reads, the
bound on the output and the canonical form of the buffers: O7, O8, O25, O26, O35 (20_memory.md R50, R56 to R58, R60). -/

namespace Sys2Proof.Machine

/-! ### What a command leaves alone -/

/-- A command writes `OUT`, `OUT_LEN` and `STATUS`, and consumes the answers it drew (60_exceptions.md R266). -/
theorem exec_commandFrame (i : Instr) (s t : State) (h : exec i s = .next t) : ∃ draws, CommandFrame s t draws := by
  have hkeys := exec_sameKeys i s t h
  obtain ⟨-, n, r, rfl⟩ := exec_next i s t h
  exact ⟨n, hkeys, by simp⟩

theorem exec_inBuf (i : Instr) (s t : State) (h : exec i s = .next t) : t.inBuf = s.inBuf := by
  obtain ⟨-, n, r, rfl⟩ := exec_next i s t h
  simp

theorem exec_input (i : Instr) (s t : State) (h : exec i s = .next t) : t.input = s.input := by
  simp only [State.input, exec_inBuf i s t h, exec_inLen i s t h]

/-- A command whose `ERR` is not 0 completed with an error. -/
theorem exec_failed (i : Instr) (s t : State) (h : exec i s = .next t) (hne : statusErr t.status ≠ 0#3) :
    ∃ (n : Nat) (e : EngineError), t = (s.afterDraw n).complete (encodeCmd i) (.error e) := by
  obtain ⟨n, r, ht, hok, -⟩ := exec_status_fields i s t h
  cases r with
  | ok v => exact absurd (hok v rfl).1 hne
  | error e => exact ⟨n, e, ht⟩

theorem outputIs_complete_error (s : State) (ctx : Byte) (e : EngineError) :
    OutputIs (s.complete ctx (.error e)) [] :=
  ⟨rfl, rfl, fun _ => rfl⟩

/-- Settles O25: a command ends in one completion, which writes the output and the status only, and on an error writes
the empty output. -/
theorem commandsWriteOnlyOutputAndStatus : Obligations.CommandsWriteOnlyOutputAndStatus := by
  unfold Obligations.CommandsWriteOnlyOutputAndStatus
  intro i s t h
  refine ⟨exec_inBuf i s t h, exec_inLen i s t h, exec_input i s t h, exec_commandFrame i s t h, fun hne => ?_⟩
  obtain ⟨n, e, rfl⟩ := exec_failed i s t h hne
  exact outputIs_complete_error _ _ e

/-! ### Reads of part of a buffer -/

/-- Under the invariant a range below the length of a buffer is readable, and reads as the bytes at its addresses. -/
theorem holdsLength.readBytes_range_spec {m : Memory} {len cap : Nat} (h : holdsLength m len cap) (a n : Nat)
    (hl : a + n ≤ len) : ∃ v, m.readBytes a n = some v ∧ v.length = n ∧ ∀ i < n, m.read (a + i) = v[i]? := by
  obtain ⟨v, hv⟩ := h.readBytes_range a n hl
  exact ⟨v, hv, (m.readBytes_eq_some_iff a n v).1 hv⟩

/-- Settles O7: under the invariant each range below the length is readable, and beyond it the read is refused. -/
theorem partialReadsReturnTheirBytes : Obligations.PartialReadsReturnTheirBytes := by
  unfold Obligations.PartialReadsReturnTheirBytes
  intro s a n hi
  refine ⟨fun hl => ?_, hostReadOutAt_refused a n s, fun hl => ?_, hostReadInAt_refused a n s, rfl, rfl⟩
  · obtain ⟨v, hv, hlen, hbytes⟩ := hi.output.readBytes_range_spec a n hl
    exact ⟨v, hv, hlen, hbytes, hostReadOutAt_eq a n s v hl hv⟩
  · obtain ⟨v, hv, hlen, hbytes⟩ := hi.input.readBytes_range_spec a n hl
    exact ⟨v, hv, hlen, hbytes, hostReadInAt_eq a n s v hl hv⟩

/-! ### The order of HOST and ENGINE steps -/

theorem core_run_succ (M : Host.Core) (k : Nat) (s t : M.State) (h : M.step s = .next t) :
    M.run (k + 1) s = M.run k t := by
  rw [Host.Core.run, h]

/-- A run takes the pending HOST step first, and goes on from where it leads. -/
theorem core_run_cons (k : Nat) (s t : State) (x : HostStep) (rest : List HostStep) (hh : s.host = x :: rest)
    (hx : hostStep x { s with host := rest } = .next t) : Sys2Proof.core.run (k + 1) s = Sys2Proof.core.run k t :=
  core_run_succ Sys2Proof.core k s t ((step_cons s x rest hh).trans hx)

/-- The reads of 70_reset_and_hazards.md R296 return the status and the output the state holds. -/
theorem core_run_readStatus_readOut (t : State) (v : Bytes) (rest : List HostStep)
    (hh : t.host = .readStatus :: .readOut :: rest) (hv : t.output = some v) :
    Sys2Proof.core.run 2 t =
      .next { t with host := rest, replies := t.replies ++ [.status t.status, .outBytes v] } := by
  have hread := hostReadOutAt_eq 0 t.outLen (({ t with host := rest } : State).reply (.status t.status)) v
    (Nat.zero_add _).le hv
  calc Sys2Proof.core.run 2 t
    _ = Sys2Proof.core.run 1 (({ t with host := .readOut :: rest } : State).reply (.status t.status)) :=
        core_run_cons 1 t _ .readStatus _ hh rfl
    _ = .next ((({ t with host := rest } : State).reply (.status t.status)).reply (.outBytes v)) :=
        core_run_cons 0 _ _ .readOut rest rfl hread
    _ = _ := by simp [State.reply]

/-- A step that is no HOST write and no reset leaves `IN` and `IN_LEN` alone. -/
theorem hostStep_input_unchanged (x : HostStep) (s t : State) (hw : ∀ b, x ≠ .writeIn b) (ho : x ≠ .writeInFromOut)
    (hr : ∀ key, x ≠ .reset key) (h : hostStep x s = .next t) : t.inBuf = s.inBuf ∧ t.inLen = s.inLen := by
  rcases hostStep_next x s t h with ⟨b, -, -, hx | ⟨hx, -⟩⟩ | ⟨c, -, he⟩ | ⟨r, rfl, -⟩ | ⟨key, hx, -⟩
  · exact absurd hx (hw b)
  · exact absurd hx ho
  · exact ⟨exec_inBuf _ { s with cmd := c } t he, exec_inLen _ { s with cmd := c } t he⟩
  · exact ⟨rfl, rfl⟩
  · exact absurd hx (hr key)

/-- Settles O8: the four steps of the call run one after another, the command changes neither what HOST is about to do nor
what it has read, and each other step leaves alone what it does not own. -/
theorem oneTotalOrderOfHostAndEngineSteps : Obligations.OneTotalOrderOfHostAndEngineSteps := by
  unfold Obligations.OneTotalOrderOfHostAndEngineSteps
  refine ⟨fun s t b v c rest hh hb he hv => ⟨s.input_loadIn b, ?_⟩, fun s t h hi hr => ?_, fun s t h hw ho hr => ?_⟩
  · obtain ⟨draws, -, -, -, -, hhost, hreplies, -⟩ := exec_commandFrame _ _ t he
    calc Sys2Proof.core.run 4 s
      _ = Sys2Proof.core.run 3
            (({ s with host := .issue c :: .readStatus :: .readOut :: rest } : State).loadIn b) :=
          core_run_cons 3 s _ _ _ hh (hostWriteIn_eq b _ hb)
      _ = Sys2Proof.core.run 2 t := core_run_cons 2 _ t (.issue c) _ rfl he
      _ = .next { t with host := rest, replies := t.replies ++ [.status t.status, .outBytes v] } :=
          core_run_readStatus_readOut t v rest hhost hv
      _ = .next { t with host := rest, replies := s.replies ++ [.status t.status, .outBytes v] } := by
          rw [hreplies]; rfl
  · obtain ⟨-, -, hengine⟩ := resetSetsEveryRegister
    obtain ⟨-, hcmd, hbuf, hlen, hstatus⟩ := hengine s t h hi hr
    exact ⟨hbuf, hlen, hstatus, hcmd⟩
  · rcases step_next s t h with ⟨-, rfl⟩ | ⟨x, rest, hh, hx⟩
    · exact ⟨rfl, rfl⟩
    · exact hostStep_input_unchanged x { s with host := rest } t (fun b he => hw b rest (he ▸ hh))
        (fun he => ho rest (he ▸ hh)) (fun key he => hr key rest (he ▸ hh)) hx

/-! ### The bound on the output -/

/-- Every command but the five encryptions of the capability matrix is bounded by its input (20_memory.md R58). -/
theorem outLenMax_eq_length (cfg : Config) (i : Instr) (len : Nat) (h₁ : i ≠ .encbAes) (h₂ : i ≠ .encbDes)
    (h₃ : i ≠ .enctAes) (h₄ : i ≠ .enctDes) (h₅ : i ≠ .enctRsa) : outLenMax cfg i len = len := by
  cases i with
  | encbAes => exact absurd rfl h₁
  | encbDes => exact absurd rfl h₂
  | enctAes => exact absurd rfl h₃
  | enctDes => exact absurd rfl h₄
  | enctRsa => exact absurd rfl h₅
  | encbRsa | decbAes | decbDes | decbRsa | dectAes | dectDes | dectRsa | unsup | rsvd7 | rsvd6 | rsvd5 | rsvd4 => rfl

theorem outLenMax_of_decrypt (cfg : Config) (i : Instr) (len : Nat) (h : fieldDir (encodeCmd i) = .decrypt) :
    outLenMax cfg i len = len := by
  apply outLenMax_eq_length <;> rintro rfl <;> exact absurd h (by decide)

theorem State.outLen_complete_le (s : State) (ctx : Byte) (r : Except EngineError Bytes) (cap : Nat)
    (hr : ∀ v, r = .ok v → v.length ≤ cap) : (s.complete ctx r).outLen ≤ cap :=
  (s.holdsLength_complete ctx r cap hr).length_le

/-- What a command leaves in `OUT` keeps within `OutLenMax`. -/
theorem exec_outLen_le (i : Instr) (s t : State) (h : exec i s = .next t) :
    t.outLen ≤ outLenMax s.cfg i s.inLen := by
  rcases exec_eq_bounded_run_or_reject i s with ⟨f, hf, hbound⟩ | hrej
  · obtain ⟨-, b, hb, rfl⟩ := runCommand_next i f s t (hf ▸ h)
    exact State.outLen_complete_le _ _ _ _ (s.input_length b hb ▸ hbound b)
  · obtain ⟨-, rfl⟩ := rejectCommand_next i s t (hrej ▸ h)
    exact Nat.zero_le _

/-- Settles O26: admission is the comparison with `BUF_CAP`, every result keeps within `OutLenMax`, which for a decrypt
command is the length of its input, and a failing command produces nothing. -/
theorem admissionBoundsOutput : Obligations.AdmissionBoundsOutput := by
  unfold Obligations.AdmissionBoundsOutput
  refine ⟨fun cfg len => ⟨rfl, rfl, rfl, rfl, rfl, fun i => outLenMax_eq_length cfg i len⟩,
    fun i s hs => ⟨fun hl => ?_, fun hl => ?_, fun t h hcase => ?_⟩⟩
  · exact exec_refused i s (decide_eq_false (Nat.not_le.2 hl))
  · obtain ⟨b, hb, -⟩ := hs.input_eq_some
    obtain ⟨t, ht⟩ := exec_completes i s b ((s.admits_iff i).2 hl) hb
    exact ⟨t, ht, exec_outLen_le i s t ht⟩
  · rcases hcase with hdir | hne
    · exact (exec_outLen_le i s t h).trans_eq (outLenMax_of_decrypt s.cfg i s.inLen hdir)
    · obtain ⟨n, e, rfl⟩ := exec_failed i s t h hne
      exact Nat.zero_le _

/-! ### The canonical form -/

theorem holdsLength.wf {m : Memory} {len cap : Nat} (h : holdsLength m len cap) : m.wf = true := by
  obtain ⟨v, rfl, -⟩ := h
  exact Memory.wf_ofBytes v

/-- A command leaves `OUT` in canonical form, whatever it held before. -/
theorem exec_outBuf_wf (i : Instr) (s t : State) (h : exec i s = .next t) : t.outBuf.wf = true := by
  obtain ⟨n, r, rfl, hr⟩ := exec_next_fits i s t h
  exact (State.holdsLength_complete _ _ r _ hr).wf

/-- Every step of HOST and platform keeps both buffers in canonical form. -/
theorem hostStep_buffers_wf (x : HostStep) (s t : State) (hin : s.inBuf.wf = true) (hout : s.outBuf.wf = true)
    (h : hostStep x s = .next t) : t.inBuf.wf = true ∧ t.outBuf.wf = true := by
  rcases hostStep_next x s t h with ⟨b, -, rfl, -⟩ | ⟨c, -, he⟩ | ⟨r, rfl, -⟩ | ⟨key, -, -, rfl⟩
  · exact ⟨Memory.wf_ofBytes b, hout⟩
  · exact ⟨exec_inBuf _ _ t he ▸ hin, exec_outBuf_wf _ _ t he⟩
  · exact ⟨hin, hout⟩
  · exact ⟨rfl, rfl⟩

/-- Settles O35: a step does nothing, or takes the pending HOST step, which keeps the form; reset lists no byte. -/
theorem stepKeepsMemoryCanonical : Obligations.StepKeepsMemoryCanonical := by
  unfold Obligations.StepKeepsMemoryCanonical
  refine ⟨fun s t hin hout h => ?_, rfl, rfl⟩
  rcases step_next s t h with ⟨-, rfl⟩ | ⟨x, rest, -, hx⟩
  · exact ⟨hin, hout⟩
  · exact hostStep_buffers_wf x { s with host := rest } t hin hout hx

end Sys2Proof.Machine
end

section
/-! Decoding and encoding a command byte: O1, O2, O3, O4 (30_encoding.md R70 to R77). The masks of the opcode table and the
fields of the decoder say the same of a byte; from this `decode` and `encode` are inverse, and the rows of the table are
disjoint. -/

namespace Sys2Proof

/-! ### What the masks say of the fields -/

theorem matchesRow_iff (mask pattern c : Byte) : matchesRow mask pattern c = true ↔ c &&& mask = pattern := by
  simp [matchesRow]

theorem fieldRsv_eq_zero_iff : ∀ c : Byte, fieldRsv c = 0#4 ↔
    c.getLsbD 7 = false ∧ c.getLsbD 6 = false ∧ c.getLsbD 5 = false ∧ c.getLsbD 4 = false := by decide

theorem wf_rsvd7_iff : ∀ c : Byte, Instr.wf (.rsvd7 c) = true ↔ c.getLsbD 7 = true := by decide

theorem wf_rsvd6_iff : ∀ c : Byte, Instr.wf (.rsvd6 c) = true ↔ c.getLsbD 7 = false ∧ c.getLsbD 6 = true := by decide

theorem wf_rsvd5_iff : ∀ c : Byte, Instr.wf (.rsvd5 c) = true ↔
    c.getLsbD 7 = false ∧ c.getLsbD 6 = false ∧ c.getLsbD 5 = true := by decide

theorem wf_rsvd4_iff : ∀ c : Byte, Instr.wf (.rsvd4 c) = true ↔
    c.getLsbD 7 = false ∧ c.getLsbD 6 = false ∧ c.getLsbD 5 = false ∧ c.getLsbD 4 = true := by decide

theorem wf_unsup_iff : ∀ c : Byte, Instr.wf (.unsup c) = true ↔ fieldRsv c = 0#4 ∧ fieldAlg c = .other := by decide

theorem fieldAlg_eq_other_iff : ∀ c : Byte, fieldAlg c = .other ↔ c.extractLsb' 0 2 = 3#2 := by decide

/-! ### What each branch of the decoder answers -/

theorem decodeCmd_of_reserved (c : Byte) (h : fieldRsv c ≠ 0#4) : decodeCmd c = decodeReserved c := if_pos h

theorem decodeCmd_of_defined (c : Byte) (h : fieldRsv c = 0#4) : decodeCmd c = decodeDefined c := if_neg (not_not.2 h)

/-- A reserved byte decodes to one of the four `RSVD` rows, which it matches and of which it is the byte. -/
theorem decodeReserved_cases (c : Byte) (h : fieldRsv c ≠ 0#4) :
    (decodeReserved c = .rsvd7 c ∨ decodeReserved c = .rsvd6 c ∨ decodeReserved c = .rsvd5 c ∨
      decodeReserved c = .rsvd4 c) ∧ (decodeReserved c).wf = true := by
  rw [ne_eq, fieldRsv_eq_zero_iff] at h
  unfold decodeReserved
  split
  · next h7 => exact ⟨by simp, (wf_rsvd7_iff c).2 h7⟩
  split
  · next h7 h6 => exact ⟨by simp, (wf_rsvd6_iff c).2 ⟨Bool.eq_false_iff.2 h7, h6⟩⟩
  split
  · next h7 h6 h5 => exact ⟨by simp, (wf_rsvd5_iff c).2 ⟨Bool.eq_false_iff.2 h7, Bool.eq_false_iff.2 h6, h5⟩⟩
  · next h7 h6 h5 => exact ⟨by simp, (wf_rsvd4_iff c).2 (by simp_all)⟩

theorem decodeDefined_of_other (c : Byte) (h : fieldAlg c = .other) : decodeDefined c = .unsup c := by
  simp [decodeDefined, h]

/-- A byte that names an algorithm decodes to the named command of its three fields. -/
theorem decodeDefined_named (c : Byte) (h : fieldAlg c ≠ .other) :
    encodeCmd (decodeDefined c) = commandByte (fieldKind c) (fieldDir c) (fieldAlg c) ∧
      (decodeDefined c).rowMask = 0xFF#8 := by
  unfold decodeDefined
  cases ha : fieldAlg c with
  | other => exact absurd ha h
  | aes | des | rsa => cases fieldKind c <;> cases fieldDir c <;> exact ⟨rfl, rfl⟩

/-! ### An instruction for each byte of a row -/

theorem wf_of_rowMask_full (i : Instr) (h : i.rowMask = 0xFF#8) : i.wf = true := by
  cases i with
  | unsup | rsvd7 | rsvd6 | rsvd5 | rsvd4 => simp [Instr.rowMask] at h
  | _ => rfl

/-- The instruction of the same row that carries the byte `c`, where the row carries one (R78). -/
def Instr.withByte (c : Byte) : Instr → Instr
  | .unsup _ => .unsup c
  | .rsvd7 _ => .rsvd7 c
  | .rsvd6 _ => .rsvd6 c
  | .rsvd5 _ => .rsvd5 c
  | .rsvd4 _ => .rsvd4 c
  | i => i

@[simp] theorem Instr.rowMask_withByte (c : Byte) (i : Instr) : (i.withByte c).rowMask = i.rowMask := by
  cases i <;> rfl

@[simp] theorem Instr.rowMatch_withByte (c : Byte) (i : Instr) : (i.withByte c).rowMatch = i.rowMatch := by
  cases i <;> rfl

/-- A byte that matches a row is the byte of a well-formed instruction of that row. -/
theorem Instr.withByte_of_matchesRow (i : Instr) (c : Byte) (h : matchesRow i.rowMask i.rowMatch c = true) :
    (i.withByte c).wf = true ∧ encodeCmd (i.withByte c) = c := by
  cases i with
  | unsup | rsvd7 | rsvd6 | rsvd5 | rsvd4 => exact ⟨h, rfl⟩
  | _ =>
    have hc : c &&& 0xFF#8 = _ := (matchesRow_iff _ _ c).1 h
    exact ⟨rfl, hc.symm.trans (BitVec.and_allOnes (x := c))⟩

/-! ### The decoder and the encoder are inverse -/

/-- The command a byte decodes to matches its row of the table. -/
theorem wf_decodeCmd (c : Byte) : (decodeCmd c).wf = true := by
  by_cases hr : fieldRsv c = 0#4
  · rw [decodeCmd_of_defined c hr]
    by_cases ha : fieldAlg c = .other
    · rw [decodeDefined_of_other c ha]
      exact (wf_unsup_iff c).2 ⟨hr, ha⟩
    · exact wf_of_rowMask_full _ (decodeDefined_named c ha).2
  · rw [decodeCmd_of_reserved c hr]
    exact (decodeReserved_cases c hr).2

theorem decodeCmd_encodeCmd (i : Instr) (h : i.wf = true) : decodeCmd (encodeCmd i) = i := by
  cases i with
  | unsup c =>
    obtain ⟨hr, ha⟩ := (wf_unsup_iff c).1 h
    exact (decodeCmd_of_defined c hr).trans (decodeDefined_of_other c ha)
  | rsvd7 c =>
    have h7 := (wf_rsvd7_iff c).1 h
    simp [-BitVec.getLsbD_eq_getElem, encodeCmd, decodeCmd, fieldRsv_eq_zero_iff, decodeReserved, h7]
  | rsvd6 c =>
    obtain ⟨h7, h6⟩ := (wf_rsvd6_iff c).1 h
    simp [-BitVec.getLsbD_eq_getElem, encodeCmd, decodeCmd, fieldRsv_eq_zero_iff, decodeReserved, h7, h6]
  | rsvd5 c =>
    obtain ⟨h7, h6, h5⟩ := (wf_rsvd5_iff c).1 h
    simp [-BitVec.getLsbD_eq_getElem, encodeCmd, decodeCmd, fieldRsv_eq_zero_iff, decodeReserved, h7, h6, h5]
  | rsvd4 c =>
    obtain ⟨h7, h6, h5, h4⟩ := (wf_rsvd4_iff c).1 h
    simp [-BitVec.getLsbD_eq_getElem, encodeCmd, decodeCmd, fieldRsv_eq_zero_iff, decodeReserved, h7, h6, h5, h4]
  | _ => rfl

/-- What a byte decodes to: the one well-formed instruction whose byte it is. -/
theorem decodeCmd_eq_iff (c : Byte) (i : Instr) : decodeCmd c = i ↔ i.wf = true ∧ encodeCmd i = c := by
  constructor
  · rintro rfl
    exact ⟨wf_decodeCmd c, Machine.encodeCmd_decodeCmd c⟩
  · rintro ⟨hwf, rfl⟩
    exact decodeCmd_encodeCmd i hwf

theorem decodeTableWord_toNat (c : Byte) : decodeTableWord 8 c.toNat = some (decodeCmd c) := by
  simp [decodeTableWord, c.isLt]

/-- Settles O1: the two directions of `decodeCmd_eq_iff`; a command is one byte, so nothing is left over. -/
theorem encodeDecodeAgree : Obligations.EncodeDecodeAgree := by
  unfold Obligations.EncodeDecodeAgree
  refine ⟨fun i hi => ?_, fun c rest =>
    ⟨rfl, wf_decodeCmd c, Machine.encodeCmd_decodeCmd c, decodeTableWord_toNat c⟩⟩
  rw [encode, decode, decodeCmd_encodeCmd i hi]

/-! ### The rows of the opcode table -/

/-- The byte of a well-formed instruction matches its row of the table. -/
theorem matchesRow_encodeCmd : ∀ i : Instr, Laws.TableRow.Statement i
  | .encbAes => Laws.TableRow.encbAes
  | .encbDes => Laws.TableRow.encbDes
  | .encbRsa => Laws.TableRow.encbRsa
  | .decbAes => Laws.TableRow.decbAes
  | .decbDes => Laws.TableRow.decbDes
  | .decbRsa => Laws.TableRow.decbRsa
  | .enctAes => Laws.TableRow.enctAes
  | .enctDes => Laws.TableRow.enctDes
  | .enctRsa => Laws.TableRow.enctRsa
  | .dectAes => Laws.TableRow.dectAes
  | .dectDes => Laws.TableRow.dectDes
  | .dectRsa => Laws.TableRow.dectRsa
  | .unsup c => Laws.TableRow.unsup c
  | .rsvd7 c => Laws.TableRow.rsvd7 c
  | .rsvd6 c => Laws.TableRow.rsvd6 c
  | .rsvd5 c => Laws.TableRow.rsvd5 c
  | .rsvd4 c => Laws.TableRow.rsvd4 c

/-- A byte matches the row of the command it decodes to. -/
theorem matchesRow_decodeCmd (c : Byte) : matchesRow (decodeCmd c).rowMask (decodeCmd c).rowMatch c = true := by
  simpa using matchesRow_encodeCmd (decodeCmd c) (wf_decodeCmd c)

/-- No byte matches two rows: the command of a row it matches is the one it decodes to. -/
theorem row_eq_of_matchesRow (c : Byte) (i : Instr) (h : matchesRow i.rowMask i.rowMatch c = true) :
    i.rowMask = (decodeCmd c).rowMask ∧ i.rowMatch = (decodeCmd c).rowMatch := by
  have hi : decodeCmd c = i.withByte c := (decodeCmd_eq_iff c _).2 (i.withByte_of_matchesRow c h)
  simp [hi]

/-- A row of several bytes holds exactly the bytes of its mask and match. -/
theorem decodeCmd_eq_iff_and_mask (c : Byte) (i : Instr) (hbyte : encodeCmd i = c)
    (hrow : i.wf = matchesRow i.rowMask i.rowMatch c) : decodeCmd c = i ↔ c &&& i.rowMask = i.rowMatch := by
  rw [decodeCmd_eq_iff, hrow, matchesRow_iff, and_iff_left hbyte]

/-- Settles O2: a byte matches the row of its command and, since that row holds an instruction with this byte, no other;
the rest reads off the branches of the decoder. -/
theorem everyByteMatchesExactlyItsRow : Obligations.EveryByteMatchesExactlyItsRow := by
  unfold Obligations.EveryByteMatchesExactlyItsRow
  intro c
  refine ⟨matchesRow_decodeCmd c, row_eq_of_matchesRow c, fun hr => ?_, fun hr ha => ?_, fun hr ha => ?_,
    decodeCmd_eq_iff_and_mask c (.rsvd7 c) rfl rfl, decodeCmd_eq_iff_and_mask c (.rsvd6 c) rfl rfl,
    decodeCmd_eq_iff_and_mask c (.rsvd5 c) rfl rfl, decodeCmd_eq_iff_and_mask c (.rsvd4 c) rfl rfl,
    decodeCmd_eq_iff_and_mask c (.unsup c) rfl rfl⟩
  · rw [decodeCmd_of_reserved c hr]
    exact (decodeReserved_cases c hr).1
  · rw [decodeCmd_of_defined c hr]
    exact decodeDefined_of_other c ((fieldAlg_eq_other_iff c).2 ha)
  · rw [decodeCmd_of_defined c hr]
    exact decodeDefined_named c (mt (fieldAlg_eq_other_iff c).1 ha)

/-- Settles O3: each of the sixteen bytes is evaluated. -/
theorem opcodeMapOfDefinedCommands : Obligations.OpcodeMapOfDefinedCommands := by
  unfold Obligations.OpcodeMapOfDefinedCommands
  decide

end Sys2Proof

namespace Sys2Proof.Machine

/-! ### Selector strings -/

theorem algOfName_other (name : Bytes) (haes : name ≠ [0x41#8, 0x45#8, 0x53#8])
    (hdes : name ≠ [0x44#8, 0x45#8, 0x53#8]) (hrsa : name ≠ [0x52#8, 0x53#8, 0x41#8]) : algOfName name = .other := by
  rw [algOfName, if_neg haes, if_neg hdes, if_neg hrsa]

/-- The selector `11` reaches the core as `UNSUP`, whatever the kind and the direction. -/
theorem decodeCmd_commandByte_other (k : Kind) (d : Dir) :
    decodeCmd (commandByte k d .other) = .unsup (commandByte k d .other) := by
  have hwf : Instr.wf (.unsup (commandByte k d .other)) = true := by cases k <;> cases d <;> rfl
  exact decodeCmd_encodeCmd (.unsup (commandByte k d .other)) hwf

theorem exec_unsup_statusErr (c : Byte) (s t : State) (h : exec (.unsup c) s = .next t) :
    statusErr t.status = errCode .unsupportedAlgorithm := by
  obtain ⟨-, rfl⟩ := rejectCommand_next (.unsup c) s t h
  simp [statusFailure]

/-- Settles O4: a string that is none of the three names maps to `11`, so the command is `UNSUP`, which is rejected. -/
theorem selectorNamesMapExactly : Obligations.SelectorNamesMapExactly := by
  unfold Obligations.SelectorNamesMapExactly
  refine ⟨by decide, by decide, by decide, fun name haes hdes hrsa => ?_⟩
  rw [algOfName_other name haes hdes hrsa]
  refine ⟨rfl, fun k d => ?_⟩
  rw [decodeCmd_commandByte_other k d]
  exact ⟨rfl, exec_unsup_statusErr _⟩

end Sys2Proof.Machine
end

section
/-! The padding codec: O39, O40, O41 (40_padding.md R92 to R94). A padded string ends in `n` bytes of value `n`; `unpad`
accepts exactly such strings, and `pad` builds the one whose length is a multiple of the block size. -/

namespace Sys2Proof.Machine

/-! ### What `pad` builds -/

theorem getLast?_append_rep (d : Bytes) (v : Byte) (n : Nat) (h : 1 ≤ n) : (d ++ rep v n).getLast? = some v := by
  obtain ⟨m, rfl⟩ := Nat.exists_eq_add_of_le' h
  simp [rep, List.replicate_succ']

theorem sub_mod_bounds (len bs : Nat) (h : 1 ≤ bs) : 1 ≤ bs - len % bs ∧ bs - len % bs ≤ bs := by
  have hmod := Nat.mod_lt len h
  omega

/-- Settles O39: the length is `pad_length`, the data is the prefix of an append, and at least one byte of the padding
follows it. -/
theorem padLaws : Obligations.PadLaws := by
  unfold Obligations.PadLaws
  intro data bs hpos _
  have hlen := pad_length data bs hpos
  have hdiv := Nat.mul_div_le data.length bs
  refine ⟨by rw [hlen, Nat.mul_add_one], by omega, by omega, ?_, ?_⟩
  · rw [pad, List.take_left]
  · exact getLast?_append_rep data _ _ (sub_mod_bounds data.length bs hpos).1

/-! ### What `unpad` accepts -/

/-- A string that ends in `n` bytes of value `n` is accepted, and those bytes are removed (R93). -/
theorem unpad_append_rep (d : Bytes) (n bs : Nat) (hpos : 1 ≤ n) (hle : n ≤ bs) (hbyte : n ≤ 255) :
    unpad (d ++ rep (BitVec.ofNat 8 n) n) bs = .ok d := by
  have hval : (BitVec.ofNat 8 n).toNat = n := by rw [BitVec.toNat_ofNat]; omega
  have hall : (rep (BitVec.ofNat 8 n) n).all (fun x => x == BitVec.ofNat 8 n) = true := by simp [rep]
  simp [unpad, getLast?_append_rep d _ n hpos, hval, hall, hle, Nat.ne_of_gt hpos]

/-- An accepted string ends in `n` bytes of value `n`, for the `n` that its last byte holds (R93). -/
theorem unpad_ok (p d : Bytes) (bs : Nat) (h : unpad p bs = .ok d) :
    ∃ n, 1 ≤ n ∧ n ≤ bs ∧ p = d ++ rep (BitVec.ofNat 8 n) n := by
  unfold unpad at h
  split at h
  · cases h
  next last _ =>
    simp only at h
    split_ifs at h with hrange hlen hall
    cases h
    have htail : p.drop (p.length - last.toNat) = rep last last.toNat :=
      List.eq_replicate_iff.2 ⟨by rw [List.length_drop]; omega, fun x hx => eq_of_beq (List.all_eq_true.1 hall x hx)⟩
    refine ⟨last.toNat, by omega, by omega, ?_⟩
    rw [BitVec.ofNat_toNat, BitVec.setWidth_eq, ← htail, List.take_append_drop]

theorem unpad_ok_iff (p d : Bytes) (bs : Nat) (hbs : bs ≤ 255) :
    unpad p bs = .ok d ↔ ∃ n, 1 ≤ n ∧ n ≤ bs ∧ p = d ++ rep (BitVec.ofNat 8 n) n := by
  refine ⟨unpad_ok p d bs, ?_⟩
  rintro ⟨n, hpos, hle, rfl⟩
  exact unpad_append_rep d n bs hpos hle (hle.trans hbs)

theorem unpad_error (p : Bytes) (bs : Nat) (e : EngineError) (h : unpad p bs = .error e) : e = .padding := by
  unfold unpad at h
  split at h
  · cases h; rfl
  · simp only at h
    split_ifs at h <;> cases h <;> rfl

/-- Settles O40: the acceptance is `unpad_ok_iff`, and each refusing branch of `unpad` answers `PaddingError`. -/
theorem unpadAcceptsExactlyPaddings : Obligations.UnpadAcceptsExactlyPaddings := by
  unfold Obligations.UnpadAcceptsExactlyPaddings
  exact fun p bs _ hbs => ⟨fun d => unpad_ok_iff p d bs hbs, unpad_error p bs⟩

/-! ### The round trip -/

theorem unpad_pad (d : Bytes) (bs : Nat) (hpos : 1 ≤ bs) (hbs : bs ≤ 255) : unpad (pad d bs) bs = .ok d := by
  obtain ⟨hone, hle⟩ := sub_mod_bounds d.length bs hpos
  exact unpad_append_rep d _ bs hone hle (hle.trans hbs)

theorem pad_length_mod (d : Bytes) (bs : Nat) (hpos : 1 ≤ bs) : (pad d bs).length % bs = 0 := by
  rw [pad_length d bs hpos, Nat.add_mod_right, Nat.mul_mod_right]

/-- The number of bytes that `pad` appends is the only one from 1 to `bs` that completes the last block. -/
theorem sub_mod_eq_of_add_mod_eq_zero (len n bs : Nat) (hpos : 1 ≤ n) (hle : n ≤ bs) (hmod : (len + n) % bs = 0) :
    bs - len % bs = n := by
  have hlt := Nat.mod_lt len (hpos.trans hle)
  have hdvd : bs ∣ len % bs + n := Nat.dvd_of_mod_eq_zero (by rw [Nat.mod_add_mod, hmod])
  have hblock := Nat.eq_of_dvd_of_lt_two_mul (by omega) hdvd (by omega)
  omega

/-- Where the length is a multiple of the block size, `pad` restores what `unpad` removed (R94). -/
theorem pad_of_unpad_ok (p d : Bytes) (bs : Nat) (h : unpad p bs = .ok d) (hmod : p.length % bs = 0) :
    pad d bs = p := by
  obtain ⟨n, hpos, hle, rfl⟩ := unpad_ok p d bs h
  rw [List.length_append, rep_length] at hmod
  rw [pad, sub_mod_eq_of_add_mod_eq_zero d.length n bs hpos hle hmod]

/-- Settles O41: a padded string has a length that is a multiple of the block size, and among the accepted strings that
property singles it out. -/
theorem padUnpadRoundTrip : Obligations.PadUnpadRoundTrip := by
  unfold Obligations.PadUnpadRoundTrip
  intro bs hbs
  have hpos : 1 ≤ bs := by omega
  refine ⟨fun d => unpad_pad d bs hpos (by omega), fun p => ⟨?_, ?_⟩⟩
  · rintro ⟨d, hok, rfl⟩
    exact ⟨⟨d, hok⟩, pad_length_mod d bs hpos⟩
  · rintro ⟨⟨d, hok⟩, hmod⟩
    exact ⟨d, hok, pad_of_unpad_ok p d bs hok hmod⟩

end Sys2Proof.Machine
end

section
/-! The bytes commands of the block ciphers and the envelope: O10 to O13 and O42 (41_block_cipher.md R103, R108, R109,
R113 to R116). -/

namespace Sys2Proof.Machine

/-! ### The envelope marshaller -/

/-- A length is `bs*(m+1)` with `m ≥ 1` exactly when it passes the two tests of `UNMARSHAL`. -/
theorem exists_framed_iff (len bs : Nat) (hbs : 0 < bs) :
    (∃ m, 1 ≤ m ∧ len = bs * (m + 1)) ↔ bs < len ∧ len % bs = 0 := by
  constructor
  · rintro ⟨m, hm, rfl⟩
    have hblock := Nat.mul_le_mul_left bs hm
    exact ⟨by rw [Nat.mul_add_one]; omega, Nat.mul_mod_right _ _⟩
  · rintro ⟨hlt, hmod⟩
    obtain ⟨q, rfl⟩ := Nat.dvd_of_mod_eq_zero hmod
    have hq : 1 < q := by
      by_contra hle
      have hshort := Nat.mul_le_mul_left bs (not_lt.1 hle)
      omega
    exact ⟨q - 1, by omega, by rw [Nat.sub_add_cancel hq.le]⟩

theorem unmarshal_framed (env : Bytes) (bs : Nat) (hlt : bs < env.length) (hmod : env.length % bs = 0) :
    unmarshal env bs = .ok (env.take bs, env.drop bs) := by
  rw [unmarshal, if_neg (not_le.2 hlt), if_neg (not_not.2 hmod)]

theorem unmarshal_badFrame (env : Bytes) (bs : Nat) (h : ¬ (bs < env.length ∧ env.length % bs = 0)) :
    unmarshal env bs = .error .invalidEnvelope := by
  unfold unmarshal
  split_ifs with hle hmod
  · rfl
  · rfl
  · exact absurd ⟨not_le.1 hle, not_not.1 hmod⟩ h

/-- Settles O42: the two tests of `UNMARSHAL` are the two halves of `exists_framed_iff`. -/
theorem unmarshalAcceptsExactlyFramed : Obligations.UnmarshalAcceptsExactlyFramed := by
  unfold Obligations.UnmarshalAcceptsExactlyFramed
  intro env bs hbs
  rw [exists_framed_iff env.length bs hbs]
  refine ⟨fun iv c => ⟨fun hok => ⟨?_, unmarshal_ok env iv c bs hok⟩, ?_⟩, unmarshal_badFrame env bs⟩
  · by_contra hbad
    rw [unmarshal_badFrame env bs hbad] at hok
    cases hok
  · rintro ⟨⟨hlt, hmod⟩, rfl, rfl⟩
    exact unmarshal_framed env bs hlt hmod

/-! ### Decryption of the engine -/

/-- An envelope that is too short or not aligned is rejected before any decryption (R109). -/
theorem decBlock_badFrame (alg : BlockAlg) (k env : Bytes)
    (h : env.length < 2 * blockSize alg ∨ env.length % blockSize alg ≠ 0) :
    decBlock alg k env = .error .invalidEnvelope := by
  have hbad : ¬ (blockSize alg < env.length ∧ env.length % blockSize alg = 0) := by
    rw [← exists_framed_iff _ _ (blockSize_pos alg)]
    rintro ⟨m, hm, hlen⟩
    have hblock := Nat.mul_le_mul_left (blockSize alg) hm
    rw [hlen, Nat.mul_mod_right, Nat.mul_add_one] at h
    omega
  simp only [decBlock, unmarshal_badFrame env _ hbad]

/-- On a well-framed envelope the outcome is the one of `UNPAD` (R109). -/
theorem decBlock_framed (alg : BlockAlg) (k env : Bytes) (hlt : blockSize alg < env.length)
    (hmod : env.length % blockSize alg = 0) :
    decBlock alg k env =
      unpad (cbcDec alg k (env.take (blockSize alg)) (env.drop (blockSize alg))) (blockSize alg) := by
  simp only [decBlock, unmarshal_framed env _ hlt hmod]

/-! ### Completion -/

theorem outputIs_complete_ok (s : State) (ctx : Byte) (v : Bytes) : OutputIs (s.complete ctx (.ok v)) v :=
  ⟨State.output_complete_ok s ctx v, rfl, Memory.read_ofBytes v⟩

theorem commandFrame_complete (s : State) (n : Nat) (ctx : Byte) (r : Except EngineError Bytes) :
    CommandFrame s ((s.afterDraw n).complete ctx r) n := by
  simp [CommandFrame, SameKeys]

/-- What a state holds after a command that succeeded with `v`, having drawn `n` bytes. -/
def Succeeded (s t : State) (ctx : Byte) (v : Bytes) (n : Nat) : Prop :=
  OutputIs t v ∧ t.status = statusSuccess ctx ∧ CommandFrame s t n

/-- What a state holds after a command that failed with `e`, having drawn nothing. -/
def FailedWith (s t : State) (ctx : Byte) (e : EngineError) : Prop :=
  OutputIs t [] ∧ t.status = statusFailure ctx e ∧ CommandFrame s t 0

theorem succeeded_complete (s : State) (n : Nat) (ctx : Byte) (v : Bytes) :
    Succeeded s ((s.afterDraw n).complete ctx (.ok v)) ctx v n :=
  ⟨outputIs_complete_ok _ ctx v, rfl, commandFrame_complete s n ctx _⟩

theorem failedWith_complete (s : State) (ctx : Byte) (e : EngineError) :
    FailedWith s (s.complete ctx (.error e)) ctx e :=
  ⟨outputIs_complete_error s ctx e, rfl, commandFrame_complete s 0 ctx _⟩

/-! ### The encrypt commands -/

/-- Settles O10: the result is the engine's envelope, whose length is `encBlock_length`. -/
theorem encbAesResult : Obligations.EncbAesResult := by
  unfold Obligations.EncbAesResult
  refine ⟨by decide, fun s b _ hb hcap => ?_⟩
  have hadmits : s.admits .encbAes = true := (s.admits_iff _).2 (s.input_length b hb ▸ hcap)
  obtain ⟨hout, hstatus, hframe⟩ := succeeded_complete s 16 0x00#8 (s.encBlock .aes b)
  exact ⟨_, exec_encbAes s b hadmits hb, hout, s.encBlock_length .aes b, hstatus, hframe⟩

/-- Settles O12: as `encbAesResult`, with the DES engine. -/
theorem encbDesResult : Obligations.EncbDesResult := by
  unfold Obligations.EncbDesResult
  refine ⟨by decide, fun s b _ hb hcap => ?_⟩
  have hadmits : s.admits .encbDes = true := (s.admits_iff _).2 (s.input_length b hb ▸ hcap)
  obtain ⟨hout, hstatus, hframe⟩ := succeeded_complete s 8 0x01#8 (s.encBlock .des b)
  exact ⟨_, exec_encbDes s b hadmits hb, hout, s.encBlock_length .des b, hstatus, hframe⟩

/-! ### The decrypt commands -/

section decrypt

variable {i : Instr} {s : State} {alg : BlockAlg} {env : Bytes} {ctx : Byte}

theorem exec_decBlock_badFrame (hexec : exec i s = .next (s.complete ctx (s.decBlock alg env)))
    (h : env.length < 2 * blockSize alg ∨ env.length % blockSize alg ≠ 0) :
    ∃ t, exec i s = .next t ∧ FailedWith s t ctx .invalidEnvelope := by
  rw [State.decBlock, decBlock_badFrame alg _ env h] at hexec
  exact ⟨_, hexec, failedWith_complete s ctx _⟩

theorem exec_decBlock_error (hexec : exec i s = .next (s.complete ctx (s.decBlock alg env)))
    (hlen : 2 * blockSize alg ≤ env.length) (hmod : env.length % blockSize alg = 0) {e : EngineError}
    (he : unpad (cbcDec alg (s.blockKey alg) (env.take (blockSize alg)) (env.drop (blockSize alg)))
      (blockSize alg) = .error e) :
    ∃ t, exec i s = .next t ∧ FailedWith s t ctx .padding := by
  have hpos := blockSize_pos alg
  obtain rfl := unpad_error _ _ _ he
  rw [State.decBlock, decBlock_framed alg _ env (by omega) hmod, he] at hexec
  exact ⟨_, hexec, failedWith_complete s ctx _⟩

theorem exec_decBlock_ok (hexec : exec i s = .next (s.complete ctx (s.decBlock alg env)))
    (hlen : 2 * blockSize alg ≤ env.length) (hmod : env.length % blockSize alg = 0) {data : Bytes}
    (hd : unpad (cbcDec alg (s.blockKey alg) (env.take (blockSize alg)) (env.drop (blockSize alg)))
      (blockSize alg) = .ok data) :
    ∃ t, exec i s = .next t ∧ Succeeded s t ctx data 0 := by
  have hpos := blockSize_pos alg
  rw [State.decBlock, decBlock_framed alg _ env (by omega) hmod, hd] at hexec
  exact ⟨_, hexec, succeeded_complete s 0 ctx data⟩

end decrypt

/-- Settles O11: the three outcomes of the engine's decryption, each completed under the byte of the command. -/
theorem decbAesResult : Obligations.DecbAesResult := by
  unfold Obligations.DecbAesResult
  refine ⟨by decide, fun s b _ hb hcap => ?_⟩
  have hadmits : s.admits .decbAes = true := (s.admits_iff _).2 (s.input_length b hb ▸ hcap)
  have hexec := exec_decbAes s b hadmits hb
  exact ⟨exec_decBlock_badFrame hexec, fun hlen hmod =>
    ⟨fun _ he => exec_decBlock_error hexec hlen hmod he, fun _ hd => exec_decBlock_ok hexec hlen hmod hd⟩⟩

/-- Settles O13: as `decbAesResult`, with the DES engine. -/
theorem decbDesResult : Obligations.DecbDesResult := by
  unfold Obligations.DecbDesResult
  refine ⟨by decide, fun s b _ hb hcap => ?_⟩
  have hadmits : s.admits .decbDes = true := (s.admits_iff _).2 (s.input_length b hb ▸ hcap)
  have hexec := exec_decbDes s b hadmits hb
  exact ⟨exec_decBlock_badFrame hexec, fun hlen hmod =>
    ⟨fun _ he => exec_decBlock_error hexec hlen hmod he, fun _ hd => exec_decBlock_ok hexec hlen hmod hd⟩⟩

end Sys2Proof.Machine
end

section
/-! The octet-string conversions are inverse to each other (44_public_key.md R172, R173). -/

namespace Sys2Proof.Machine

theorem os2ip_concat (b : Bytes) (x : Byte) : os2ip (b ++ [x]) = os2ip b * 256 + x.toNat := by
  simp [os2ip]

/-- The last digit of `I2OSP` is the remainder modulo 256, the others are those of the quotient. -/
theorem i2osp_succ (x n : Nat) : i2osp x (n + 1) = i2osp (x / 256) n ++ [BitVec.ofNat 8 (x % 256)] := by
  have hdigit : ∀ i ∈ List.range n, x / 256 ^ (n - i) = x / 256 / 256 ^ (n - 1 - i) := fun i hi => by
    have hlt := List.mem_range.1 hi
    rw [Nat.div_div_eq_div_mul, ← Nat.pow_succ', show (n - 1 - i).succ = n - i by omega]
  simp only [i2osp, List.range_succ, List.map_append, List.map_cons, List.map_nil, Nat.add_sub_cancel, Nat.sub_self,
    pow_zero, Nat.div_one]
  rw [List.map_congr_left fun i hi => by rw [hdigit i hi]]

theorem os2ip_i2osp (x n : Nat) (h : x < 256 ^ n) : os2ip (i2osp x n) = x := by
  induction n generalizing x with
  | zero => simpa [i2osp, os2ip] using (Nat.lt_one_iff.1 h).symm
  | succ n ih =>
    have hquot : x / 256 < 256 ^ n := Nat.div_lt_of_lt_mul (by rwa [← Nat.pow_succ'])
    have hdigit : (BitVec.ofNat 8 (x % 256)).toNat = x % 256 := by rw [BitVec.toNat_ofNat]; omega
    rw [i2osp_succ, os2ip_concat, ih _ hquot, hdigit, Nat.div_add_mod']

theorem i2osp_os2ip (b : Bytes) : i2osp (os2ip b) b.length = b := by
  induction b using List.reverseRecOn with
  | nil => rfl
  | append_singleton b x ih =>
    have hx := x.isLt
    have hquot : (os2ip b * 256 + x.toNat) / 256 = os2ip b := by omega
    have hrem : (os2ip b * 256 + x.toNat) % 256 = x.toNat := by omega
    rw [List.length_append, List.length_singleton, i2osp_succ, os2ip_concat, hquot, hrem, ih, BitVec.ofNat_toNat,
      BitVec.setWidth_eq]

theorem os2ip_lt (b : Bytes) : os2ip b < 256 ^ b.length := by
  induction b using List.reverseRecOn with
  | nil => exact Nat.one_pos
  | append_singleton b x ih =>
    have hx := x.isLt
    rw [List.length_append, List.length_singleton, os2ip_concat, pow_succ]
    omega

end Sys2Proof.Machine
end

section
/-! The AES-128 block functions are inverse to each other (42_aes128.md R130 to R141): each transformation of a round
has its inverse, so each round of `AES128_DEC` takes back one of `AES128_ENC`. -/

namespace Sys2Proof.Machine

/-! ### Multiplication -/

theorem xtime_xor (a b : Byte) : xtime (a ^^^ b) = xtime a ^^^ xtime b := by
  have hshift : (a ^^^ b) <<< 1 = a <<< 1 ^^^ b <<< 1 := BitVec.shiftLeft_xor_distrib a b 1
  have hmask : ∀ p q : Bool, (if (p ^^ q) = true then 0x1b#8 else 0#8) =
      (if p = true then 0x1b#8 else 0#8) ^^^ (if q = true then 0x1b#8 else 0#8) := by decide
  rw [xtime, hshift, BitVec.getLsbD_xor, hmask]
  unfold xtime
  ac_rfl

theorem xtimePow_xor (i : Nat) (a b : Byte) : xtimePow i (a ^^^ b) = xtimePow i a ^^^ xtimePow i b := by
  induction i with
  | zero => rfl
  | succ i ih => rw [xtimePow, ih, xtime_xor]; rfl

theorem xtimePow_xtime (i : Nat) (a : Byte) : xtimePow i (xtime a) = xtime (xtimePow i a) := by
  induction i with
  | zero => rfl
  | succ i ih => rw [xtimePow, ih]; rfl

/-- The sum of `gmul` (R132) over the bits `l` of `c`, added to `acc`. -/
def gmulSum (a c : Byte) (l : List Nat) (acc : Byte) : Byte :=
  l.foldl (fun acc i => if c.getLsbD i then acc ^^^ xtimePow i a else acc) acc

theorem gmul_eq_gmulSum (a c : Byte) : gmul a c = gmulSum a c (List.range 8) 0#8 := rfl

theorem gmulSum_cons (a c : Byte) (i : Nat) (l : List Nat) (acc : Byte) :
    gmulSum a c (i :: l) acc = gmulSum a c l (if c.getLsbD i then acc ^^^ xtimePow i a else acc) := rfl

theorem gmulSum_xor (a b c : Byte) (l : List Nat) (u v : Byte) :
    gmulSum (a ^^^ b) c l (u ^^^ v) = gmulSum a c l u ^^^ gmulSum b c l v := by
  induction l generalizing u v with
  | nil => rfl
  | cons i l ih =>
    simp only [gmulSum_cons, ← ih, xtimePow_xor]
    split
    · congr 1
      ac_rfl
    · rfl

theorem gmulSum_xtime (a c : Byte) (l : List Nat) (u : Byte) :
    gmulSum (xtime a) c l (xtime u) = xtime (gmulSum a c l u) := by
  induction l generalizing u with
  | nil => rfl
  | cons i l ih =>
    simp only [gmulSum_cons, ← ih, xtimePow_xtime]
    split
    · rw [xtime_xor]
    · rfl

/-- `gmul` is linear in its first operand. -/
theorem gmul_xor (a b c : Byte) : gmul (a ^^^ b) c = gmul a c ^^^ gmul b c := by
  rw [gmul_eq_gmulSum, gmul_eq_gmulSum, gmul_eq_gmulSum, ← gmulSum_xor, BitVec.xor_self]

theorem gmul_xtime (a c : Byte) : gmul (xtime a) c = xtime (gmul a c) := by
  have hzero : xtime 0#8 = 0#8 := by decide
  rw [gmul_eq_gmulSum, gmul_eq_gmulSum, ← gmulSum_xtime, hzero]

/-- 2 has bit 1 only, and 3 bit 0 too. -/
theorem gmul_two (a : Byte) : gmul a 2#8 = xtime a := BitVec.zero_xor

theorem gmul_three (a : Byte) : gmul a 3#8 = a ^^^ xtime a :=
  congrArg (· ^^^ xtime a) BitVec.zero_xor

theorem gmul_two_comm (a c : Byte) : gmul (gmul a c) 2#8 = gmul (gmul a 2#8) c := by
  rw [gmul_two, gmul_two, gmul_xtime]

theorem gmul_three_comm (a c : Byte) : gmul (gmul a c) 3#8 = gmul (gmul a 3#8) c := by
  rw [gmul_three, gmul_three, gmul_xor, gmul_xtime]

/-! ### The columns -/

/-- The entries of the product of the two matrices of R138: 1 on the diagonal, 0 beside it. -/
theorem mixColumns_matrix_product : ∀ a : Byte,
    gmul (gmul a 2#8) 14#8 ^^^ gmul a 11#8 ^^^ gmul a 13#8 ^^^ gmul (gmul a 3#8) 9#8 = a ∧
    gmul (gmul a 3#8) 14#8 ^^^ gmul (gmul a 2#8) 11#8 ^^^ gmul a 13#8 ^^^ gmul a 9#8 = 0#8 ∧
    gmul a 14#8 ^^^ gmul (gmul a 3#8) 11#8 ^^^ gmul (gmul a 2#8) 13#8 ^^^ gmul a 9#8 = 0#8 ∧
    gmul a 14#8 ^^^ gmul a 11#8 ^^^ gmul (gmul a 3#8) 13#8 ^^^ gmul (gmul a 2#8) 9#8 = 0#8 := by decide +kernel

/-- One byte of a column under the matrix of `MixColumns` (R138). -/
def mixByte (a b c d : Byte) : Byte := gmul a 2#8 ^^^ gmul b 3#8 ^^^ c ^^^ d

/-- One byte of a column under the matrix of `InvMixColumns` (R138). -/
def invMixByte (a b c d : Byte) : Byte := gmul a 14#8 ^^^ gmul b 11#8 ^^^ gmul c 13#8 ^^^ gmul d 9#8

/-- Each row of the matrix is the first one turned. -/
theorem mixColumns_cons (a b c d : Byte) (rest : Bytes) :
    mixColumns (a :: b :: c :: d :: rest) =
      mixByte a b c d :: mixByte b c d a :: mixByte c d a b :: mixByte d a b c :: mixColumns rest := by
  simp only [mixColumns, mixByte, List.cons.injEq, and_true, true_and]
  exact ⟨by ac_rfl, by ac_rfl, by ac_rfl⟩

theorem invMixColumns_cons (a b c d : Byte) (rest : Bytes) :
    invMixColumns (a :: b :: c :: d :: rest) =
      invMixByte a b c d :: invMixByte b c d a :: invMixByte c d a b :: invMixByte d a b c :: invMixColumns rest := by
  simp only [invMixColumns, invMixByte, List.cons.injEq, and_true, true_and]
  exact ⟨by ac_rfl, by ac_rfl, by ac_rfl⟩

theorem invMixByte_mixByte (a b c d : Byte) :
    invMixByte (mixByte a b c d) (mixByte b c d a) (mixByte c d a b) (mixByte d a b c) = a := by
  obtain ⟨ha, -, -, -⟩ := mixColumns_matrix_product a
  obtain ⟨-, hb, -, -⟩ := mixColumns_matrix_product b
  obtain ⟨-, -, hc, -⟩ := mixColumns_matrix_product c
  obtain ⟨-, -, -, hd⟩ := mixColumns_matrix_product d
  calc _ = (gmul (gmul a 2#8) 14#8 ^^^ gmul a 11#8 ^^^ gmul a 13#8 ^^^ gmul (gmul a 3#8) 9#8) ^^^
        (gmul (gmul b 3#8) 14#8 ^^^ gmul (gmul b 2#8) 11#8 ^^^ gmul b 13#8 ^^^ gmul b 9#8) ^^^
        (gmul c 14#8 ^^^ gmul (gmul c 3#8) 11#8 ^^^ gmul (gmul c 2#8) 13#8 ^^^ gmul c 9#8) ^^^
        (gmul d 14#8 ^^^ gmul d 11#8 ^^^ gmul (gmul d 3#8) 13#8 ^^^ gmul (gmul d 2#8) 9#8) := by
          simp only [invMixByte, mixByte, gmul_xor]
          ac_rfl
    _ = a := by rw [ha, hb, hc, hd]; simp

theorem mixByte_invMixByte (a b c d : Byte) :
    mixByte (invMixByte a b c d) (invMixByte b c d a) (invMixByte c d a b) (invMixByte d a b c) = a := by
  calc _ = invMixByte (mixByte a b c d) (mixByte b c d a) (mixByte c d a b) (mixByte d a b c) := by
          simp only [invMixByte, mixByte, gmul_xor, gmul_two_comm, gmul_three_comm]
          ac_rfl
    _ = a := invMixByte_mixByte a b c d

/-! ### The transformations of a round and their inverses -/

/-- Induction over the columns of a block, four bytes each (R131). -/
theorem columns_induction {P : Bytes → Prop} (nil : P [])
    (column : ∀ a b c d rest, P rest → P (a :: b :: c :: d :: rest)) : ∀ s : Bytes, s.length % 4 = 0 → P s
  | [], _ => nil
  | a :: b :: c :: d :: rest, h =>
    column a b c d rest (columns_induction nil column rest (by simp only [List.length_cons] at h; omega))

theorem mixColumns_length : ∀ s : Bytes, s.length % 4 = 0 → (mixColumns s).length = s.length :=
  columns_induction rfl fun a b c d rest ih => by simp [mixColumns_cons, ih]

theorem invMixColumns_length : ∀ s : Bytes, s.length % 4 = 0 → (invMixColumns s).length = s.length :=
  columns_induction rfl fun a b c d rest ih => by simp [invMixColumns_cons, ih]

theorem invMixColumns_mixColumns : ∀ s : Bytes, s.length % 4 = 0 → invMixColumns (mixColumns s) = s :=
  columns_induction rfl fun a b c d rest ih => by
    simp only [mixColumns_cons, invMixColumns_cons, invMixByte_mixByte, ih]

theorem mixColumns_invMixColumns : ∀ s : Bytes, s.length % 4 = 0 → mixColumns (invMixColumns s) = s :=
  columns_induction rfl fun a b c d rest ih => by
    simp only [mixColumns_cons, invMixColumns_cons, mixByte_invMixByte, ih]

theorem invSbox_sbox : ∀ a : Byte, invSbox (sbox a) = a := by decide +kernel

theorem sbox_invSbox : ∀ a : Byte, sbox (invSbox a) = a := by decide +kernel

theorem invSubBytes_subBytes (s : Bytes) : invSubBytes (subBytes s) = s := by
  simp [subBytes, invSubBytes, Function.comp_def, invSbox_sbox]

theorem subBytes_invSubBytes (s : Bytes) : subBytes (invSubBytes s) = s := by
  simp [subBytes, invSubBytes, Function.comp_def, sbox_invSbox]

/-- Two moves of the 16 bytes of a block undo each other when their indices do. -/
theorem map_getD_map_getD (f g : Nat → Nat) (s : Bytes) (hs : s.length = 16)
    (h : ∀ i < 16, g i < 16 ∧ f (g i) = i) :
    ((List.range 16).map fun i => ((List.range 16).map fun j => s.getD (f j) 0#8).getD (g i) 0#8) = s := by
  refine List.ext_getElem (by simp [hs]) fun i hi hi' => ?_
  obtain ⟨hg, hfg⟩ := h i (hs ▸ hi')
  simp [List.getD_eq_getElem?_getD, hg, hfg, hi']

theorem invShiftRows_shiftRows (s : Bytes) (hs : s.length = 16) : invShiftRows (shiftRows s) = s :=
  map_getD_map_getD _ _ s hs (by decide)

theorem shiftRows_invShiftRows (s : Bytes) (hs : s.length = 16) : shiftRows (invShiftRows s) = s :=
  map_getD_map_getD _ _ s hs (by decide)

/-! ### The rounds -/

section rounds

variable {k : Bytes} (hk : k.length = 16) (r : Nat) (hr : r ≤ 10) (s : Bytes)
include hk hr

theorem addRoundKey_length (hs : s.length = 16) : (addRoundKey k r s).length = 16 := by
  rw [addRoundKey, xorBytes_length, hs, aesRoundKey_length k r hk hr, min_self]

theorem addRoundKey_addRoundKey (hs : s.length = 16) : addRoundKey k r (addRoundKey k r s) = s :=
  xorBytes_cancel s _ (by rw [hs, aesRoundKey_length k r hk hr])

end rounds

/-- `SubBytes` and `ShiftRows`, the part of a round of R139 that stands before its key. -/
def aesSubShift (s : Bytes) : Bytes := shiftRows (subBytes s)

/-- The inverse of `aesSubShift`, as it stands in R140. -/
def aesInvSubShift (s : Bytes) : Bytes := invSubBytes (invShiftRows s)

/-- Round `r` of R139, for `r` from 1 to 9. -/
def aesRound (k s : Bytes) (r : Nat) : Bytes := addRoundKey k r (mixColumns (aesSubShift s))

/-- Round `r` of R140, for `r` from 9 to 1. -/
def aesInvRound (k s : Bytes) (r : Nat) : Bytes := invMixColumns (addRoundKey k r (aesInvSubShift s))

/-- The round numbers of R139. -/
def aesRounds : List Nat := [1, 2, 3, 4, 5, 6, 7, 8, 9]

theorem aes128Enc_eq (k x : Bytes) :
    aes128Enc k x = addRoundKey k 10 (aesSubShift (aesRounds.foldl (aesRound k) (addRoundKey k 0 x))) := rfl

theorem aes128Dec_eq (k y : Bytes) :
    aes128Dec k y =
      addRoundKey k 0 (aesInvSubShift (aesRounds.reverse.foldl (aesInvRound k) (addRoundKey k 10 y))) := rfl

@[simp] theorem aesSubShift_length (s : Bytes) : (aesSubShift s).length = 16 := shiftRows_length _

@[simp] theorem aesInvSubShift_length (s : Bytes) : (aesInvSubShift s).length = 16 := by simp [aesInvSubShift]

theorem aesInvSubShift_aesSubShift (s : Bytes) (hs : s.length = 16) : aesInvSubShift (aesSubShift s) = s := by
  rw [aesInvSubShift, aesSubShift, invShiftRows_shiftRows _ (by rw [subBytes_length, hs]), invSubBytes_subBytes]

theorem aesSubShift_aesInvSubShift (s : Bytes) (hs : s.length = 16) : aesSubShift (aesInvSubShift s) = s := by
  rw [aesInvSubShift, aesSubShift, subBytes_invSubBytes, shiftRows_invShiftRows s hs]

/-- Rounds `f` that rounds `g` take back, up to the change `φ` of the state between them: `g` in the reverse order takes
back the whole chain. -/
theorem foldl_reverse_foldl {f g : Bytes → Nat → Bytes} {φ : Bytes → Bytes} (l : List Nat)
    (hfg : ∀ r ∈ l, ∀ s, g (φ (f s r)) r = φ s) (s : Bytes) : l.reverse.foldl g (φ (l.foldl f s)) = φ s := by
  induction l generalizing s with
  | nil => rfl
  | cons r l ih =>
    obtain ⟨hr, hl⟩ := List.forall_mem_cons.1 hfg
    simp only [List.reverse_cons, List.foldl_append, List.foldl_cons, List.foldl_nil, ih hl, hr]

section rounds

variable {k : Bytes} (hk : k.length = 16) (s : Bytes) (r : Nat) (hr : r ≤ 10)
include hk hr

theorem aesRound_length : (aesRound k s r).length = 16 :=
  addRoundKey_length hk r hr _ (by rw [mixColumns_length] <;> simp)

theorem aesInvRound_length : (aesInvRound k s r).length = 16 := by
  have hadd := addRoundKey_length hk r hr (aesInvSubShift s) (by simp)
  rw [aesInvRound, invMixColumns_length _ (by rw [hadd]), hadd]

/-- Before a round of R140 the state is `aesSubShift` of the one a round of R139 ended with. -/
theorem aesInvRound_aesRound : aesInvRound k (aesSubShift (aesRound k s r)) r = aesSubShift s := by
  have hmix : (mixColumns (aesSubShift s)).length = 16 := by rw [mixColumns_length] <;> simp
  rw [aesInvRound, aesInvSubShift_aesSubShift _ (aesRound_length hk s r hr), aesRound,
    addRoundKey_addRoundKey hk r hr _ hmix, invMixColumns_mixColumns _ (by simp)]

theorem aesRound_aesInvRound : aesRound k (aesInvSubShift (aesInvRound k s r)) r = aesInvSubShift s := by
  have hadd := addRoundKey_length hk r hr (aesInvSubShift s) (by simp)
  rw [aesRound, aesSubShift_aesInvSubShift _ (aesInvRound_length hk s r hr), aesInvRound,
    mixColumns_invMixColumns _ (by rw [hadd]), addRoundKey_addRoundKey hk r hr _ (by simp)]

end rounds

theorem aesRounds_le : ∀ r ∈ aesRounds, r ≤ 10 := by decide

/-- R141: decryption takes back encryption. -/
theorem aes128Dec_aes128Enc (k x : Bytes) (hk : k.length = 16) (hx : x.length = 16) :
    aes128Dec k (aes128Enc k x) = x := by
  have hfirst := addRoundKey_length hk 0 (by omega) x hx
  have hback := foldl_reverse_foldl aesRounds
    (fun r hr s => aesInvRound_aesRound hk s r (aesRounds_le r hr)) (addRoundKey k 0 x)
  rw [aes128Dec_eq, aes128Enc_eq, addRoundKey_addRoundKey hk 10 le_rfl _ (aesSubShift_length _), hback,
    aesInvSubShift_aesSubShift _ hfirst, addRoundKey_addRoundKey hk 0 (by omega) x hx]

/-- R141: encryption takes back decryption. -/
theorem aes128Enc_aes128Dec (k y : Bytes) (hk : k.length = 16) (hy : y.length = 16) :
    aes128Enc k (aes128Dec k y) = y := by
  have hfirst := addRoundKey_length hk 10 le_rfl y hy
  have hback := foldl_reverse_foldl aesRounds.reverse
    (fun r hr s => aesRound_aesInvRound hk s r (aesRounds_le r (List.mem_reverse.1 hr))) (addRoundKey k 10 y)
  rw [List.reverse_reverse] at hback
  rw [aes128Enc_eq, aes128Dec_eq, addRoundKey_addRoundKey hk 0 (by omega) _ (aesInvSubShift_length _), hback,
    aesSubShift_aesInvSubShift _ hfirst, addRoundKey_addRoundKey hk 10 le_rfl y hy]

end Sys2Proof.Machine
end

section
/-! The DES block functions are inverse to each other (43_des.md R150 to R160): the two outer permutations are inverse,
and the rounds with the keys in reverse order take back the rounds, whatever the round function is. -/

namespace Sys2Proof.Machine

/-! ### Bit strings -/

/-- The bits of the number a list of bits is read as, the last one first. -/
theorem testBit_foldl_bits (bs : List Bool) (j : Nat) :
    (bs.foldl (fun (acc : Nat) b => 2 * acc + b.toNat) 0).testBit j = bs.reverse.getD j false := by
  induction bs using List.reverseRecOn generalizing j with
  | nil => simp
  | append_singleton bs b ih =>
    rw [List.foldl_append, List.foldl_cons, List.foldl_nil, ← Nat.bit_val, List.reverse_append]
    cases j with
    | zero => simp
    | succ j => simpa [Nat.testBit_bit_succ] using ih j

/-- Bit `i` of the bit string a list of bits gives is entry `i` of the list. -/
theorem getMsbD_ofBits (m : Nat) (bs : List Bool) (i : Nat) (hlen : bs.length = m) (hi : i < m) :
    (ofBits m bs).getMsbD i = bs.getD i false := by
  have hlt : m - 1 - i < bs.length := by omega
  have hidx : bs.length - 1 - (m - 1 - i) = i := by omega
  rw [BitVec.getMsbD_eq_getLsbD, ofBits, BitVec.getLsbD_ofNat, testBit_foldl_bits]
  simp [hi, hlt, hidx, hlen ▸ hi, show m - 1 - i < m by omega]

/-- Bit `i` of a permuted bit string is the bit the table names (R150). -/
theorem getMsbD_permute {n : Nat} (m : Nat) (T : List Nat) (x : BitVec n) (i : Nat) (hlen : T.length = m)
    (hi : i < m) :
    (permute m T x).getMsbD i = x.getMsbD (T.getD i 0 - 1) := by
  rw [permute, getMsbD_ofBits m _ i (by simp [hlen]) hi]
  simp [List.getD_eq_getElem?_getD, hlen, hi, bitAt]

/-- Two tables of 64 bits whose indices undo each other. -/
theorem permute_permute (T U : List Nat) (x : BitVec 64) (hT : T.length = 64) (hU : U.length = 64)
    (h : ∀ i < 64, T.getD i 0 - 1 < 64 ∧ U.getD (T.getD i 0 - 1) 0 - 1 = i) :
    permute 64 T (permute 64 U x) = x := by
  refine BitVec.eq_of_getMsbD_eq fun i hi => ?_
  obtain ⟨hlt, hidx⟩ := h i hi
  rw [getMsbD_permute 64 T _ i hT hi, getMsbD_permute 64 U x _ hU hlt, hidx]

/-- `FP` is the inverse of `IP` (R151). -/
theorem permute_FP_IP (x : BitVec 64) : permute 64 tableFP (permute 64 tableIP x) = x :=
  permute_permute tableFP tableIP x rfl rfl (by decide)

theorem permute_IP_FP (x : BitVec 64) : permute 64 tableIP (permute 64 tableFP x) = x :=
  permute_permute tableIP tableFP x rfl rfl (by decide)

/-! ### The rounds -/

theorem desRounds_cons (k : BitVec 48) (ks : List (BitVec 48)) (l r : BitVec 32) :
    desRounds (k :: ks) (l, r) = desRounds ks (r, l ^^^ desRound r k) := rfl

theorem desRounds_append (ks ks' : List (BitVec 48)) (lr : BitVec 32 × BitVec 32) :
    desRounds (ks ++ ks') lr = desRounds ks' (desRounds ks lr) := by
  induction ks generalizing lr with
  | nil => rfl
  | cons k ks ih => exact ih _

/-- With the halves swapped, the rounds under the reversed keys lead back to the start (R159, R160). -/
theorem desRounds_reverse_swap (ks : List (BitVec 48)) (lr : BitVec 32 × BitVec 32) :
    desRounds ks.reverse (desRounds ks lr).swap = lr.swap := by
  induction ks generalizing lr with
  | nil => rfl
  | cons k ks ih =>
    obtain ⟨l, r⟩ := lr
    rw [List.reverse_cons, desRounds_append, desRounds_cons k ks, ih]
    simp [desRounds]

/-- The halves of 64 bits (R157). -/
def desHalves (x : BitVec 64) : BitVec 32 × BitVec 32 := (x.extractLsb' 32 32, x.extractLsb' 0 32)

/-- 64 bits from their halves (R157). -/
def desJoin (lr : BitVec 32 × BitVec 32) : BitVec 64 := lr.1 ++ lr.2

theorem desJoin_desHalves (x : BitVec 64) : desJoin (desHalves x) = x := BitVec.extractLsb'_append_extractLsb'

theorem desHalves_desJoin (lr : BitVec 32 × BitVec 32) : desHalves (desJoin lr) = lr :=
  Prod.ext BitVec.extractLsb'_append_eq_left BitVec.extractLsb'_append_eq_right

theorem desCore_eq (ks : List (BitVec 48)) (x : BitVec 64) :
    desCore ks x = permute 64 tableFP (desJoin (desRounds ks (desHalves (permute 64 tableIP x))).swap) := rfl

/-- The core under the reversed keys takes back the core, for any list of round keys. -/
theorem desCore_reverse (ks : List (BitVec 48)) (x : BitVec 64) : desCore ks.reverse (desCore ks x) = x := by
  rw [desCore_eq ks.reverse, desCore_eq ks, permute_IP_FP, desHalves_desJoin, desRounds_reverse_swap,
    Prod.swap_swap, desJoin_desHalves, permute_FP_IP]

/-! ### The block functions -/

theorem bytesOfBits_bitsOfBytes (b : Bytes) (hb : b.length = 8) : bytesOfBits (bitsOfBytes b) = b := by
  have hlt : os2ip b < 2 ^ 64 := lt_of_lt_of_eq (os2ip_lt b) (by rw [hb]; rfl)
  rw [bytesOfBits, bitsOfBytes, BitVec.toNat_ofNat, Nat.mod_eq_of_lt hlt, ← hb, i2osp_os2ip]

theorem bitsOfBytes_bytesOfBits (x : BitVec 64) : bitsOfBytes (bytesOfBits x) = x := by
  rw [bitsOfBytes, bytesOfBits, os2ip_i2osp _ _ x.isLt, BitVec.ofNat_toNat, BitVec.setWidth_eq]

/-- R160: decryption takes back encryption. -/
theorem desDec_desEnc (k x : Bytes) (hx : x.length = 8) : desDec k (desEnc k x) = x := by
  rw [desDec, desEnc, bitsOfBytes_bytesOfBits, desCore_reverse, bytesOfBits_bitsOfBytes x hx]

/-- R160: encryption takes back decryption. -/
theorem desEnc_desDec (k y : Bytes) (hy : y.length = 8) : desEnc k (desDec k y) = y := by
  have hback := desCore_reverse (desSubkeys k).reverse (bitsOfBytes y)
  rw [List.reverse_reverse] at hback
  rw [desEnc, desDec, bitsOfBytes_bytesOfBits, hback, bytesOfBits_bitsOfBytes y hy]

end Sys2Proof.Machine
end

section
/-! CBC chaining and the engine: O43 and O44, and the round trip of an envelope (41_block_cipher.md R97, R101 to R104,
R109, R111, R112). The chaining laws depend on the block functions only through their being inverse to each other. -/

namespace Sys2Proof.Machine

/-! ### The block functions of the engine -/

/-- R97: `D` takes back `E`. -/
theorem blockDec_blockEnc (alg : BlockAlg) (k x : Bytes) (hk : k.length = keySize alg)
    (hx : x.length = blockSize alg) : blockDec alg k (blockEnc alg k x) = x := by
  cases alg with
  | aes => exact aes128Dec_aes128Enc k x hk hx
  | des => exact desDec_desEnc k x hx

/-- R97: `E` takes back `D`. -/
theorem blockEnc_blockDec (alg : BlockAlg) (k y : Bytes) (hk : k.length = keySize alg)
    (hy : y.length = blockSize alg) : blockEnc alg k (blockDec alg k y) = y := by
  cases alg with
  | aes => exact aes128Enc_aes128Dec k y hk hy
  | des => exact desEnc_desDec k y hy

/-! ### Chaining over a list of blocks -/

section chain

variable {enc dec : Bytes → Bytes} {n : Nat}

/-- R102: decryption takes back encryption, block by block. -/
theorem cbcDecBlocks_cbcEncBlocks (hde : ∀ x, x.length = n → dec (enc x) = x) (prev : Bytes) (ps : List Bytes)
    (hlen : ∀ x, (enc x).length = n) (hprev : prev.length = n) (hps : ∀ p ∈ ps, p.length = n) :
    cbcDecBlocks dec prev (cbcEncBlocks enc prev ps) = ps := by
  induction ps generalizing prev with
  | nil => rfl
  | cons p ps ih =>
    obtain ⟨hp, hps⟩ := List.forall_mem_cons.1 hps
    have hx : (xorBytes p prev).length = n := by rw [xorBytes_length, hp, hprev, min_self]
    rw [cbcEncBlocks, cbcDecBlocks, hde _ hx, xorBytes_cancel p prev (by rw [hp, hprev]), ih _ (hlen _) hps]

/-- The converse: encryption takes back decryption. -/
theorem cbcEncBlocks_cbcDecBlocks (hed : ∀ x, x.length = n → enc (dec x) = x) (prev : Bytes) (cs : List Bytes)
    (hlen : ∀ x, (dec x).length = n) (hprev : prev.length = n) (hcs : ∀ c ∈ cs, c.length = n) :
    cbcEncBlocks enc prev (cbcDecBlocks dec prev cs) = cs := by
  induction cs generalizing prev with
  | nil => rfl
  | cons c cs ih =>
    obtain ⟨hc, hcs⟩ := List.forall_mem_cons.1 hcs
    rw [cbcDecBlocks, cbcEncBlocks, xorBytes_cancel _ prev (by rw [hlen, hprev]), hed c hc, ih c hc hcs]

theorem length_of_mem_cbcDecBlocks (hlen : ∀ x, (dec x).length = n) (prev : Bytes) (cs : List Bytes)
    (hprev : prev.length = n) (hcs : ∀ c ∈ cs, c.length = n) : ∀ p ∈ cbcDecBlocks dec prev cs, p.length = n := by
  induction cs generalizing prev with
  | nil => simp [cbcDecBlocks]
  | cons c cs ih =>
    obtain ⟨hc, hcs⟩ := List.forall_mem_cons.1 hcs
    exact List.forall_mem_cons.2 ⟨by rw [xorBytes_length, hlen, hprev, min_self], ih c hc hcs⟩

end chain

/-! ### Cutting into blocks -/

theorem length_flatten_of_forall (n : Nat) (bs : List Bytes) (h : ∀ b ∈ bs, b.length = n) :
    bs.flatten.length = bs.length * n := by
  rw [List.length_flatten, List.sum_eq_card_nsmul _ n (List.forall_mem_map.2 h)]
  simp

/-- Cutting a string of whole blocks gives those blocks: the two lists join to one string and agree in lengths. -/
theorem blocks_flatten (n : Nat) (hn : 0 < n) (bs : List Bytes) (h : ∀ b ∈ bs, b.length = n) :
    blocks n bs.flatten = bs := by
  have hlen := length_flatten_of_forall n bs h
  refine List.eq_iff_flatten_eq.2 ⟨flatten_blocks n bs.length _ hn hlen, ?_⟩
  rw [List.eq_replicate_of_mem (List.forall_mem_map.2 h),
    List.eq_replicate_of_mem (List.forall_mem_map.2 (length_of_mem_blocks n bs.flatten))]
  simp [hlen, hn]

/-! ### Chaining over a string -/

section cbc

variable {alg : BlockAlg} {k iv : Bytes} (hk : k.length = keySize alg) (hiv : iv.length = blockSize alg) {m : Nat}
include hk

theorem blocks_cbcEnc (p : Bytes) :
    blocks (blockSize alg) (cbcEnc alg k iv p) = cbcEncBlocks (blockEnc alg k) iv (blocks (blockSize alg) p) :=
  blocks_flatten _ (blockSize_pos alg) _ (length_of_mem_cbcEncBlocks (fun x => blockEnc_length alg k x hk) iv _)

include hiv

theorem blocks_cbcDec (c : Bytes) :
    blocks (blockSize alg) (cbcDec alg k iv c) = cbcDecBlocks (blockDec alg k) iv (blocks (blockSize alg) c) :=
  blocks_flatten _ (blockSize_pos alg) _
    (length_of_mem_cbcDecBlocks (fun x => blockDec_length alg k x hk) iv _ hiv (length_of_mem_blocks _ c))

theorem cbcDec_cbcEnc (p : Bytes) (hp : p.length = m * blockSize alg) :
    cbcDec alg k iv (cbcEnc alg k iv p) = p := by
  rw [cbcDec, blocks_cbcEnc hk, cbcDecBlocks_cbcEncBlocks (fun x hx => blockDec_blockEnc alg k x hk hx) iv _
    (fun x => blockEnc_length alg k x hk) hiv (length_of_mem_blocks _ p), flatten_blocks _ m p (blockSize_pos alg) hp]

theorem cbcEnc_cbcDec (c : Bytes) (hc : c.length = m * blockSize alg) :
    cbcEnc alg k iv (cbcDec alg k iv c) = c := by
  rw [cbcEnc, blocks_cbcDec hk hiv, cbcEncBlocks_cbcDecBlocks (fun x hx => blockEnc_blockDec alg k x hk hx) iv _
    (fun x => blockDec_length alg k x hk) hiv (length_of_mem_blocks _ c), flatten_blocks _ m c (blockSize_pos alg) hc]

theorem cbcDec_length (c : Bytes) (hc : c.length = m * blockSize alg) : (cbcDec alg k iv c).length = c.length := by
  have hall := length_of_mem_cbcDecBlocks (fun x => blockDec_length alg k x hk) iv _ hiv
    (length_of_mem_blocks (blockSize alg) c)
  rw [cbcDec, length_flatten_of_forall _ _ hall, cbcDecBlocks_length, blocks_length, hc,
    Nat.mul_div_cancel _ (blockSize_pos alg)]

/-- Another IV changes the first block of what a ciphertext decrypts to (R102). -/
theorem cbcDec_iv_injective {iv' c : Bytes} (hiv' : iv'.length = blockSize alg) (hc : c.length = m * blockSize alg)
    (hm : 0 < m) (h : cbcDec alg k iv' c = cbcDec alg k iv c) : iv' = iv := by
  have hblocks : cbcDecBlocks (blockDec alg k) iv' (blocks (blockSize alg) c) =
      cbcDecBlocks (blockDec alg k) iv (blocks (blockSize alg) c) := by
    rw [← blocks_cbcDec hk hiv', ← blocks_cbcDec hk hiv, h]
  have hcount : (blocks (blockSize alg) c).length = m := by
    rw [blocks_length, hc, Nat.mul_div_cancel _ (blockSize_pos alg)]
  obtain ⟨g, gs, hcons⟩ := List.exists_cons_of_length_pos (hcount ▸ hm)
  rw [hcons, cbcDecBlocks, cbcDecBlocks, List.cons.injEq] at hblocks
  have hdec := blockDec_length alg k g hk
  calc iv' = xorBytes (xorBytes iv' (blockDec alg k g)) (blockDec alg k g) :=
        (xorBytes_cancel _ _ (by rw [hiv', hdec])).symm
    _ = xorBytes (xorBytes iv (blockDec alg k g)) (blockDec alg k g) := by
        rw [xorBytes_comm iv', hblocks.1, xorBytes_comm iv]
    _ = iv := xorBytes_cancel _ _ (by rw [hiv, hdec])

end cbc

/-- Settles O43: the law of R102 over the blocks, and a string of whole blocks is the join of its blocks. -/
theorem cbcDecInvertsCbcEnc : Obligations.CbcDecInvertsCbcEnc := by
  unfold Obligations.CbcDecInvertsCbcEnc
  exact fun _ _ _ p _ hk hiv hp => cbcDec_cbcEnc hk hiv p hp

/-! ### The engine -/

theorem pad_blockSize_length (data : Bytes) (alg : BlockAlg) :
    (pad data (blockSize alg)).length = (data.length / blockSize alg + 1) * blockSize alg := by
  rw [pad_length data _ (blockSize_pos alg)]
  ring

section engine

variable {alg : BlockAlg} {k iv : Bytes} (hk : k.length = keySize alg) (hiv : iv.length = blockSize alg)

include hiv in
/-- Decryption of an IV and one block or more (R109). -/
theorem decBlock_marshal {c : Bytes} {m : Nat} (hc : c.length = m * blockSize alg) (hm : 0 < m) :
    decBlock alg k (marshal iv c) = unpad (cbcDec alg k iv c) (blockSize alg) := by
  have hpos := Nat.mul_pos hm (blockSize_pos alg)
  have hlt : blockSize alg < (marshal iv c).length := by rw [marshal, List.length_append, hiv, hc]; omega
  have hmod : (marshal iv c).length % blockSize alg = 0 := by simp [marshal, hiv, hc]
  rw [decBlock_framed alg k _ hlt hmod, marshal, List.take_left' hiv, List.drop_left' hiv]

include hk

theorem cbcEnc_pad_length (data : Bytes) :
    (cbcEnc alg k iv (pad data (blockSize alg))).length = (data.length / blockSize alg + 1) * blockSize alg := by
  rw [cbcEnc_length alg k iv _ hk, pad_blockSize_length, Nat.mul_div_cancel _ (blockSize_pos alg)]

include hiv

/-- The round trip of the engine, for every IV (R112). -/
theorem decBlock_encBlock (data : Bytes) : decBlock alg k (encBlock alg k iv data) = .ok data := by
  rw [encBlock, decBlock_marshal hiv (cbcEnc_pad_length hk data) (Nat.succ_pos _),
    cbcDec_cbcEnc hk hiv _ (pad_blockSize_length data alg)]
  exact unpad_pad data _ (blockSize_pos alg) (by cases alg <;> decide)

/-- An envelope that does not decrypt to the padded data gives `PaddingError` or other data: padding is the one way to
reach a string of whole blocks (40_padding.md R94). -/
theorem decBlock_ne_of_cbcDec_ne {c data : Bytes} {m : Nat} (hc : c.length = m * blockSize alg) (hm : 0 < m)
    (hne : cbcDec alg k iv c ≠ pad data (blockSize alg)) :
    decBlock alg k (marshal iv c) = .error .padding ∨ ∃ d, decBlock alg k (marshal iv c) = .ok d ∧ d ≠ data := by
  rw [decBlock_marshal hiv hc hm]
  cases hunpad : unpad (cbcDec alg k iv c) (blockSize alg) with
  | error e => exact .inl (by rw [unpad_error _ _ _ hunpad])
  | ok d =>
    have hmod : (cbcDec alg k iv c).length % blockSize alg = 0 := by
      rw [cbcDec_length hk hiv c hc, hc, Nat.mul_mod_left]
    exact .inr ⟨d, rfl, fun heq => hne (heq ▸ (pad_of_unpad_ok _ d _ hunpad hmod).symm)⟩

end engine

/-- Settles O44: a change of the IV changes the first decrypted block, and a change of the ciphertext changes what it
decrypts to, as encryption takes decryption back. -/
theorem tamperingNeverGivesTheOriginal : Obligations.TamperingNeverGivesTheOriginal := by
  unfold Obligations.TamperingNeverGivesTheOriginal
  intro alg k iv data i x hk hiv hi hx
  have hne : (encBlock alg k iv data).set i x ≠ encBlock alg k iv data := fun h => hx (by
    rw [← h, List.getElem?_set_self hi])
  have hc := cbcEnc_pad_length (iv := iv) hk data
  have hback := cbcDec_cbcEnc hk hiv _ (pad_blockSize_length data alg)
  have hm : 0 < data.length / blockSize alg + 1 := Nat.succ_pos _
  rw [encBlock, marshal, List.set_append] at hne ⊢
  split_ifs at hne ⊢
  · have hiv' : (iv.set i x).length = blockSize alg := by rw [List.length_set, hiv]
    refine decBlock_ne_of_cbcDec_ne hk hiv' hc hm fun h => hne ?_
    rw [cbcDec_iv_injective hk hiv hiv' hc hm (h.trans hback.symm)]
  · have hc' := (List.length_set (i := i - iv.length) (a := x)).trans hc
    refine decBlock_ne_of_cbcDec_ne hk hiv hc' hm fun h => hne ?_
    rw [← cbcEnc_cbcDec hk hiv _ hc', h]

end Sys2Proof.Machine
end

section
/-! The transport codec takes back its encoding (46_transport_text.md R210 to R213): the digits of a group are in the
alphabet, the pad byte is not, and a group's digits give back its number. -/

namespace Sys2Proof.Machine

/-- The digits of R210 read back, and none of them is the pad byte. -/
theorem b64Char_spec : ∀ v < 64, b64Val (b64Char v) = some v ∧ b64Char v ≠ padByte := by decide

theorem b64Val_b64Digit (v i : Nat) : b64Val (b64Digit v i) = some (v / 64 ^ (3 - i) % 64) :=
  (b64Char_spec _ (Nat.mod_lt _ (by decide))).1

theorem b64Digit_ne_padByte (v i : Nat) : b64Digit v i ≠ padByte :=
  (b64Char_spec _ (Nat.mod_lt _ (by decide))).2

theorem i2osp_os2ip_three (a b c : Byte) : i2osp (os2ip [a, b, c]) 3 = [a, b, c] := i2osp_os2ip [a, b, c]

theorem os2ip_three (a b c : Byte) : os2ip [a, b, c] = a.toNat * 65536 + b.toNat * 256 + c.toNat := by
  simp [os2ip]
  ring

theorem os2ip_three_lt (a b c : Byte) : os2ip [a, b, c] < 256 ^ 3 := os2ip_lt [a, b, c]

theorem padCount_of_ne (last : Bool) (q2 q3 : Byte) (h : q3 ≠ padByte) : padCount last q2 q3 = 0 := by
  simp [padCount, h]

/-- The digits of a group of `4 - np` digits and `np` pad bytes give back its number (R212). -/
theorem b64DecGroup_eq (last : Bool) (q0 q1 q2 q3 : Byte) (np v : Nat) (ds : List Nat)
    (hnp : padCount last q2 q3 = np) (hds : b64Vals (([q0, q1, q2, q3] : Bytes).take (4 - np)) = some ds)
    (hv : (ds ++ List.replicate np 0).foldl (fun acc d => acc * 64 + d) 0 = v) (hlow : v % 2 ^ (8 * np) = 0) :
    b64DecGroup last q0 q1 q2 q3 = .ok ((i2osp v 3).take (3 - np)) := by
  have h1 : ¬ (np = 1 ∧ v % 2 ^ 8 ≠ 0) := by rintro ⟨rfl, h⟩; exact h hlow
  have h2 : ¬ (np = 2 ∧ v % 2 ^ 16 ≠ 0) := by rintro ⟨rfl, h⟩; exact h hlow
  simp only [b64DecGroup, hnp, hds, hv, if_neg h1, if_neg h2]

/-- Three bytes come back from their four digits, wherever the group stands. -/
theorem b64DecGroup_three (last : Bool) (a b c : Byte) :
    b64DecGroup last (b64Digit (os2ip [a, b, c]) 0) (b64Digit (os2ip [a, b, c]) 1) (b64Digit (os2ip [a, b, c]) 2)
      (b64Digit (os2ip [a, b, c]) 3) = .ok [a, b, c] := by
  have hlt := os2ip_three_lt a b c
  rw [b64DecGroup_eq last _ _ _ _ 0 (os2ip [a, b, c]) _ (padCount_of_ne _ _ _ (b64Digit_ne_padByte _ _))
    (by simp only [List.take, b64Vals, b64Val_b64Digit]; rfl) (by simp; omega) (Nat.mod_one _), i2osp_os2ip_three]
  rfl

/-- Two bytes come back from three digits and one pad byte. -/
theorem b64DecGroup_two (a b : Byte) :
    b64DecGroup true (b64Digit (os2ip [a, b, 0#8]) 0) (b64Digit (os2ip [a, b, 0#8]) 1)
      (b64Digit (os2ip [a, b, 0#8]) 2) padByte = .ok [a, b] := by
  have hlt := os2ip_three_lt a b 0#8
  have hlow : os2ip [a, b, 0#8] % 2 ^ 8 = 0 := by rw [os2ip_three]; simp; omega
  rw [b64DecGroup_eq true _ _ _ _ 1 (os2ip [a, b, 0#8]) _ (by simp [padCount, b64Digit_ne_padByte])
    (by simp only [List.take, b64Vals, b64Val_b64Digit]; rfl) (by simp; omega) hlow, i2osp_os2ip_three]
  rfl

/-- One byte comes back from two digits and two pad bytes. -/
theorem b64DecGroup_one (a : Byte) :
    b64DecGroup true (b64Digit (os2ip [a, 0#8, 0#8]) 0) (b64Digit (os2ip [a, 0#8, 0#8]) 1) padByte padByte =
      .ok [a] := by
  have hlt := os2ip_three_lt a 0#8 0#8
  have hlow : os2ip [a, 0#8, 0#8] % 2 ^ 16 = 0 := by rw [os2ip_three]; simp
  rw [b64DecGroup_eq true _ _ _ _ 2 (os2ip [a, 0#8, 0#8]) _ (by simp [padCount])
    (by simp only [List.take, b64Vals, b64Val_b64Digit]; rfl) (by simp; omega) hlow, i2osp_os2ip_three]
  rfl

/-- R213: decoding takes back encoding, group by group. -/
theorem b64Dec_b64Enc (b : Bytes) : b64Dec (b64Enc b) = .ok b := by
  fun_induction b64Enc b with
  | case1 => rfl
  | case2 a v => simp [b64Dec, v, b64DecGroup_one]
  | case3 a b v => simp [b64Dec, v, b64DecGroup_two]
  | case4 a b c rest v ih => simp [b64Dec, v, b64DecGroup_three, ih]

theorem b64Enc_injective : Function.Injective b64Enc := fun x y h => by
  have hdec := congrArg b64Dec h
  rwa [b64Dec_b64Enc, b64Dec_b64Enc, Except.ok.injEq] at hdec

end Sys2Proof.Machine
end

section
/-! The encrypt and decrypt commands of the block ciphers, of either kind: O45 and O46 (41_block_cipher.md R106, R112,
10_state.md R41, 47_dispatcher.md R243). -/

namespace Sys2Proof.Machine

/-! ### One meaning for the two kinds -/

/-- What a command of a kind writes for the engine's bytes (46_transport_text.md R217). -/
def toTransport : Kind → Bytes → Bytes
  | .bytes, raw => raw
  | .text, raw => b64Enc raw

/-- What a command of a kind does before the engine's decryption (R217). -/
def fromTransport : Kind → (Bytes → Except EngineError Bytes) → Bytes → Except EngineError Bytes
  | .bytes, decrypt, b => decrypt b
  | .text, decrypt, b => decodeText decrypt b

theorem fromTransport_toTransport (kind : Kind) (decrypt : Bytes → Except EngineError Bytes) (raw : Bytes) :
    fromTransport kind decrypt (toTransport kind raw) = decrypt raw := by
  cases kind with
  | bytes => rfl
  | text => simp only [fromTransport, toTransport, decodeText, b64Dec_b64Enc]

theorem toTransport_injective (kind : Kind) : Function.Injective (toTransport kind) := by
  cases kind with
  | bytes => exact Function.injective_id
  | text => exact b64Enc_injective

theorem exec_encCommand (kind : Kind) (alg : BlockAlg) (s : State) :
    exec (encCommand kind alg) s = runCommand (encCommand kind alg)
      (fun b => { draws := blockSize alg, result := .ok (toTransport kind (s.encBlock alg b)) }) s := by
  cases kind <;> cases alg <;> rfl

theorem exec_decCommand (kind : Kind) (alg : BlockAlg) (s : State) :
    exec (decCommand kind alg) s = runCommand (decCommand kind alg)
      (fun b => { draws := 0, result := fromTransport kind (s.decBlock alg) b }) s := by
  cases kind <;> cases alg <;> rfl

/-- An encrypt command that answers a next state left the envelope of its input. -/
theorem exec_encCommand_output {kind : Kind} {alg : BlockAlg} {s t : State}
    (h : exec (encCommand kind alg) s = .next t) :
    ∃ b, s.input = some b ∧ t.output = some (toTransport kind (s.encBlock alg b)) := by
  rw [exec_encCommand] at h
  obtain ⟨-, b, hb, rfl⟩ := runCommand_next _ _ s t h
  exact ⟨b, hb, State.output_complete_ok _ _ _⟩

/-! ### The round trip -/

theorem State.Inv.admits_decCommand {s : State} (h : s.Inv) (kind : Kind) (alg : BlockAlg) :
    s.admits (decCommand kind alg) = true := by
  have hdir : fieldDir (encodeCmd (decCommand kind alg)) = .decrypt := by cases kind <;> cases alg <;> decide
  rw [State.admits_iff, outLenMax_of_decrypt _ _ _ hdir]
  exact h.input.length_le

/-- The symmetric keys are the parameters (10_state.md R22, R23). -/
theorem State.Inv.blockKey_eq {s u : State} (hs : s.Inv) (hu : u.Inv) (hcfg : u.cfg = s.cfg) (alg : BlockAlg) :
    u.blockKey alg = s.blockKey alg := by
  cases alg with
  | aes => rw [State.blockKey, State.blockKey, hu.aesKey, hs.aesKey, hcfg]
  | des => rw [State.blockKey, State.blockKey, hu.desKey, hs.desKey, hcfg]

/-- Settles O45: the transport codec and the engine are taken back in turn, and both states hold the same key. -/
theorem blockCipherRoundTrip : Obligations.BlockCipherRoundTrip := by
  unfold Obligations.BlockCipherRoundTrip
  intro kind alg s t u b hs hu hcfg hb hexec hin
  obtain ⟨b', hb', hout⟩ := exec_encCommand_output hexec
  obtain rfl : b = b' := Option.some.inj (hb.symm.trans hb')
  have hdec : fromTransport kind (u.decBlock alg) (toTransport kind (s.encBlock alg b)) = .ok b := by
    rw [fromTransport_toTransport, State.decBlock, State.encBlock, hs.blockKey_eq hu hcfg]
    exact decBlock_encBlock (s.blockKey_length alg) (s.draw_length _) b
  have hrun := runCommand_eq _ (fun b => { draws := 0, result := fromTransport kind (u.decBlock alg) b }) u _
    (hu.admits_decCommand kind alg) (hin.trans hout)
  rw [← exec_decCommand, hdec] at hrun
  exact ⟨_, hrun, outputIs_complete_ok _ _ b, statusErr_statusWord _ _ _⟩

/-! ### Fresh draws -/

theorem ivLength_encCommand (kind : Kind) (alg : BlockAlg) : ivLength (encCommand kind alg) = blockSize alg := by
  cases kind <;> cases alg <;> rfl

/-- The four command bytes of 30_encoding.md R74 that encrypt with a block cipher. -/
theorem decodeCmd_eq_encCommand (c : Byte) (h : c = 0x00#8 ∨ c = 0x01#8 ∨ c = 0x08#8 ∨ c = 0x09#8) :
    ∃ kind alg, decodeCmd c = encCommand kind alg := by
  rcases h with rfl | rfl | rfl | rfl
  · exact ⟨.bytes, .aes, by decide⟩
  · exact ⟨.bytes, .des, by decide⟩
  · exact ⟨.text, .aes, by decide⟩
  · exact ⟨.text, .des, by decide⟩

section issue

variable {s t : State} {c : Byte} {rest : List HostStep} {kind : Kind} {alg : BlockAlg}
  (hhost : s.host = .issue c :: rest) (hc : decodeCmd c = encCommand kind alg) (hstep : step s = .next t)
include hhost hc hstep

/-- An issued encrypt command leaves an envelope that starts with the bytes drawn. -/
theorem step_issue_encCommand :
    t.host = rest ∧ ∃ b, t.output = some (toTransport kind (s.draw (blockSize alg) ++ b)) := by
  obtain ⟨hissue, -, -⟩ := stepRunsTheDecodedCommand
  rw [hissue s c rest hhost, hc] at hstep
  obtain ⟨n, -, -, -, -, hrest, -⟩ := exec_commandFrame _ _ t hstep
  obtain ⟨b, -, hout⟩ := exec_encCommand_output hstep
  exact ⟨hrest, _, hout⟩

theorem ivDraws_succ_of_encCommand (k : Nat) : ivDraws (k + 1) s = s.draw (blockSize alg) :: ivDraws k t := by
  have hlen : ivLength (decodeCmd c) = blockSize alg := by rw [hc, ivLength_encCommand]
  have hpos := blockSize_pos alg
  simp [ivDraws, hstep, hhost, hlen, hpos.ne']

end issue

/-- Settles O46: the two IVs are two draws of one power cycle, and each envelope starts with its own. -/
theorem freshDrawsGiveDistinctEnvelopes : Obligations.FreshDrawsGiveDistinctEnvelopes := by
  unfold Obligations.FreshDrawsGiveDistinctEnvelopes
  intro s t u c rest _ hfresh hbyte hhost hs ht heq
  obtain ⟨kind, alg, hc⟩ := decodeCmd_eq_encCommand c hbyte
  obtain ⟨hhost', b, hout⟩ := step_issue_encCommand hhost hc hs
  obtain ⟨-, b', hout'⟩ := step_issue_encCommand hhost' hc ht
  have hdraws : s.draw (blockSize alg) ≠ t.draw (blockSize alg) := by
    have hpair := hfresh 2
    rw [ivDraws_succ_of_encCommand hhost hc hs, ivDraws_succ_of_encCommand hhost' hc ht] at hpair
    exact List.rel_of_pairwise_cons hpair List.mem_cons_self (by simp)
  rw [hout, hout', Option.some.injEq, (toTransport_injective kind).eq_iff] at heq
  exact hdraws (List.append_inj_left heq (by simp))

end Sys2Proof.Machine
end

section
/-! The AES-128 statements (42_aes128.md R132 to R134, R141): O49 from the inverse laws of the block functions, and O48.
A byte has at most one inverse under `gmul`, since two factors after the first may change places. So the inverse that
`ginv` searches for is the one the S-box entry stands for, once the affine map is taken off it. -/

namespace Sys2Proof.Machine

/-- Settles O49, from the two inverse laws of the block functions. -/
theorem aesBlockFunctionsAreInverse : Obligations.AesBlockFunctionsAreInverse := by
  unfold Obligations.AesBlockFunctionsAreInverse
  exact fun k x hk hx => ⟨aes128Dec_aes128Enc k x hk hx, aes128Enc_aes128Dec k x hk hx⟩

/-! ### The inverse of R132 -/

theorem gmul_xtimePow (i : Nat) (a c : Byte) : gmul (xtimePow i a) c = xtimePow i (gmul a c) := by
  induction i with
  | zero => rfl
  | succ i ih => rw [xtimePow, gmul_xtime, ih]; rfl

@[simp] theorem zero_gmul (c : Byte) : gmul 0#8 c = 0#8 := by
  have hxor := gmul_xor 0#8 0#8 c
  rwa [BitVec.xor_self, BitVec.xor_self] at hxor

theorem one_gmul : ∀ c : Byte, gmul 1#8 c = c := by decide +kernel

theorem gmulSum_gmul (a c d : Byte) (l : List Nat) (u : Byte) :
    gmulSum (gmul a c) d l (gmul u c) = gmul (gmulSum a d l u) c := by
  induction l generalizing u with
  | nil => rfl
  | cons i l ih =>
    simp only [gmulSum_cons, ← ih, gmul_xor, gmul_xtimePow, apply_ite (gmul · c)]

/-- Two factors after the first change places. -/
theorem gmul_right_comm (a c d : Byte) : gmul (gmul a c) d = gmul (gmul a d) c := by
  rw [gmul_eq_gmulSum _ d, gmul_eq_gmulSum a d, ← gmulSum_gmul, zero_gmul]

/-- A byte has at most one inverse. -/
theorem eq_of_gmul_eq_one {a b c : Byte} (hb : gmul a b = 1#8) (hc : gmul a c = 1#8) : b = c := by
  calc b = gmul (gmul a c) b := by rw [hc, one_gmul]
    _ = gmul (gmul a b) c := gmul_right_comm a c b
    _ = c := by rw [hb, one_gmul]

/-- 0 has no inverse, so the search of `ginv` finds none. -/
theorem ginv_zero : ginv 0#8 = 0#8 := by
  unfold ginv
  split
  next b hfind =>
    have hb := List.find?_some hfind
    simp at hb
  next => rfl

/-- The search of `ginv` finds the inverse, where there is one. -/
theorem ginv_eq_of_gmul_eq_one {a b : Byte} (h : gmul a b = 1#8) : ginv a = b := by
  unfold ginv
  split
  next c hfind => exact eq_of_gmul_eq_one (by simpa using List.find?_some hfind) h
  next hnone =>
    have hb := List.find?_eq_none.1 hnone b.toNat (List.mem_range.2 b.isLt)
    simp [h] at hb

/-! ### The S-box -/

/-- The affine map of R133, which `sboxFormula` applies to the inverse of a byte. -/
def sboxAffine (b : Byte) : Byte :=
  b ^^^ b.rotateLeft 1 ^^^ b.rotateLeft 2 ^^^ b.rotateLeft 3 ^^^ b.rotateLeft 4 ^^^ 0x63#8

/-- The inverse of the affine map of R133. -/
def sboxAffineInv (s : Byte) : Byte := s.rotateLeft 1 ^^^ s.rotateLeft 3 ^^^ s.rotateLeft 6 ^^^ 0x05#8

theorem sboxFormula_eq (a : Byte) : sboxFormula a = sboxAffine (ginv a) := rfl

theorem sboxAffine_sboxAffineInv : ∀ s : Byte, sboxAffine (sboxAffineInv s) = s := by decide +kernel

/-- The table entry of a byte other than 0, without the affine map, is the inverse of the byte. -/
theorem gmul_sboxAffineInv_sbox : ∀ a : Byte, a ≠ 0#8 → gmul a (sboxAffineInv (sbox a)) = 1#8 := by decide +kernel

theorem ginv_eq_sboxAffineInv_sbox (a : Byte) : ginv a = sboxAffineInv (sbox a) := by
  by_cases ha : a = 0#8
  · subst ha
    rw [ginv_zero]
    decide
  · exact ginv_eq_of_gmul_eq_one (gmul_sboxAffineInv_sbox a ha)

theorem sbox_eq_sboxFormula (a : Byte) : sbox a = sboxFormula a := by
  rw [sboxFormula_eq, ginv_eq_sboxAffineInv_sbox, sboxAffine_sboxAffineInv]

/-- Settles O48: the entry is the affine map of the inverse, and the two tables undo each other byte by byte. -/
theorem sboxTablesMeetTheirFormula : Obligations.SboxTablesMeetTheirFormula := by
  unfold Obligations.SboxTablesMeetTheirFormula
  exact ⟨sbox_eq_sboxFormula, invSbox_sbox⟩

end Sys2Proof.Machine
end

section
/-! The DES statement: O50 (43_des.md R150, R153, R160). The inverse laws hold for any list of round keys and stand
above. The table `PC1` names no lowest bit of a byte, so the parity bits of a key never reach its round keys. The weak
key has sixteen equal round keys, so that their order, the one difference between the two functions, is no matter. -/

namespace Sys2Proof.Machine

/-! ### The bits of a byte string -/

/-- The bits of `OS2IP`, the last byte first. -/
theorem testBit_os2ip (b : Bytes) (j : Nat) :
    (os2ip b).testBit j = (b.reverse.getD (j / 8) 0#8).getLsbD (j % 8) := by
  induction b using List.reverseRecOn generalizing j with
  | nil => simp [os2ip]
  | append_singleton b x ih =>
    rw [os2ip_concat, Nat.mul_comm, Nat.testBit_two_pow_mul_add (i := 8) _ x.isLt, List.reverse_append]
    split
    next hj => simp [Nat.div_eq_of_lt hj, Nat.mod_eq_of_lt hj, BitVec.getLsbD]
    next hj =>
      obtain ⟨j, rfl⟩ := Nat.exists_eq_add_of_le' (Nat.le_of_not_lt hj)
      simpa using ih j

/-- R150: the bits of 8 bytes are the bits of each byte in turn, its most significant one first. -/
theorem getMsbD_bitsOfBytes (b : Bytes) (hb : b.length = 8) (i : Nat) (hi : i < 64) :
    (bitsOfBytes b).getMsbD i = (b.getD (i / 8) 0#8).getMsbD (i % 8) := by
  have hbyte : 8 - 1 - (63 - i) / 8 = i / 8 := by omega
  have hbit : (63 - i) % 8 = 7 - i % 8 := by omega
  have hrev : b.reverse.getD ((63 - i) / 8) 0#8 = b.getD (i / 8) 0#8 := by
    rw [List.getD_eq_getElem?_getD, List.getElem?_reverse (by omega), hb, hbyte, List.getD_eq_getElem?_getD]
  rw [BitVec.getMsbD_eq_getLsbD, BitVec.getMsbD_eq_getLsbD, bitsOfBytes, BitVec.getLsbD_ofNat, testBit_os2ip,
    show 64 - 1 - i = 63 - i from rfl, hrev, hbit]
  simp [hi, show 63 - i < 64 by omega, show i % 8 < 8 by omega]

/-! ### Parity bits -/

/-- A byte without its parity bit, the least significant one. -/
def dropParity (b : Byte) : Byte := b &&& 0xFE#8

theorem getMsbD_dropParity (b : Byte) (j : Nat) (hj : j < 7) : (dropParity b).getMsbD j = b.getMsbD j := by
  have hmask : ∀ i < 7, (0xFE#8).getMsbD i = true := by decide
  rw [dropParity, BitVec.getMsbD_and, hmask j hj, Bool.and_true]

theorem getD_map_dropParity (k : Bytes) (j : Nat) : (k.map dropParity).getD j 0#8 = dropParity (k.getD j 0#8) :=
  List.getD_map k 0#8 dropParity

/-- A bit of the key whose number is no multiple of 8 is no parity bit (R150). -/
theorem bitAt_bitsOfBytes_map_dropParity (k : Bytes) (hk : k.length = 8) (t : Nat) (ht : t - 1 < 64)
    (hbit : (t - 1) % 8 < 7) : bitAt (bitsOfBytes (k.map dropParity)) t = bitAt (bitsOfBytes k) t := by
  rw [bitAt, bitAt, getMsbD_bitsOfBytes _ (by simpa using hk) _ ht, getMsbD_bitsOfBytes k hk _ ht, getD_map_dropParity,
    getMsbD_dropParity _ _ hbit]

/-- R153: `PC1` selects no bit whose number is a multiple of 8. -/
theorem tablePC1_no_parity : ∀ t ∈ tablePC1, t - 1 < 64 ∧ (t - 1) % 8 < 7 := by decide

theorem permute_congr {n : Nat} (m : Nat) (T : List Nat) (x y : BitVec n) (h : ∀ t ∈ T, bitAt x t = bitAt y t) :
    permute m T x = permute m T y := by
  rw [permute, permute, List.map_congr_left h]

theorem permute_PC1_map_dropParity (k : Bytes) (hk : k.length = 8) :
    permute 56 tablePC1 (bitsOfBytes (k.map dropParity)) = permute 56 tablePC1 (bitsOfBytes k) :=
  permute_congr 56 tablePC1 _ _ fun t ht =>
    bitAt_bitsOfBytes_map_dropParity k hk t (tablePC1_no_parity t ht).1 (tablePC1_no_parity t ht).2

theorem desSubkeys_map_dropParity (k : Bytes) (hk : k.length = 8) : desSubkeys (k.map dropParity) = desSubkeys k := by
  rw [desSubkeys, desSubkeys, permute_PC1_map_dropParity k hk]

/-- R160: keys that differ only in their parity bits have the same round keys. -/
theorem desSubkeys_eq_of_map_dropParity_eq {k k' : Bytes} (hk : k.length = 8) (hk' : k'.length = 8)
    (h : k.map dropParity = k'.map dropParity) : desSubkeys k = desSubkeys k' := by
  rw [← desSubkeys_map_dropParity k hk, h, desSubkeys_map_dropParity k' hk']

/-! ### The weak key -/

/-- Every bit of `01..01` that `PC1` selects is 0, and so is every round key. -/
theorem desSubkeys_weakKey : desSubkeys (List.replicate 8 0x01#8) = List.replicate 16 0#48 := by decide +kernel

/-- Where the round keys read the same backwards, the two block functions are one. -/
theorem desEnc_eq_desDec_of_palindrome {k : Bytes} (h : (desSubkeys k).reverse = desSubkeys k) (x : Bytes) :
    desEnc k x = desDec k x := by
  rw [desEnc, desDec, h]

theorem desEnc_weakKey_eq_desDec (x : Bytes) :
    desEnc (List.replicate 8 0x01#8) x = desDec (List.replicate 8 0x01#8) x :=
  desEnc_eq_desDec_of_palindrome (by rw [desSubkeys_weakKey, List.reverse_replicate]) x

/-- Settles O50: the two inverse laws; keys alike but for parity have the same round keys; and under the weak key the
outer encryption is a decryption. -/
theorem desBlockFunctionsAreInverse : Obligations.DesBlockFunctionsAreInverse := by
  unfold Obligations.DesBlockFunctionsAreInverse
  refine ⟨fun k x _ hx => ⟨desDec_desEnc k x hx, desEnc_desDec k x hx⟩, fun k k' x hk hk' hmask => ?_, fun x hx => ?_⟩
  · have hkeys : desSubkeys k = desSubkeys k' := desSubkeys_eq_of_map_dropParity_eq hk hk' hmask
    exact ⟨by rw [desEnc, desEnc, hkeys], by rw [desDec, desDec, hkeys]⟩
  · rw [desEnc_weakKey_eq_desDec (desEnc _ x), desDec_desEnc _ x hx]

end Sys2Proof.Machine
end

section
/-! The octet-string and RSA primitive statements: O51 to O53 (44_public_key.md R171 to R175). The key law is Fermat's
little theorem for each prime of the modulus, put together by the coprimality of the two primes. -/

namespace Sys2Proof.Machine

/-! ### Octet strings -/

theorem os2ip_eq_sum (b : Bytes) :
    os2ip b = ∑ i ∈ Finset.range b.length, (b.getD i 0#8).toNat * 256 ^ (b.length - 1 - i) := by
  induction b using List.reverseRecOn with
  | nil => rfl
  | append_singleton b x ih =>
    have hterm : ∀ i ∈ Finset.range b.length, ((b ++ [x]).getD i 0#8).toNat * 256 ^ (b.length - i) =
        (b.getD i 0#8).toNat * 256 ^ (b.length - 1 - i) * 256 := fun i hi => by
      have hlt := Finset.mem_range.1 hi
      rw [List.getD_append _ _ _ _ hlt, mul_assoc, ← pow_succ, show b.length - 1 - i + 1 = b.length - i by omega]
    have hlast : (b ++ [x]).getD b.length 0#8 = x := by rw [List.getD_append_right _ _ _ _ le_rfl]; simp
    rw [os2ip_concat, ih, List.length_append, List.length_singleton, Finset.sum_range_succ, Nat.add_sub_cancel,
      Finset.sum_congr rfl hterm, ← Finset.sum_mul, hlast, Nat.sub_self, pow_zero, mul_one]

theorem i2osp_os2ip_of_length {b : Bytes} {n : Nat} (h : b.length = n) : i2osp (os2ip b) n = b := h ▸ i2osp_os2ip b

theorem getElem?_i2osp (x n i : Nat) (hi : i < n) :
    (i2osp x n)[i]? = some (BitVec.ofNat 8 (x / 256 ^ (n - 1 - i) % 256)) := by
  simp [i2osp, hi]

/-- Settles O51: the sum grows by its last digit, and the round trips are `os2ip_i2osp` and `i2osp_os2ip`. -/
theorem octetStringConversions : Obligations.OctetStringConversions := by
  unfold Obligations.OctetStringConversions
  exact ⟨os2ip_eq_sum, fun x n i _ hi => ⟨i2osp_length x n, getElem?_i2osp x n i hi⟩, os2ip_i2osp, i2osp_os2ip⟩

/-! ### Modular powers -/

/-- Modulo 1 every accumulator of the loop is 0. -/
theorem modPow_one_right (b e : Nat) : modPow b e 1 = 0 :=
  Nat.lt_one_iff.1 (modPowLoop_lt 1 _ _ _ _ Nat.one_pos)

/-- `modPow_eq_pow_mod`, with the modulus 1. -/
theorem modPow_eq_pow_mod_of_pos (b e n : Nat) (hn : 0 < n) : modPow b e n = b ^ e % n := by
  obtain rfl | hn := Nat.eq_or_lt_of_le (show 1 ≤ n from hn)
  · rw [modPow_one_right, Nat.mod_one]
  · exact modPow_eq_pow_mod b e n hn

theorem rsaep_eq (n e m : Nat) (hn : 0 < n) : rsaep n e m = m ^ e % n := modPow_eq_pow_mod_of_pos m e n hn

theorem rsadp_eq (n d c : Nat) (hn : 0 < n) : rsadp n d c = c ^ d % n := modPow_eq_pow_mod_of_pos c d n hn

theorem rsaep_lt (n e m : Nat) (hn : 0 < n) : rsaep n e m < n := rsaep_eq n e m hn ▸ Nat.mod_lt _ hn

/-- Settles O52: both primitives are `modPow`, and `m < n` leaves only a positive modulus. -/
theorem rsaPrimitivesAreModularPowers : Obligations.RsaPrimitivesAreModularPowers := by
  unfold Obligations.RsaPrimitivesAreModularPowers
  exact fun n e d m hm => ⟨rsaep_eq n e m (Nat.zero_lt_of_lt hm), rsadp_eq n d m (Nat.zero_lt_of_lt hm)⟩

/-! ### The key law -/

/-- Fermat, `t` times over. No case is needed for a multiple of `p`, since each round is `m ^ p ≡ m`. -/
theorem pow_sub_one_mul_add_one_modEq {p : Nat} (hp : p.Prime) (m t : Nat) : m ^ ((p - 1) * t + 1) ≡ m [MOD p] := by
  have : Fact p.Prime := ⟨hp⟩
  have hfermat : m ^ p ≡ m [MOD p] := by
    rw [← ZMod.natCast_eq_natCast_iff, Nat.cast_pow, ZMod.pow_card]
  induction t with
  | zero => rw [mul_zero, zero_add, pow_one]
  | succ t ih =>
    calc m ^ ((p - 1) * (t + 1) + 1) = m ^ ((p - 1) * t + 1) * m ^ (p - 1) := by rw [← pow_add]; congr 1; ring
      _ ≡ m * m ^ (p - 1) [MOD p] := ih.mul_right _
      _ = m ^ p := mul_pow_sub_one hp.ne_zero m
      _ ≡ m [MOD p] := hfermat

/-- An exponent that is 1 modulo a multiple of `p - 1` changes nothing modulo `p`. -/
theorem pow_modEq_self {p l x : Nat} (hp : p.Prime) (hl : p - 1 ∣ l) (hx : x % l = 1) (m : Nat) :
    m ^ x ≡ m [MOD p] := by
  obtain ⟨c, rfl⟩ := hl
  rw [← Nat.div_add_mod x ((p - 1) * c), hx, mul_assoc]
  exact pow_sub_one_mul_add_one_modEq hp m _

/-- R171: the two exponents together change nothing modulo `n`. -/
theorem ValidRsaKey.pow_mul_mod {n e d k : Nat} (h : ValidRsaKey n e d k) (m : Nat) (hm : m < n) :
    m ^ (e * d) % n = m := by
  obtain ⟨p, q, ⟨hp, hq, hne, -, -, rfl⟩, -, -, -, -, hed⟩ := h
  have hmod : m ^ (e * d) ≡ m [MOD p * q] :=
    (Nat.modEq_and_modEq_iff_modEq_mul ((Nat.coprime_primes hp hq).2 hne)).1
      ⟨pow_modEq_self hp (Nat.dvd_lcm_left _ _) hed m, pow_modEq_self hq (Nat.dvd_lcm_right _ _) hed m⟩
  rwa [Nat.ModEq, Nat.mod_eq_of_lt hm] at hmod

theorem ValidRsaKey.rsadp_rsaep {n e d k : Nat} (h : ValidRsaKey n e d k) (m : Nat) (hm : m < n) :
    rsadp n d (rsaep n e m) = m := by
  have hn := Nat.zero_lt_of_lt hm
  rw [rsaep_eq n e m hn, rsadp_eq n d _ hn, ← Nat.pow_mod, ← pow_mul, h.pow_mul_mod m hm]

theorem ValidRsaKey.rsaep_rsadp {n e d k : Nat} (h : ValidRsaKey n e d k) (m : Nat) (hm : m < n) :
    rsaep n e (rsadp n d m) = m := by
  have hn := Nat.zero_lt_of_lt hm
  rw [rsadp_eq n d m hn, rsaep_eq n e _ hn, ← Nat.pow_mod, ← pow_mul, mul_comm d e, h.pow_mul_mod m hm]

/-- Settles O53: both compositions raise to `e * d`, which is 1 modulo `p - 1` and `q - 1`. -/
theorem rsaKeyLaw : Obligations.RsaKeyLaw := by
  unfold Obligations.RsaKeyLaw
  exact fun n e d k h m hm => ⟨h.rsadp_rsaep m hm, h.rsaep_rsadp m hm⟩

end Sys2Proof.Machine
end

section
/-! OAEP: O54 (44_public_key.md R176 to R179, 45_sha1_mgf1.md R205). Decoding finds the two masked parts where encoding
put them and takes the masks off in the other order; what is left is the data block, and its parts are found again. -/

namespace Sys2Proof.Machine

@[simp] theorem labelHash_length (h : HashAlg) : (labelHash h).length = h.hLen := hashBytes_length h []

/-- The hash values cover the length asked for. -/
theorem mgf1_length (h : HashAlg) (seed : Bytes) (n : Nat) (hpos : 0 < h.hLen) : (mgf1 h seed n).length = n := by
  have hcover : n ≤ ceilDiv n h.hLen * h.hLen := by
    have hdiv := Nat.div_add_mod (n + h.hLen - 1) h.hLen
    have hmod := Nat.mod_lt (n + h.hLen - 1) hpos
    rw [mul_comm] at hdiv
    simp only [ceilDiv]
    omega
  simpa [mgf1, List.length_flatMap] using hcover

theorem oaepDataBlock_length (h : HashAlg) (k : Nat) (m : Bytes) (hk : 2 * h.hLen + 2 ≤ k)
    (hm : m.length ≤ k - 2 * h.hLen - 2) : (oaepDataBlock h k m).length = k - h.hLen - 1 := by
  simp only [oaepDataBlock, List.length_append, labelHash_length, rep_length, List.length_singleton]
  omega

/-- `maskedDB` of R178. -/
def oaepMaskedBlock (h : HashAlg) (k : Nat) (m seed : Bytes) : Bytes :=
  xorBytes (oaepDataBlock h k m) (mgf1 h seed (k - h.hLen - 1))

/-- `maskedSeed` of R178. -/
def oaepMaskedSeed (h : HashAlg) (k : Nat) (m seed : Bytes) : Bytes :=
  xorBytes seed (mgf1 h (oaepMaskedBlock h k m seed) h.hLen)

theorem oaepEncode_eq (h : HashAlg) (k : Nat) (m seed : Bytes) :
    oaepEncode h k m seed = 0x00#8 :: (oaepMaskedSeed h k m seed ++ oaepMaskedBlock h k m seed) := rfl

/-- Decoding cuts a string where encoding joined it. -/
theorem oaepUnmask_cons_append (h : HashAlg) (k : Nat) (v : Byte) (a b : Bytes) (ha : a.length = h.hLen)
    (hb : 1 + h.hLen + b.length = k) :
    oaepUnmask h k (v :: (a ++ b)) = xorBytes b (mgf1 h (xorBytes a (mgf1 h b h.hLen)) (k - h.hLen - 1)) := by
  have hseed : slice (v :: (a ++ b)) 1 (1 + h.hLen) = a := by simp [slice, ← ha]
  have hblock : slice (v :: (a ++ b)) (1 + h.hLen) k = b := by
    rw [slice, ← ha, Nat.add_comm 1, List.drop_succ_cons, List.drop_left, List.take_of_length_le (by omega)]
  simp only [oaepUnmask, hseed, hblock]

/-- R179 on a data block of the form of R178: the zero bytes end at the byte `01`. -/
theorem oaepDecode_of_dataBlock (h : HashAlg) (k : Nat) (em m : Bytes) (hhead : em.head? = some 0x00#8)
    (hdb : oaepUnmask h k em = oaepDataBlock h k m) : oaepDecode h k em = .ok m := by
  have htake : (oaepDataBlock h k m).take h.hLen = labelHash h := by
    simp only [oaepDataBlock, List.append_assoc]
    exact List.take_left' (labelHash_length h)
  have hdrop : ((oaepDataBlock h k m).drop h.hLen).dropWhile (fun x => x == 0x00#8) = 0x01#8 :: m := by
    simp only [oaepDataBlock, List.append_assoc]
    rw [List.drop_left' (labelHash_length h), List.dropWhile_append_of_pos (by simp [rep])]
    rfl
  simp [oaepDecode, hdb, hhead, htake, hdrop]

section encode
variable {h : HashAlg} {k : Nat} {m seed : Bytes}
variable (hpos : 0 < h.hLen) (hk : 2 * h.hLen + 2 ≤ k) (hm : m.length ≤ k - 2 * h.hLen - 2)
include hpos

theorem oaepMaskedSeed_length (hseed : seed.length = h.hLen) : (oaepMaskedSeed h k m seed).length = h.hLen := by
  rw [oaepMaskedSeed, xorBytes_length, mgf1_length _ _ _ hpos, hseed, Nat.min_self]

include hk hm

theorem oaepMaskedBlock_length : (oaepMaskedBlock h k m seed).length = k - h.hLen - 1 := by
  rw [oaepMaskedBlock, xorBytes_length, mgf1_length _ _ _ hpos, oaepDataBlock_length h k m hk hm, Nat.min_self]

theorem oaepEncode_length (hseed : seed.length = h.hLen) : (oaepEncode h k m seed).length = k := by
  rw [oaepEncode_eq, List.length_cons, List.length_append, oaepMaskedSeed_length hpos hseed,
    oaepMaskedBlock_length hpos hk hm]
  omega

/-- The masks come off: the seed first, then the data block. -/
theorem oaepUnmask_oaepEncode (hseed : seed.length = h.hLen) :
    oaepUnmask h k (oaepEncode h k m seed) = oaepDataBlock h k m := by
  have hblock := oaepMaskedBlock_length (seed := seed) hpos hk hm
  have hunseed : xorBytes (oaepMaskedSeed h k m seed) (mgf1 h (oaepMaskedBlock h k m seed) h.hLen) = seed :=
    xorBytes_cancel _ _ (by rw [mgf1_length _ _ _ hpos, hseed])
  rw [oaepEncode_eq, oaepUnmask_cons_append h k _ _ _ (oaepMaskedSeed_length hpos hseed) (by omega), hunseed]
  exact xorBytes_cancel _ _ (by rw [mgf1_length _ _ _ hpos, oaepDataBlock_length h k m hk hm])

theorem oaepDecode_oaepEncode (hseed : seed.length = h.hLen) : oaepDecode h k (oaepEncode h k m seed) = .ok m :=
  oaepDecode_of_dataBlock h k _ m rfl (oaepUnmask_oaepEncode hpos hk hm hseed)

end encode

/-- Settles O54: the encoding has its length, and its data block is found again when the masks come off. -/
theorem oaepDecodeInvertsEncode : Obligations.OaepDecodeInvertsEncode := by
  unfold Obligations.OaepDecodeInvertsEncode
  exact fun h k m seed hpos hk hm hseed =>
    ⟨oaepEncode_length hpos hk hm hseed, oaepDecode_oaepEncode hpos hk hm hseed⟩

end Sys2Proof.Machine
end

section
/-! RSA encryption and decryption, of byte strings and as commands: O55 and O56 (44_public_key.md R182 to R185). An
encoded message begins with a zero byte and a valid modulus has its top bit set, so the encoding is a number below the
modulus and the key law applies to it. -/

namespace Sys2Proof.Machine

theorem pow_256_eq (k : Nat) : 256 ^ k = 2 ^ (8 * k) := by rw [pow_mul]; rfl

theorem rsaEncryptSeeded_length (h : HashAlg) (k n e : Nat) (m seed : Bytes) :
    (rsaEncryptSeeded h k n e m seed).length = k := i2osp_length _ k

/-- The ciphertext is a number of `k` bytes, so `OS2IP` reads it back. -/
theorem os2ip_rsaEncryptSeeded (h : HashAlg) (k n e : Nat) (m seed : Bytes) (hpos : 0 < n) (hn : n < 2 ^ (8 * k)) :
    os2ip (rsaEncryptSeeded h k n e m seed) = rsaep n e (os2ip (oaepEncode h k m seed)) :=
  os2ip_i2osp _ k (pow_256_eq k ▸ (rsaep_lt n e _ hpos).trans hn)

/-- Settles O55: the modular power is below the modulus, and the modulus has `k` bytes. -/
theorem rsaCiphertextFormat : Obligations.RsaCiphertextFormat := by
  unfold Obligations.RsaCiphertextFormat
  intro h k n e m seed hlow hn
  have hpos : 0 < n := (Nat.two_pow_pos _).trans_le hlow
  rw [os2ip_rsaEncryptSeeded h k n e m seed hpos hn]
  exact ⟨rsaEncryptSeeded_length h k n e m seed, rsaep_lt n e _ hpos, rsaep_eq n e _ hpos⟩

/-- `k` bytes of which the first is zero are a number below every modulus of `8 * k` bits. -/
theorem os2ip_zero_cons_lt {b : Bytes} {k n : Nat} (hk : (0x00#8 :: b).length = k) (hn : 2 ^ (8 * k - 1) ≤ n) :
    os2ip (0x00#8 :: b) < n := by
  subst hk
  calc os2ip (0x00#8 :: b) = os2ip b := rfl
    _ < 256 ^ b.length := os2ip_lt b
    _ = 2 ^ (8 * b.length) := pow_256_eq _
    _ ≤ 2 ^ (8 * (b.length + 1) - 1) := Nat.pow_le_pow_right Nat.two_pos (by omega)
    _ ≤ n := hn

/-- R170 (b). -/
theorem ValidRsaKey.width {n e d k : Nat} (h : ValidRsaKey n e d k) : 2 ^ (8 * k - 1) ≤ n ∧ n < 2 ^ (8 * k) :=
  let ⟨_, _, _, hwidth, _⟩ := h
  hwidth

/-- R184 on a ciphertext that R182 made: the tests of length and size pass, and the padded message comes back. -/
theorem rsaDecrypt_rsaEncryptSeeded_eq {h : HashAlg} {k n e d : Nat} {m seed : Bytes} (hkey : ValidRsaKey n e d k)
    (hlen : (oaepEncode h k m seed).length = k) :
    rsaDecrypt h k n d (rsaEncryptSeeded h k n e m seed) = oaepDecode h k (oaepEncode h k m seed) := by
  obtain ⟨hlow, hn⟩ := hkey.width
  have hlt : os2ip (oaepEncode h k m seed) < n := os2ip_zero_cons_lt hlen hlow
  have hpos := Nat.zero_lt_of_lt hlt
  have hback : i2osp (os2ip (oaepEncode h k m seed)) k = oaepEncode h k m seed :=
    i2osp_os2ip_of_length hlen
  rw [rsaDecrypt, if_neg (not_not.2 (rsaEncryptSeeded_length h k n e m seed)),
    os2ip_rsaEncryptSeeded h k n e m seed hpos hn, if_neg (Nat.not_le.2 (rsaep_lt n e _ hpos)),
    hkey.rsadp_rsaep _ hlt, hback]

/-- An `ENCT.RSA` within `RSA_MAX` that answers a next state left the text of the ciphertext. -/
theorem exec_enctRsa_output {s t : State} {m : Bytes} (hb : s.input = some m) (hm : m.length ≤ s.cfg.rsaMax)
    (h : exec .enctRsa s = .next t) :
    t.output = some (b64Enc (rsaEncryptSeeded s.cfg.hash s.cfg.rsaK s.rsaN s.rsaE m (s.draw s.cfg.hash.hLen))) := by
  obtain ⟨hadmits, -⟩ := exec_next _ _ _ h
  rw [exec_enctRsa s m hadmits hb hm] at h
  obtain rfl := Host.Outcome.next.inj h
  exact State.output_complete_ok _ _ _

theorem State.Inv.admits_dectRsa {s : State} (h : s.Inv) : s.admits .dectRsa = true := by
  rw [State.admits_iff, outLenMax_of_decrypt _ _ _ (by decide)]
  exact h.input.length_le

/-- Settles O56: the text is decoded, and the registers hold the key the ciphertext was made with. -/
theorem rsaRoundTrip : Obligations.RsaRoundTrip := by
  unfold Obligations.RsaRoundTrip
  intro s t u m hs hu hkey hsame hb hm hexec hin
  obtain ⟨hcfg, -, -, hn, -, hd⟩ := hsame
  obtain ⟨hk, -, -, hpos, -⟩ := hs.config
  have hdec : decodeText u.rsaDecrypt
      (b64Enc (rsaEncryptSeeded s.cfg.hash s.cfg.rsaK s.rsaN s.rsaE m (s.draw s.cfg.hash.hLen))) = .ok m := by
    simp only [decodeText, b64Dec_b64Enc, State.rsaDecrypt, hcfg, hn, hd]
    rw [rsaDecrypt_rsaEncryptSeeded_eq hkey (oaepEncode_length hpos hk hm (s.draw_length _)),
      oaepDecode_oaepEncode hpos hk hm (s.draw_length _)]
  have hrun := exec_dectRsa u _ hu.admits_dectRsa (hin.trans (exec_enctRsa_output hb hm hexec))
  rw [hdec] at hrun
  exact ⟨_, hrun, outputIs_complete_ok _ _ m, show statusSuccess 0x0E#8 = 0x0E00#16 by decide⟩

end Sys2Proof.Machine
end

section
/-! The transport codec is a bijection onto the strings it accepts: O57 (46_transport_text.md R210 to R214). A group that
is accepted has the digits of its number, so encoding the bytes it gave writes the same group again; the lengths follow
from those of the encoding. -/

namespace Sys2Proof.Machine

/-! ### Digits -/

/-- The alphabet of R210 has one byte for each digit value. -/
theorem b64Val_spec : ∀ ch : Byte, ∀ v ∈ b64Val ch, v < 64 ∧ b64Char v = ch := by decide

/-- The digit values of a string of digits are below 64, and they write that string. -/
theorem b64Vals_some (qs : Bytes) (ds : List Nat) (h : b64Vals qs = some ds) :
    (∀ d ∈ ds, d < 64) ∧ ds.map b64Char = qs := by
  induction qs generalizing ds with
  | nil => cases h; simp
  | cons q qs ih =>
    unfold b64Vals at h
    split at h
    · next v vs hv hvs =>
      cases h
      obtain ⟨hlt, hchar⟩ := b64Val_spec q v hv
      obtain ⟨hlts, hchars⟩ := ih vs hvs
      exact ⟨List.forall_mem_cons.2 ⟨hlt, hlts⟩, by rw [List.map_cons, hchar, hchars]⟩
    · cases h

/-- A number of 24 bits is the number of three bytes. -/
theorem exists_bytes_of_lt (v : Nat) (h : v < 256 ^ 3) : ∃ a b c : Byte, i2osp v 3 = [a, b, c] ∧ os2ip [a, b, c] = v :=
  ⟨_, _, _, rfl, os2ip_i2osp v 3 h⟩

section group

variable {v d0 d1 d2 d3 : Nat} (hv : ((d0 * 64 + d1) * 64 + d2) * 64 + d3 = v)
  (h0 : d0 < 64) (h1 : d1 < 64) (h2 : d2 < 64) (h3 : d3 < 64)
include hv h0 h1 h2 h3

/-- The number of four digits (R212) has those digits (R211), and has 24 bits. -/
theorem b64Digit_of_digits : b64Digit v 0 = b64Char d0 ∧ b64Digit v 1 = b64Char d1 ∧ b64Digit v 2 = b64Char d2 ∧
    b64Digit v 3 = b64Char d3 ∧ v < 256 ^ 3 := by
  refine ⟨congrArg b64Char ?_, congrArg b64Char ?_, congrArg b64Char ?_, congrArg b64Char ?_, ?_⟩ <;> omega

/-- The three bytes of a number are written as its four digits. -/
theorem b64Enc_of_digits : b64Enc (i2osp v 3) = [b64Char d0, b64Char d1, b64Char d2, b64Char d3] := by
  obtain ⟨hq0, hq1, hq2, hq3, hlt⟩ := b64Digit_of_digits hv h0 h1 h2 h3
  obtain ⟨a, b, c, hbytes, rfl⟩ := exists_bytes_of_lt v hlt
  rw [hbytes, b64Enc, b64Enc, hq0, hq1, hq2, hq3]

/-- Where the last byte is 0, the other two are written as three digits and a pad byte. -/
theorem b64Enc_take_two_of_digits (hlow : v % 2 ^ 8 = 0) :
    b64Enc ((i2osp v 3).take 2) = [b64Char d0, b64Char d1, b64Char d2, padByte] := by
  obtain ⟨hq0, hq1, hq2, -, hlt⟩ := b64Digit_of_digits hv h0 h1 h2 h3
  obtain ⟨a, b, c, hbytes, rfl⟩ := exists_bytes_of_lt v hlt
  obtain rfl : c = 0#8 := by rw [os2ip_three] at hlow; bv_omega
  rw [hbytes, List.take, List.take, List.take, b64Enc, hq0, hq1, hq2]

/-- Where the last two bytes are 0, the first is written as two digits and two pad bytes. -/
theorem b64Enc_take_one_of_digits (hlow : v % 2 ^ 16 = 0) :
    b64Enc ((i2osp v 3).take 1) = [b64Char d0, b64Char d1, padByte, padByte] := by
  obtain ⟨hq0, hq1, -, -, hlt⟩ := b64Digit_of_digits hv h0 h1 h2 h3
  obtain ⟨a, b, c, hbytes, rfl⟩ := exists_bytes_of_lt v hlt
  obtain ⟨rfl, rfl⟩ : b = 0#8 ∧ c = 0#8 := by rw [os2ip_three] at hlow; constructor <;> bv_omega
  rw [hbytes, List.take, List.take, b64Enc, hq0, hq1]

end group

/-! ### Groups -/

/-- A group ends in no pad byte that counts, in one, or in two; only the last group in any (R212). -/
theorem padCount_cases (last : Bool) (q2 q3 : Byte) :
    padCount last q2 q3 = 0 ∨ (padCount last q2 q3 = 1 ∧ last = true ∧ q3 = padByte) ∨
      (padCount last q2 q3 = 2 ∧ last = true ∧ q2 = padByte ∧ q3 = padByte) := by
  unfold padCount
  split_ifs with h hq2
  · exact .inr (.inr ⟨rfl, h.1, hq2, h.2⟩)
  · exact .inr (.inl ⟨rfl, h⟩)
  · exact .inl rfl

/-- What a group that is accepted looks like: the converse of `b64DecGroup_eq`. -/
theorem b64DecGroup_ok (last : Bool) (q0 q1 q2 q3 : Byte) (np : Nat) (g : Bytes) (hnp : padCount last q2 q3 = np)
    (h : b64DecGroup last q0 q1 q2 q3 = .ok g) :
    ∃ ds v, b64Vals (([q0, q1, q2, q3] : Bytes).take (4 - np)) = some ds ∧
      (ds ++ List.replicate np 0).foldl (fun acc d => acc * 64 + d) 0 = v ∧
      (np = 1 → v % 2 ^ 8 = 0) ∧ (np = 2 → v % 2 ^ 16 = 0) ∧ g = (i2osp v 3).take (3 - np) := by
  simp only [b64DecGroup, hnp] at h
  split at h
  · cases h
  · next ds hds =>
    split_ifs at h with h1 h2
    cases h
    exact ⟨ds, _, hds, rfl, by simpa using h1, by simpa using h2, rfl⟩

theorem b64DecGroup_error (last : Bool) (q0 q1 q2 q3 : Byte) (e : EngineError)
    (h : b64DecGroup last q0 q1 q2 q3 = .error e) : e = .format := by
  simp only [b64DecGroup] at h
  split at h
  · cases h; rfl
  · split_ifs at h <;> cases h <;> rfl

/-- Encoding the bytes of an accepted group writes the group again, and only the last group has fewer than three. -/
theorem b64Enc_of_b64DecGroup (last : Bool) (q0 q1 q2 q3 : Byte) (g : Bytes)
    (h : b64DecGroup last q0 q1 q2 q3 = .ok g) :
    b64Enc g = [q0, q1, q2, q3] ∧ (last = false → g.length = 3) := by
  rcases padCount_cases last q2 q3 with hnp | ⟨hnp, rfl, rfl⟩ | ⟨hnp, rfl, rfl, rfl⟩ <;>
    obtain ⟨ds, v, hds, hv, hone, htwo, rfl⟩ := b64DecGroup_ok _ _ _ _ _ _ g hnp h <;>
    obtain ⟨hlt, hchars⟩ := b64Vals_some _ ds hds
  · match ds, hchars with
    | [d0, d1, d2, d3], hchars =>
      obtain ⟨rfl, rfl, rfl, rfl⟩ : b64Char d0 = q0 ∧ b64Char d1 = q1 ∧ b64Char d2 = q2 ∧ b64Char d3 = q3 := by
        simpa using hchars
      obtain ⟨h0, h1, h2, h3⟩ : d0 < 64 ∧ d1 < 64 ∧ d2 < 64 ∧ d3 < 64 := by simpa using hlt
      exact ⟨b64Enc_of_digits (by simpa using hv) h0 h1 h2 h3, fun _ => i2osp_length v 3⟩
  · match ds, hchars with
    | [d0, d1, d2], hchars =>
      obtain ⟨rfl, rfl, rfl⟩ : b64Char d0 = q0 ∧ b64Char d1 = q1 ∧ b64Char d2 = q2 := by simpa using hchars
      obtain ⟨h0, h1, h2⟩ : d0 < 64 ∧ d1 < 64 ∧ d2 < 64 := by simpa using hlt
      exact ⟨b64Enc_take_two_of_digits (d3 := 0) (by simpa using hv) h0 h1 h2 (by decide) (hone rfl), nofun⟩
  · match ds, hchars with
    | [d0, d1], hchars =>
      obtain ⟨rfl, rfl⟩ : b64Char d0 = q0 ∧ b64Char d1 = q1 := by simpa using hchars
      obtain ⟨h0, h1⟩ : d0 < 64 ∧ d1 < 64 := by simpa using hlt
      exact ⟨b64Enc_take_one_of_digits (d2 := 0) (d3 := 0) (by simpa using hv) h0 h1 (by decide) (by decide)
        (htwo rfl), nofun⟩

/-! ### Texts -/

/-- A whole group of three bytes is encoded on its own (R211). -/
theorem b64Enc_append_of_length_three (g b : Bytes) (hg : g.length = 3) : b64Enc (g ++ b) = b64Enc g ++ b64Enc b := by
  match g, hg with
  | [x, y, z], _ => rfl

/-- R213: encoding takes back decoding. -/
theorem b64Enc_of_b64Dec (t b : Bytes) (h : b64Dec t = .ok b) : b64Enc b = t := by
  fun_induction b64Dec t generalizing b with
  | case1 => cases h; rfl
  | case2 q0 q1 q2 q3 rest g b' hb hg ih =>
    cases h
    obtain ⟨hgroup, hlen⟩ := b64Enc_of_b64DecGroup _ _ _ _ _ g hg
    have hrest := ih b' hb
    cases rest with
    | nil => cases hb; simpa using hgroup
    | cons q rest => rw [b64Enc_append_of_length_three g b' (hlen rfl), hgroup, hrest]; rfl
  | case3 | case4 | case5 => cases h

theorem b64Dec_error (t : Bytes) (e : EngineError) (h : b64Dec t = .error e) : e = .format := by
  fun_induction b64Dec t generalizing e with
  | case1 => cases h
  | case2 => cases h
  | case3 q0 q1 q2 q3 rest e' hg =>
    cases h
    exact b64DecGroup_error _ _ _ _ _ _ hg
  | case4 q0 q1 q2 q3 rest e' hb _ ih =>
    cases h
    exact ih e' hb
  | case5 => cases h; rfl

/-- The pad bytes of a text make up for the bytes its last group lacks. -/
theorem b64Enc_count_padByte (b : Bytes) : b.length + (b64Enc b).count padByte = 3 * ceilDiv b.length 3 := by
  fun_induction b64Enc b with
  | case1 => rfl
  | case2 a v => simp [b64Digit_ne_padByte, ceilDiv]
  | case3 a b v => simp [b64Digit_ne_padByte, ceilDiv]
  | case4 a b c rest v ih =>
    simp only [List.length_cons, ne_eq, b64Digit_ne_padByte, not_false_eq_true, List.count_cons_of_ne, ceilDiv] at ih ⊢
    omega

theorem b64Dec_length (t b : Bytes) (h : b64Dec t = .ok b) : b.length = 3 * t.length / 4 - t.count padByte := by
  obtain rfl := b64Enc_of_b64Dec t b h
  have hlen := b64Enc_length b
  have hpad := b64Enc_count_padByte b
  omega

/-- Settles O57: each direction takes the other back, group by group, and the lengths are those of the encoding. -/
theorem radix64Bijection : Obligations.Radix64Bijection := by
  unfold Obligations.Radix64Bijection
  exact ⟨b64Dec_b64Enc, b64Enc_of_b64Dec, b64Dec_error, b64Enc_length, b64Dec_length⟩

end Sys2Proof.Machine
end

section
/-! The text commands: O14 to O19 (46_transport_text.md R217, R220 to R225). What the engines do stands above; a text
command encodes the engine's bytes, or decodes the text before the engine sees it. -/

namespace Sys2Proof.Machine

/-! ### The encrypt commands -/

/-- Settles O14: the result is the text of the engine's envelope, whose length is `encBlock_text_length`. -/
theorem enctAesResult : Obligations.EnctAesResult := by
  unfold Obligations.EnctAesResult
  refine ⟨by decide, fun s b _ hb hcap => ?_⟩
  have hadmits : s.admits .enctAes = true := (s.admits_iff _).2 (s.input_length b hb ▸ hcap)
  obtain ⟨hout, hstatus, hframe⟩ := succeeded_complete s 16 0x08#8 (b64Enc (s.encBlock .aes b))
  exact ⟨_, exec_enctAes s b hadmits hb, hout, s.encBlock_text_length .aes b, hstatus, hframe⟩

/-- Settles O16: as `enctAesResult`, with the DES engine. -/
theorem enctDesResult : Obligations.EnctDesResult := by
  unfold Obligations.EnctDesResult
  refine ⟨by decide, fun s b _ hb hcap => ?_⟩
  have hadmits : s.admits .enctDes = true := (s.admits_iff _).2 (s.input_length b hb ▸ hcap)
  obtain ⟨hout, hstatus, hframe⟩ := succeeded_complete s 8 0x09#8 (b64Enc (s.encBlock .des b))
  exact ⟨_, exec_enctDes s b hadmits hb, hout, s.encBlock_text_length .des b, hstatus, hframe⟩

/-- A valid configuration has room for the text of a ciphertext, so `ENCT.RSA` is always admitted (00_scope.md R10). -/
theorem State.admits_enctRsa (s : State) (hcfg : s.cfg.Valid) : s.admits .enctRsa = true := by
  obtain ⟨-, -, hroom, -⟩ := hcfg
  exact (s.admits_iff _).2 hroom

/-- Settles O18: within `RSA_MAX` the result is the text of a ciphertext of `RSA_K` bytes. -/
theorem enctRsaResult : Obligations.EnctRsaResult := by
  unfold Obligations.EnctRsaResult
  refine ⟨by decide, fun s m hcfg hb => ⟨fun hm => ?_, fun hm => ?_⟩⟩
  · obtain ⟨hout, hstatus, hframe⟩ := succeeded_complete s s.cfg.hash.hLen 0x0A#8 (b64Enc
      (rsaEncryptSeeded s.cfg.hash s.cfg.rsaK s.rsaN s.rsaE m (s.draw s.cfg.hash.hLen)))
    refine ⟨_, exec_enctRsa s m (s.admits_enctRsa hcfg) hb hm, hout, ?_, hstatus, hframe⟩
    rw [State.complete_ok_outLen, b64Enc_length, rsaEncryptSeeded_length]
    rfl
  · exact ⟨_, exec_enctRsa_tooLarge s m (s.admits_enctRsa hcfg) hb hm, failedWith_complete s 0x0A#8 _⟩

/-! ### Decoding before the engine -/

theorem decodeText_of_ok {decrypt : Bytes → Except EngineError Bytes} {text raw : Bytes} (h : b64Dec text = .ok raw) :
    decodeText decrypt text = decrypt raw := by
  simp only [decodeText, h]

theorem decodeText_of_error {decrypt : Bytes → Except EngineError Bytes} {text : Bytes} {e : EngineError}
    (h : b64Dec text = .error e) : decodeText decrypt text = .error .format := by
  simp only [decodeText, h, b64Dec_error text e h]

section completion

variable {i : Instr} {s : State} {ctx : Byte} {r : Except EngineError Bytes}

theorem exec_failedWith (hexec : exec i s = .next (s.complete ctx r)) {e : EngineError} (hr : r = .error e) :
    ∃ t, exec i s = .next t ∧ FailedWith s t ctx e :=
  ⟨_, hr ▸ hexec, failedWith_complete s ctx e⟩

theorem exec_succeeded (hexec : exec i s = .next (s.complete ctx r)) {v : Bytes} (hr : r = .ok v) :
    ∃ t, exec i s = .next t ∧ Succeeded s t ctx v 0 :=
  ⟨_, hr ▸ hexec, succeeded_complete s 0 ctx v⟩

/-- After a text that is well formed a command completes as the engine's decryption of its bytes does (R217). -/
theorem exec_decoded {decrypt : Bytes → Except EngineError Bytes} {text raw : Bytes}
    (hexec : exec i s = .next (s.complete ctx (decodeText decrypt text))) (hok : b64Dec text = .ok raw) :
    exec i s = .next (s.complete ctx (decrypt raw)) := by
  rwa [decodeText_of_ok hok] at hexec

end completion

theorem State.admits_of_decrypt (s : State) (i : Instr) (text : Bytes) (hdir : fieldDir (encodeCmd i) = .decrypt)
    (hb : s.input = some text) (hcap : text.length ≤ s.cfg.bufCap) : s.admits i = true := by
  rw [State.admits_iff, outLenMax_of_decrypt _ _ _ hdir, ← s.input_length text hb]
  exact hcap

/-! ### The decrypt commands of the block ciphers -/

/-- Settles O15: a text is malformed, or the engine decrypts the bytes it stands for, as under `DECB.AES`. -/
theorem dectAesResult : Obligations.DectAesResult := by
  unfold Obligations.DectAesResult
  refine ⟨by decide, fun s text _ hb hcap => ?_⟩
  have hexec := exec_dectAes s text (s.admits_of_decrypt _ text (by decide) hb hcap) hb
  exact ⟨fun _ he => exec_failedWith hexec (decodeText_of_error he),
    fun _ hok => exec_decBlock_badFrame (exec_decoded hexec hok), fun _ hok hlen hmod =>
    ⟨fun _ he => exec_decBlock_error (exec_decoded hexec hok) hlen hmod he,
      fun _ hd => exec_decBlock_ok (exec_decoded hexec hok) hlen hmod hd⟩⟩

/-- Settles O17: as `dectAesResult`, with the DES engine. -/
theorem dectDesResult : Obligations.DectDesResult := by
  unfold Obligations.DectDesResult
  refine ⟨by decide, fun s text _ hb hcap => ?_⟩
  have hexec := exec_dectDes s text (s.admits_of_decrypt _ text (by decide) hb hcap) hb
  exact ⟨fun _ he => exec_failedWith hexec (decodeText_of_error he),
    fun _ hok => exec_decBlock_badFrame (exec_decoded hexec hok), fun _ hok hlen hmod =>
    ⟨fun _ he => exec_decBlock_error (exec_decoded hexec hok) hlen hmod he,
      fun _ hd => exec_decBlock_ok (exec_decoded hexec hok) hlen hmod hd⟩⟩

/-! ### The decrypt command of RSA -/

theorem oaepDecode_error (h : HashAlg) (k : Nat) (em : Bytes) (e : EngineError) (he : oaepDecode h k em = .error e) :
    e = .decryption := by
  simp only [oaepDecode] at he
  split at he
  · cases he; rfl
  · split at he
    · cases he; rfl
    · split_ifs at he
      cases he; rfl

/-- A ciphertext of another length or not below the modulus is rejected before any decryption (R184). -/
theorem rsaDecrypt_badCiphertext (h : HashAlg) (k n d : Nat) (c : Bytes) (hc : c.length ≠ k ∨ n ≤ os2ip c) :
    rsaDecrypt h k n d c = .error .decryption := by
  unfold rsaDecrypt
  split_ifs with hlen hbig
  · rfl
  · rfl
  · exact absurd hc (not_or.2 ⟨hlen, hbig⟩)

/-- On a ciphertext in range the outcome is the one of the OAEP decoding (R184). -/
theorem rsaDecrypt_inRange (h : HashAlg) (k n d : Nat) (c : Bytes) (hlen : c.length = k) (hlt : os2ip c < n) :
    rsaDecrypt h k n d c = oaepDecode h k (i2osp (rsadp n d (os2ip c)) k) := by
  rw [rsaDecrypt, if_neg (not_not.2 hlen), if_neg (Nat.not_le.2 hlt)]

/-- Settles O19: the three causes of `DecryptionError` are the two tests of R184 and the OAEP check. -/
theorem dectRsaResult : Obligations.DectRsaResult := by
  unfold Obligations.DectRsaResult
  refine ⟨by decide, fun s text _ hb hcap => ?_⟩
  have hexec := exec_dectRsa s text (s.admits_of_decrypt _ text (by decide) hb hcap) hb
  refine ⟨fun _ he => exec_failedWith hexec (decodeText_of_error he), fun c hok hbad =>
    exec_failedWith (exec_decoded hexec hok) (rsaDecrypt_badCiphertext _ _ _ _ c hbad), fun c hok hlen hlt => ?_⟩
  have hdec := rsaDecrypt_inRange s.cfg.hash s.cfg.rsaK s.rsaN s.rsaD c hlen hlt
  refine ⟨fun e he => ?_, fun m hm =>
    ⟨oaepDecode_length_le _ _ _ m hm, exec_succeeded (exec_decoded hexec hok) (hdec.trans hm)⟩⟩
  obtain rfl := oaepDecode_error _ _ _ e he
  exact exec_failedWith (exec_decoded hexec hok) (hdec.trans he)

end Sys2Proof.Machine
end

section
/-! The dispatcher: O20, O21, O22, O27, O28, O47 (47_dispatcher.md R241 to R247). The commands outside the capability matrix
are those whose list of 60_exceptions.md R260 holds `UnsupportedAlgorithmError`; they complete with it without reading `IN`,
and no engine answers it. -/

namespace Sys2Proof.Machine

/-! ### The commands outside the capability matrix -/

/-- A command that can end with `UnsupportedAlgorithmError` is a rejected one, and its bound is the length of `IN`. -/
theorem exec_eq_rejectCommand {i : Instr} (h : EngineError.unsupportedAlgorithm ∈ possibleErrors i) (s : State) :
    exec i s = rejectCommand i s ∧ outLenMax s.cfg i s.inLen = s.inLen := by
  cases i with
  | encbRsa | decbRsa | unsup | rsvd7 | rsvd6 | rsvd5 | rsvd4 => exact ⟨rfl, rfl⟩
  | encbAes | encbDes | decbAes | decbDes | enctAes | enctDes | enctRsa | dectAes | dectDes | dectRsa =>
    exact absurd h (by decide)

/-- Whatever `IN` holds, a rejected command completes at once (47_dispatcher.md R242). -/
theorem exec_rejected {i : Instr} (h : EngineError.unsupportedAlgorithm ∈ possibleErrors i) (s : State)
    (hcap : s.inLen ≤ s.cfg.bufCap) :
    exec i s = .next (s.complete (encodeCmd i) (.error .unsupportedAlgorithm)) := by
  obtain ⟨hexec, hlen⟩ := exec_eq_rejectCommand h s
  rw [hexec, rejectCommand_eq i s ((s.admits_iff i).2 (hlen.trans_le hcap))]

/-- The value R246 and R247 give for `STATUS`. -/
theorem statusFailure_unsupportedAlgorithm : ∀ c : Byte,
    statusFailure c .unsupportedAlgorithm = c.setWidth 16 <<< 8 ||| 0x0001#16 := by decide

theorem exec_rejected_result {i : Instr} (h : EngineError.unsupportedAlgorithm ∈ possibleErrors i) (s : State)
    (hcap : s.inLen ≤ s.cfg.bufCap) :
    ∃ t, exec i s = .next t ∧ OutputIs t [] ∧ t.status = (encodeCmd i).setWidth 16 <<< 8 ||| 0x0001#16 ∧
      CommandFrame s t 0 := by
  obtain ⟨hout, hstatus, hframe⟩ := failedWith_complete s (encodeCmd i) .unsupportedAlgorithm
  exact ⟨_, exec_rejected h s hcap, hout, hstatus.trans (statusFailure_unsupportedAlgorithm _), hframe⟩

/-- Settles O20: neither command reads `IN`, so the bound on its length is all that admission asks. -/
theorem rsaOnBytesIsUnsupported : Obligations.RsaOnBytesIsUnsupported := by
  unfold Obligations.RsaOnBytesIsUnsupported
  exact ⟨by decide, by decide, fun s hcap =>
    ⟨exec_rejected_result (i := .encbRsa) (by decide) s hcap, exec_rejected_result (i := .decbRsa) (by decide) s hcap⟩⟩

theorem unsup_status_values : ∀ c : Byte, fieldRsv c = 0#4 → c.extractLsb' 0 2 = 3#2 →
    c.setWidth 16 <<< 8 ||| 0x0001#16 = 0x0301#16 ∨ c.setWidth 16 <<< 8 ||| 0x0001#16 = 0x0701#16 ∨
      c.setWidth 16 <<< 8 ||| 0x0001#16 = 0x0B01#16 ∨ c.setWidth 16 <<< 8 ||| 0x0001#16 = 0x0F01#16 := by decide

/-- Settles O21: the selector `11` is `UNSUP`, a rejected command, and its byte is one of four. -/
theorem unsupResult : Obligations.UnsupResult := by
  unfold Obligations.UnsupResult
  intro s c hcap hrsv halg
  have hdecode : decodeCmd c = .unsup c :=
    (decodeCmd_of_defined c hrsv).trans (decodeDefined_of_other c ((fieldAlg_eq_other_iff c).2 halg))
  obtain ⟨t, hexec, hout, hstatus, hframe⟩ := exec_rejected_result (i := .unsup c) List.mem_cons_self s hcap
  exact ⟨hdecode, t, hexec, hout, hframe, hstatus, hstatus ▸ unsup_status_values c hrsv halg⟩

theorem fieldRsv_ne_zero_of_le : ∀ c : Byte, 0x10 ≤ c.toNat → fieldRsv c ≠ 0#4 := by decide

/-- Settles O22: the four rows are rejected commands, and a byte from `0x10` on has a reserved bit set. -/
theorem rsvdResult : Obligations.RsvdResult := by
  unfold Obligations.RsvdResult
  refine fun s c hcap => ⟨fun i hi => ?_, fun hle => ?_⟩
  · obtain ⟨hbyte, herr⟩ : encodeCmd i = c ∧ EngineError.unsupportedAlgorithm ∈ possibleErrors i := by
      simp only [List.mem_cons, List.not_mem_nil, or_false] at hi
      rcases hi with rfl | rfl | rfl | rfl <;> exact ⟨rfl, List.mem_cons_self⟩
    exact hbyte ▸ exec_rejected_result herr s hcap
  · have hrsv := fieldRsv_ne_zero_of_le c hle
    rw [decodeCmd_of_reserved c hrsv]
    simpa using (decodeReserved_cases c hrsv).1

/-! ### The errors of the engines -/

theorem decBlock_error {alg : BlockAlg} {k env : Bytes} {e : EngineError} (h : decBlock alg k env = .error e) :
    e ∈ [EngineError.invalidEnvelope, .padding] := by
  have hpos := blockSize_pos alg
  by_cases hbad : env.length < 2 * blockSize alg ∨ env.length % blockSize alg ≠ 0
  · rw [decBlock_badFrame alg k env hbad] at h
    simp [Except.error.inj h.symm]
  · rw [decBlock_framed alg k env (by omega) (by omega)] at h
    simp [unpad_error _ _ _ h]

theorem rsaDecrypt_error {h : HashAlg} {k n d : Nat} {c : Bytes} {e : EngineError}
    (he : rsaDecrypt h k n d c = .error e) : e = .decryption := by
  by_cases hbad : c.length ≠ k ∨ n ≤ os2ip c
  · rw [rsaDecrypt_badCiphertext h k n d c hbad] at he
    exact (Except.error.inj he).symm
  · rw [rsaDecrypt_inRange h k n d c (by omega) (by omega)] at he
    exact oaepDecode_error h k _ e he

theorem State.encodeText_rsaEncrypt_error {s : State} {m : Bytes} {e : EngineError}
    (h : (encodeText (s.rsaEncrypt m)).result = .error e) : e = .payloadTooLarge := by
  unfold State.rsaEncrypt at h
  split at h <;> cases h
  rfl

/-- A text command fails on its text, or as the engine does on the bytes of the text (46_transport_text.md R217). -/
theorem decodeText_error {decrypt : Bytes → Except EngineError Bytes} {text : Bytes} {e : EngineError}
    {es : List EngineError} (hd : ∀ raw e, decrypt raw = .error e → e ∈ es) (h : decodeText decrypt text = .error e) :
    e ∈ EngineError.format :: es := by
  cases hraw : b64Dec text with
  | ok raw => exact List.mem_cons_of_mem _ (hd raw e ((decodeText_of_ok hraw).symm.trans h))
  | error e' => simp [Except.error.inj (h.symm.trans (decodeText_of_error hraw))]

/-! ### The errors of a command -/

/-- Every command is one of the two shared operations, and what it computes fails only with an error of its list
(60_exceptions.md R260). -/
theorem exec_eq_run_or_reject_errors (i : Instr) (s : State) :
    (∃ f, exec i s = runCommand i f s ∧ ∀ b e, (f b).result = .error e → e ∈ possibleErrors i) ∨
    exec i s = rejectCommand i s ∧ EngineError.unsupportedAlgorithm ∈ possibleErrors i := by
  cases i with
  | encbAes | encbDes | enctAes | enctDes => exact .inl ⟨_, rfl, nofun⟩
  | decbAes | decbDes => exact .inl ⟨_, rfl, fun _ _ => decBlock_error⟩
  | dectAes | dectDes => exact .inl ⟨_, rfl, fun _ _ => decodeText_error fun _ _ => decBlock_error⟩
  | enctRsa => exact .inl ⟨_, rfl, fun _ _ h => List.mem_singleton.2 (State.encodeText_rsaEncrypt_error h)⟩
  | dectRsa =>
    exact .inl ⟨_, rfl, fun _ _ => decodeText_error fun _ _ h => List.mem_singleton.2 (rsaDecrypt_error h)⟩
  | encbRsa | decbRsa | unsup | rsvd7 | rsvd6 | rsvd5 | rsvd4 => exact .inr ⟨rfl, List.mem_cons_self⟩

/-- A command that answers a next state completed with some bytes or with an error of its list. -/
theorem exec_next_errors (i : Instr) (s t : State) (h : exec i s = .next t) :
    ∃ (n : Nat) (r : Except EngineError Bytes), t = (s.afterDraw n).complete (encodeCmd i) r ∧
      ∀ e, r = .error e → e ∈ possibleErrors i := by
  rcases exec_eq_run_or_reject_errors i s with ⟨f, hf, herr⟩ | ⟨hrej, hmem⟩
  · obtain ⟨-, b, -, ht⟩ := runCommand_next i f s t (hf ▸ h)
    exact ⟨_, _, ht, herr b⟩
  · obtain ⟨-, ht⟩ := rejectCommand_next i s t (hrej ▸ h)
    exact ⟨0, _, ht, fun e he => Except.error.inj he ▸ hmem⟩

theorem eq_unsupportedAlgorithm_of_errCode {e : EngineError} (h : errCode e = 1#3) : e = .unsupportedAlgorithm := by
  cases e with
  | unsupportedAlgorithm => rfl
  | payloadTooLarge | invalidEnvelope | padding | format | decryption => exact absurd h (by decide)

/-- `ERR` is 1 after the rejected commands only (60_exceptions.md R260). -/
theorem statusErr_eq_one_iff {i : Instr} {s t : State} (h : exec i s = .next t) :
    statusErr t.status = 1#3 ↔ EngineError.unsupportedAlgorithm ∈ possibleErrors i := by
  constructor
  · intro hone
    obtain ⟨n, r, rfl, herr⟩ := exec_next_errors i s t h
    cases r with
    | ok v => simp [statusSuccess] at hone
    | error e =>
      have hcode : errCode e = 1#3 := by simpa [statusFailure] using hone
      exact herr _ (by rw [eq_unsupportedAlgorithm_of_errCode hcode])
  · intro hmem
    obtain ⟨hexec, -⟩ := exec_eq_rejectCommand hmem s
    obtain ⟨-, rfl⟩ := rejectCommand_next i s t (hexec ▸ h)
    exact statusErr_statusWord _ _ _

/-! ### The capability matrix -/

/-- The bytes outside the matrix are those of the rejected commands: the 256 bytes are evaluated. -/
theorem supportedByte_eq_false_iff : ∀ c : Byte, supportedByte c = false ↔
    EngineError.unsupportedAlgorithm ∈ possibleErrors (decodeCmd c) := by decide

/-- Settles O27: `ERR` is 1 after the rejected commands only, and those are the bytes outside the matrix. -/
theorem capabilityMatrix : Obligations.CapabilityMatrix := by
  unfold Obligations.CapabilityMatrix
  refine ⟨fun c s t h => ?_, fun _ => ⟨rfl, rfl, rfl⟩, rfl, rfl⟩
  rw [statusErr_eq_one_iff h, ← supportedByte_eq_false_iff, Bool.not_eq_true]

/-- Settles O28: completion with an error writes `OUT`, `OUT_LEN` and `STATUS` only, none of them from `IN`. -/
theorem unsupportedCommandsIgnoreInput : Obligations.UnsupportedCommandsIgnoreInput := by
  unfold Obligations.UnsupportedCommandsIgnoreInput
  intro c s m len hbyte hcap hcap'
  have herr := (supportedByte_eq_false_iff c).1 hbyte
  have hexec := exec_rejected herr s hcap
  exact ⟨_, hexec, exec_rejected herr { s with inBuf := m, inLen := len } hcap', rfl, rfl,
    outputIs_complete_error _ _ _, (statusErr_eq_one_iff hexec).2 herr⟩

/-! ### One engine for bytes and text -/

/-- On what a command of a kind writes for an envelope, the decrypt command of that kind completes as the engine does on
the envelope (47_dispatcher.md R243). -/
theorem State.Inv.exec_decCommand_toTransport {s : State} (h : s.Inv) {kind : Kind} {env : Bytes} (alg : BlockAlg)
    (hin : s.input = some (toTransport kind env)) :
    exec (decCommand kind alg) s =
      .next (s.complete (encodeCmd (decCommand kind alg)) (s.decBlock alg env)) := by
  rw [exec_decCommand, runCommand_eq _ _ s _ (h.admits_decCommand kind alg) hin, fromTransport_toTransport,
    State.afterDraw_zero]

/-- The output and `ERR` that a completion leaves are those of the result. -/
theorem State.complete_outcome_congr (s s' : State) (ctx ctx' : Byte) (r : Except EngineError Bytes) :
    (s.complete ctx r).output = (s'.complete ctx' r).output ∧
      statusErr (s.complete ctx r).status = statusErr (s'.complete ctx' r).status := by
  cases r with
  | ok v => simp [statusSuccess]
  | error e => simp [statusFailure]

theorem State.draw_congr {s s' : State} (hentropy : s.entropy = s'.entropy) (hdrawn : s.drawn = s'.drawn) (n : Nat) :
    s.draw n = s'.draw n := by
  have hbyte : s.entropyByte = s'.entropyByte := funext fun i => by
    rw [State.entropyByte, State.entropyByte, hentropy, hdrawn]
  rw [State.draw, State.draw, hbyte]

/-- Settles O47: both kinds run the engine of their cipher, on equal keys and, for encryption, on equal draws. -/
theorem textAndBytesShareOneEngine : Obligations.TextAndBytesShareOneEngine := by
  unfold Obligations.TextAndBytesShareOneEngine
  intro alg s s' env hs hs' hcfg
  have hkey := hs.blockKey_eq hs' hcfg alg
  refine ⟨fun hin hin' => ?_, fun t t' hin hentropy hdrawn ht ht' => ?_⟩
  · have hdec : s.decBlock alg env = s'.decBlock alg env := by rw [State.decBlock, State.decBlock, hkey]
    have htext := hs.exec_decCommand_toTransport (kind := .text) alg hin
    have hbytes := hs'.exec_decCommand_toTransport (kind := .bytes) alg hin'
    rw [hdec] at htext
    exact ⟨_, _, htext, hbytes, State.complete_outcome_congr _ _ _ _ _⟩
  · obtain ⟨b, hb, hout⟩ := exec_encCommand_output ht
    obtain ⟨b', hb', hout'⟩ := exec_encCommand_output ht'
    obtain rfl : b = b' := Option.some.inj (hb.symm.trans (hin.trans hb'))
    have henc : s.encBlock alg b = s'.encBlock alg b := by
      rw [State.encBlock, State.encBlock, hkey, State.draw_congr hentropy hdrawn]
    rw [hout, hout', henc]
    rfl

end Sys2Proof.Machine
end

section
/-! Errors, retries and the first command after reset: O24, O29, O30, O38 (60_exceptions.md R260, R270, R271;
70_reset_and_hazards.md R294). No command reads `OUT`, `OUT_LEN` or `STATUS`, so one that drew nothing runs again from
the state it left as it ran before. -/

namespace Sys2Proof.Machine

/-! ### The errors of each command -/

/-- Settles O24: the result a command completes with is some bytes or an error of its list, and `STATUS` says which. -/
theorem errorsOfEachCommand : Obligations.ErrorsOfEachCommand := by
  unfold Obligations.ErrorsOfEachCommand
  intro i s t h
  obtain ⟨n, r, rfl, herr⟩ := exec_next_errors i s t h
  cases r with
  | ok v => exact .inl (by simp [statusSuccess])
  | error e => exact .inr ⟨e, herr e rfl, by simp [statusFailure]⟩

/-! ### What earlier commands left -/

/-- The state with something else in `OUT`, `OUT_LEN` and `STATUS`, the registers a command writes. -/
def State.withResult (s : State) (m : Memory) (len : Nat) (w : BitVec 16) : State :=
  { s with outBuf := m, outLen := len, status := w }

section withResult

variable (s : State) (m : Memory) (len : Nat) (w : BitVec 16)

theorem runCommand_withResult (i : Instr) (f : Bytes → Computed) :
    runCommand i f (s.withResult m len w) = runCommand i f s := by
  have hcomplete : ∀ n r, ((s.withResult m len w).afterDraw n).complete (encodeCmd i) r =
      (s.afterDraw n).complete (encodeCmd i) r := fun n r =>
    (s.afterDraw n).complete_forgets (encodeCmd i) r m len w
  simp only [runCommand, hcomplete]
  rfl

theorem rejectCommand_withResult (i : Instr) : rejectCommand i (s.withResult m len w) = rejectCommand i s := by
  have hcomplete : ∀ r, (s.withResult m len w).complete (encodeCmd i) r = s.complete (encodeCmd i) r := fun r =>
    s.complete_forgets (encodeCmd i) r m len w
  simp only [rejectCommand, hcomplete]
  rfl

/-- A command is one of the shared operations, and what it computes depends on the keys, the parameters and ENTROPY. -/
theorem exec_withResult (i : Instr) : exec i (s.withResult m len w) = exec i s := by
  cases i with
  | encbAes | encbDes | decbAes | decbDes | enctAes | enctDes | enctRsa | dectAes | dectDes | dectRsa =>
    exact runCommand_withResult s m len w _ _
  | encbRsa | decbRsa | unsup | rsvd7 | rsvd6 | rsvd5 | rsvd4 => exact rejectCommand_withResult s m len w _

end withResult

/-- Settles O29: no command reads the registers it writes. -/
theorem resultsIgnoreEarlierResults : Obligations.ResultsIgnoreEarlierResults := by
  unfold Obligations.ResultsIgnoreEarlierResults
  exact fun i s m len w => exec_withResult s m len w i

/-! ### A command issued again -/

/-- After the completion of a command that drew nothing, every command does as it would have done before. -/
theorem exec_complete (i : Instr) (s : State) (ctx : Byte) (r : Except EngineError Bytes) :
    exec i (s.complete ctx r) = exec i s := by
  cases r with
  | ok v => exact exec_withResult s _ _ _ i
  | error e => exact exec_withResult s _ _ _ i

theorem State.rsaEncrypt_draws_of_error {s : State} {m : Bytes} {e : EngineError}
    (h : (encodeText (s.rsaEncrypt m)).result = .error e) : (encodeText (s.rsaEncrypt m)).draws = 0 := by
  simp only [encodeText, State.rsaEncrypt] at h ⊢
  split_ifs at h ⊢
  rfl

/-- A command that is a decryption or fails draws nothing (41_block_cipher.md R109, 44_public_key.md R180, R184). -/
theorem exec_eq_run_or_reject_draws (i : Instr) (s : State) :
    (∃ f, exec i s = runCommand i f s ∧
      ∀ b, fieldDir (encodeCmd i) = .decrypt ∨ (∃ e, (f b).result = .error e) → (f b).draws = 0) ∨
    exec i s = rejectCommand i s := by
  cases i with
  | decbAes | decbDes | dectAes | dectDes | dectRsa => exact .inl ⟨_, rfl, fun _ _ => rfl⟩
  | encbAes | encbDes | enctAes | enctDes =>
    exact .inl ⟨_, rfl, fun _ h => h.elim (fun hdir => absurd hdir (by decide)) nofun⟩
  | enctRsa =>
    refine .inl ⟨_, rfl, fun b h => ?_⟩
    obtain ⟨e, he⟩ := h.resolve_left (by decide)
    exact State.rsaEncrypt_draws_of_error he
  | encbRsa | decbRsa | unsup | rsvd7 | rsvd6 | rsvd5 | rsvd4 => exact .inr rfl

theorem exists_error_of_statusErr {s : State} {ctx : Byte} {r : Except EngineError Bytes}
    (h : statusErr (s.complete ctx r).status ≠ 0#3) : ∃ e, r = .error e := by
  cases r with
  | ok v => simp [statusSuccess] at h
  | error e => exact ⟨e, rfl⟩

/-- A decryption or a failing command is nothing but a completion. -/
theorem exec_next_undrawn (i : Instr) (s t : State) (h : exec i s = .next t)
    (hcase : fieldDir (encodeCmd i) = .decrypt ∨ statusErr t.status ≠ 0#3) :
    ∃ r, t = s.complete (encodeCmd i) r := by
  rcases exec_eq_run_or_reject_draws i s with ⟨f, hf, hdraws⟩ | hrej
  · obtain ⟨-, b, -, rfl⟩ := runCommand_next i f s t (hf ▸ h)
    exact ⟨(f b).result, by rw [hdraws b (hcase.imp_right exists_error_of_statusErr), State.afterDraw_zero]⟩
  · obtain ⟨-, ht⟩ := rejectCommand_next i s t (hrej ▸ h)
    exact ⟨_, ht⟩

/-- Settles O30: such a command leaves the state it met but for its result, which the command issued again ignores. -/
theorem retryGivesTheSameOutcome : Obligations.RetryGivesTheSameOutcome := by
  unfold Obligations.RetryGivesTheSameOutcome
  intro i s t h hcase
  obtain ⟨r, rfl⟩ := exec_next_undrawn i s t h hcase
  exact (exec_complete i s (encodeCmd i) r).trans h

/-! ### The first command after reset -/

section powerOn

variable (cfg : Config) (n d : Nat)

theorem step_powerOn_issue (c : Byte) :
    step { State.powerOn cfg n d with host := [.issue c] } =
      exec (decodeCmd c) { State.powerOn cfg n d with cmd := c } :=
  step_cons _ (.issue c) [] rfl

theorem step_powerOn_issue_completes (c : Byte) (h : outLenMax cfg (decodeCmd c) 0 ≤ cfg.bufCap) :
    ∃ t, step { State.powerOn cfg n d with host := [.issue c] } = .next t := by
  rw [step_powerOn_issue]
  exact exec_completes _ _ [] ((State.admits_iff _ _).2 h) rfl

end powerOn

/-- On the empty input the longest output but an RSA text is the AES text, of 44 bytes (20_memory.md R58). -/
theorem outLenMax_zero_le (cfg : Config) (hcfg : cfg.Valid) (hcap : 44 ≤ cfg.bufCap) (i : Instr) :
    outLenMax cfg i 0 ≤ cfg.bufCap := by
  obtain ⟨-, -, hroom, -⟩ := hcfg
  cases i with
  | enctRsa => exact hroom
  | encbAes | encbDes | enctAes | enctDes =>
    simp only [outLenMax, ceilDiv]
    omega
  | encbRsa | decbAes | decbDes | decbRsa | dectAes | dectDes | dectRsa | unsup | rsvd7 | rsvd6 | rsvd5 | rsvd4 =>
    exact Nat.zero_le _

/-- Settles O38: reset leaves the empty input, on which `ENCB.AES` and `DECB.AES` do as R113 and R114 say. -/
theorem anyCommandMayBeFirstAfterReset : Obligations.AnyCommandMayBeFirstAfterReset := by
  unfold Obligations.AnyCommandMayBeFirstAfterReset
  intro cfg n d hcfg
  refine ⟨step_powerOn_issue_completes cfg n d, fun hcap c => outLenMax_zero_le cfg hcfg hcap (decodeCmd c),
    fun hcap => ?_, ?_⟩
  · obtain ⟨hdecode, hresult⟩ := encbAesResult
    obtain ⟨t, hexec, -, hlen, hstatus, -⟩ := hresult { State.powerOn cfg n d with cmd := 0x00#8 } [] hcfg rfl hcap
    exact ⟨t, by rw [step_powerOn_issue, hdecode, hexec], hlen, hstatus⟩
  · obtain ⟨hdecode, hresult⟩ := decbAesResult
    obtain ⟨hframe, -⟩ := hresult { State.powerOn cfg n d with cmd := 0x04#8 } [] hcfg rfl (Nat.zero_le _)
    obtain ⟨t, hexec, hout, hstatus, -⟩ := hframe (.inl (by decide))
    exact ⟨t, by rw [step_powerOn_issue, hdecode, hexec], hout, hstatus⟩

end Sys2Proof.Machine
end
